-- ==== Sys2Proof/Word.lean ====
section
/-!
DEFINITION. The word types of the MIXK block and their plainest arithmetic.
Registers, bus addresses and command words are 32 bits wide (R6); a sample or control coefficient is a 16-bit
field (R6, R11); memory is addressed by bytes (R50).
-/

namespace Sys2Proof

/-- A register, a bus address or a command word: 32 bits (R6). -/
abbrev Word := BitVec 32

/-- A 16-bit sample, control coefficient or lane (R6, R140). -/
abbrev Half := BitVec 16

/-- One byte of system memory (R50). -/
abbrev Byte := BitVec 8

/-- The number of bytes of the 32-bit address space (R50): addresses are `0` to `addressSpace - 1`. -/
abbrev addressSpace : Nat := 4294967296

end Sys2Proof
end

