-- ==== Sys2Proof/Config.lean ====
section
/-!
DEFINITION. What one build of the block and its platform fix: the parameters of R5, and the free values the spec
leaves open. A configuration is plain data and stands in `State`, where no step changes it, so that a claim
quantifies over every build. The free values are opaque constants without a body: no proof can see what they are.
-/

namespace Sys2Proof

/-- `VARIANT`, the build-time choice of datapath (R2, R5). -/
inductive Variant where
  /-- One 16-bit sample per datapath operation. -/
  | narrow
  /-- Two samples packed in one 32-bit word. -/
  | wide
deriving DecidableEq, Repr

/-- `ROUND_MODE`, how a scaled product is shifted right by `G` (R5, R102). -/
inductive RoundMode where
  /-- Nearest integer, a tie to the lower one: the default. -/
  | halfDown
  /-- Floor division. -/
  | floor
deriving DecidableEq, Repr

/-- Whether the host's stores become visible to the engine in order and at once (R62, R63, R66: the platform's).
DESIGN CHOICE (log entry 13). -/
inductive Platform where
  /-- A host store is complete when its statement is, and the host's loads see memory. -/
  | ordered
  /-- A host store waits in a buffer until it drains or the host orders it; loads of an engine-written
  buffer are stale until the host invalidates it. -/
  | weak
deriving DecidableEq, Repr

/-- Accesses of `width` bytes at the addresses `first` to `last` get a bus error. A list of these says
`mem_ok` (R5) for any predicate on the finite address space. -/
structure FailRange where
  first : Nat
  last  : Nat
  width : Nat
deriving DecidableEq, Repr

/-- The parameters of R5. `U` and `G` are computed from them. -/
structure Config where
  /-- `VARIANT`. -/
  variant   : Variant
  /-- `G_NARROW`: log2 of the unity gain on `NARROW`. -/
  gNarrow   : Nat
  /-- `BLOCK_N`: samples per block. -/
  blockN    : Nat
  /-- `ROUND_MODE`. -/
  roundMode : RoundMode
  /-- `MIXK_BASE`: bus address of the register window. -/
  base      : Word
  /-- The accesses for which `mem_ok` is false. -/
  failing   : List FailRange
  /-- How the host's own memory accesses are ordered. -/
  platform  : Platform
deriving DecidableEq, Repr

/-- `G`, log2 of the unity gain: 16 on `WIDE`, `G_NARROW` on `NARROW` (R5). -/
def Config.gainBits (c : Config) : Nat :=
  match c.variant with
  | .wide => 16
  | .narrow => c.gNarrow

/-- `U = 2^G`, the coefficient that means 1.0 (R5). -/
def Config.unity (c : Config) : Int := 2 ^ c.gainBits

/-- `mem_ok(addr, n)`: the platform answers an `n`-byte access at `addr` without a bus error (R5). -/
def Config.memOk (c : Config) (addr n : Nat) : Bool :=
  c.failing.all fun r => !(r.width == n && decide (r.first ≤ addr) && decide (addr ≤ r.last))

/-- The configuration `State.reset` is built with: the defaults of R5, and a choice where R5 says OPEN
(`WIDE`, `MIXK_BASE = 0x4000_0000`, no failing access). DESIGN CHOICE (log entry 1). -/
def Config.default : Config where
  variant   := .wide
  gNarrow   := 8
  blockN    := 128
  roundMode := .halfDown
  base      := 0x40000000#32
  failing   := []
  platform  := .ordered

/-- FREE VALUE. What the byte at `addr` holds before anything the model knows of has written it (R39, D32, I18:
a draw from the memory oracle, never zero). Log entry 2. -/
opaque Config.unwrittenByte (addr : Nat) : Byte

/-- FREE VALUE. The byte at `addr` of a range whose contents the spec declares unknown (after `E_BUS`, R156; after
a reset in `RUN`, R181; a stale host load, R66), for the `draw`-th such event. Log entry 3. -/
opaque Config.freeByte (draw addr : Nat) : Byte

/-- FREE VALUE. Whether the `draw`-th host load that races with a block command gets the final value (and not the
value at acceptance) of the element at `element`, under the `depth`-th command whose `DONE` the host has not read
(R185: the choice is free per element). Log entry 4. -/
opaque Config.raceTakesFinal (draw depth element : Nat) : Bool

end Sys2Proof
end

