-- ==== Sys2Proof/Syntax.lean ====
section
/-!
DEFINITION. The commands of the block, one constructor for each row of spec/opcode_table.json (R71).
No command has an immediate: its operands come from the registers latched when it is accepted (R73).
-/

namespace Sys2Proof

/-- A command, the block's unit of execution (R70, R71). -/
inductive Instr where
  /-- `NOP`: no operation (R130). -/
  | nop
  /-- `CMIX`: ConstantMix over one block in memory (R120). -/
  | cmix
  /-- `XMIX`: CrossfadeMix over one block in memory (R121). -/
  | xmix
  /-- `CMIX1`: ConstantMix of one sample pair (R131). -/
  | cmix1
  /-- `XMIX1`: CrossfadeMix of one sample pair (R132). -/
  | xmix1
  /-- `PCMIX2`: packed ConstantMix of two lanes, `WIDE` only (R141). -/
  | pcmix2
  /-- `PXMIX2`: packed CrossfadeMix of two lanes, `WIDE` only (R142). -/
  | pxmix2
deriving DecidableEq, Repr

end Sys2Proof
end

