-- ==== Sys2Proof/WellFormed.lean ====
section
/-!
DEFINITION. Which configurations a model may take (R5), and which commands a variant has (R71, R145).
-/

namespace Sys2Proof

/-- The legal configurations of R5: `G_NARROW` is 1 to 15; `BLOCK_N` is 1 to 65535, and even on `WIDE`; `MIXK_BASE`
is a multiple of 64. -/
def Config.wf (c : Config) : Bool :=
  decide (1 ≤ c.gNarrow) && decide (c.gNarrow ≤ 15) &&
  decide (1 ≤ c.blockN) && decide (c.blockN ≤ 65535) &&
  (c.variant == .narrow || c.blockN % 2 == 0) &&
  c.base.toNat % 64 == 0

/-- The command exists on the variant: `PCMIX2` and `PXMIX2` are `WIDE` only (R71, R145). -/
def Instr.wf (v : Variant) : Instr → Bool
  | .nop => true
  | .cmix => true
  | .xmix => true
  | .cmix1 => true
  | .xmix1 => true
  | .pcmix2 => v == .wide
  | .pxmix2 => v == .wide

end Sys2Proof
end

