-- ==== Sys2Proof/Decode.lean ====
section
/-!
DEFINITION. The decoder of a command word (R70 to R72), total, with a named reason for each word it rejects, and the
encoder written from the same table (R71).
-/

namespace Sys2Proof

/-- Why a word, or a sequence of bytes, is no command. -/
inductive DecodeError where
  /-- `w[31:4] != 0` (R72). -/
  | reservedBits
  /-- `OP` is 0x7 to 0xF (R72). -/
  | reservedOp
  /-- `PCMIX2` or `PXMIX2` on `NARROW` (R72, R145). -/
  | packedOnNarrow
  /-- Fewer than the four bytes of a command word (R70: there is one length). -/
  | truncated
deriving DecidableEq, Repr

/-- The field `OP`, bits [3:0] of a command word (R70). -/
def opField (w : Word) : Nat := (w.extractLsb' 0 4).toNat

/-- The field `RSVD`, bits [31:4] of a command word (R70). -/
def rsvdField (w : Word) : Nat := (w.extractLsb' 4 28).toNat

/-- The command a word stands for on a variant, or why it is illegal (R72, in the order written there). -/
def decode (v : Variant) (w : Word) : Except DecodeError Instr :=
  if rsvdField w ≠ 0 then .error .reservedBits
  else match opField w with
    | 0x0 => .ok .nop
    | 0x1 => .ok .cmix
    | 0x2 => .ok .xmix
    | 0x3 => .ok .cmix1
    | 0x4 => .ok .xmix1
    | 0x5 => match v with
      | .wide => .ok .pcmix2
      | .narrow => .error .packedOnNarrow
    | 0x6 => match v with
      | .wide => .ok .pxmix2
      | .narrow => .error .packedOnNarrow
    | _ => .error .reservedOp

/-- A 32-bit word from four bytes, the first in bits [7:0] (R52). -/
def wordOfBytes (b0 b1 b2 b3 : Byte) : Word := b3 ++ b2 ++ b1 ++ b0

/-- The command at the head of a sequence of bytes, as the little-endian register port carries it (R52, R70), with
the bytes after it. -/
def decodeBytes (v : Variant) : List Byte → Except DecodeError (Instr × List Byte)
  | b0 :: b1 :: b2 :: b3 :: rest =>
    match decode v (wordOfBytes b0 b1 b2 b3) with
    | .ok i => .ok (i, rest)
    | .error e => .error e
  | _ => .error .truncated

/-- The value of `OP` for a command (R71). -/
def opcodeOf : Instr → BitVec 4
  | .nop => 0x0#4
  | .cmix => 0x1#4
  | .xmix => 0x2#4
  | .cmix1 => 0x3#4
  | .xmix1 => 0x4#4
  | .pcmix2 => 0x5#4
  | .pxmix2 => 0x6#4

/-- The command word: `OP` in [3:0], `RSVD` zero (R70, R71). -/
def encode (i : Instr) : Word := 0#28 ++ opcodeOf i

/-- The four bytes of a command word, lowest address first (R52). -/
def encodeBytes (i : Instr) : List Byte :=
  [(encode i).extractLsb' 0 8, (encode i).extractLsb' 8 8, (encode i).extractLsb' 16 8, (encode i).extractLsb' 24 8]

/-- The command this decoder reads from the bits `w` of a row of spec/opcode_table.json (`nbits` of them, the rest
zero), on the variant that has every row: `WIDE`. -/
def decodeTableWord (nbits w : Nat) : Option Instr :=
  let word : Word := BitVec.ofNat 32 (w % 2 ^ nbits)
  let bytes : List Byte :=
    [word.extractLsb' 0 8, word.extractLsb' 8 8, word.extractLsb' 16 8, word.extractLsb' 24 8]
  match decodeBytes .wide bytes with
  | .ok (i, _) => some i
  | .error _ => none

end Sys2Proof
end

