-- ==== Sys2Proof/Machine/HostSyntax.lean ====
section
/-!
DEFINITION. The register names of the window (R20) and the host notation of R74 and R75, as data: what a host program
is made of. Its meaning is in Machine/HostPort.lean and Machine/HostProgram.lean.
-/

namespace Sys2Proof.Machine

/-- The registers of the window, the eleven of R20 and the five reserved offsets of R36. -/
inductive Reg where
  | id | ctrl | status | cmd | dst | src | ctl | opa | opb | opc | res
  /-- The reserved offset `0x2C + 4*k`. -/
  | reserved (k : Fin 5)
deriving DecidableEq, Repr

/-- The widths a host access may have in the notation of R74: `st16`, `ld16` and `st32`, `ld32`, `wr`, `rd`. -/
inductive Width where
  | half
  | word
deriving DecidableEq, Repr

/-- A value the host computes: a literal or a host variable (R74). -/
inductive HostExpr where
  | lit (w : Word)
  | var (x : Nat)
deriving DecidableEq, Repr

/-- A condition on host variables (R74; R75 and P3 use a bit test and a comparison with a literal). The spec gives no
grammar for conditions: DESIGN CHOICE (log entry 12). -/
inductive HostCond where
  /-- `x[i] = b`. -/
  | bit (x : HostExpr) (i : Nat) (b : Bool)
  /-- `x = y`. -/
  | eq (x y : HostExpr)
  /-- `x < y`, unsigned. -/
  | ult (x y : HostExpr)
  | not (c : HostCond)
  | and (c d : HostCond)
deriving DecidableEq, Repr

/-- One statement of a host program (R74), and the two host steps of R63 and R66. -/
inductive HostStmt where
  /-- `wr REG, v`. -/
  | wr (r : Reg) (v : HostExpr)
  /-- `rd REG -> t`. -/
  | rd (r : Reg) (t : Nat)
  /-- `st16 addr, v` and `st32 addr, v`. -/
  | st (w : Width) (addr v : HostExpr)
  /-- `ld16 addr -> t` and `ld32 addr -> t`. -/
  | ld (w : Width) (addr : HostExpr) (t : Nat)
  /-- `nop`, `cmix`, `xmix`, …: `wr CMD, w` with the word of R71. -/
  | command (i : Instr)
  /-- `L:`. -/
  | label (l : Nat)
  /-- `if cond goto L`. -/
  | ifGoto (c : HostCond) (l : Nat)
  /-- `goto L`. -/
  | goto (l : Nat)
  /-- `halt`: the host program ends. -/
  | halt
  /-- The host's barrier (R63) and cache clean (R66): its earlier stores complete before what follows. -/
  | barrier
  /-- The host's cache invalidate after `DONE` (R66). -/
  | invalidate
deriving DecidableEq, Repr

end Sys2Proof.Machine
end

