-- ==== Sys2Proof/Machine/State.lean ====
section
/-!
DEFINITION. The state of the block and of what surrounds it, as plain data: the registers (R20), the hidden state
(R37), system memory (R50), the host that drives the block (R7, R74), and the inputs that say who moves next (R160).
-/

namespace Sys2Proof.Machine

/-- The error codes of R151 that a command reports. -/
inductive CmdError where
  /-- `E_ILLEGAL`, code 1. -/
  | illegal
  /-- `E_ALIGN`, code 2. -/
  | align
  /-- `E_RANGE`, code 3. -/
  | range
  /-- `E_OVERLAP`, code 4. -/
  | overlap
  /-- `E_BUS`, code 5. -/
  | bus
deriving DecidableEq, Repr

/-- The fields of `STATUS` (R23 to R27). `ERR` and `ERRCODE` are one field: `ERRCODE` holds a code 1 to 5 when
`ERR = 1` and reads 0 when `ERR = 0` (R27). The reserved bits read as zero and hold nothing. -/
structure Status where
  /-- `BUSY`, which is also the engine's phase: `RUN` when true, `IDLE` when false (R150). -/
  busy : Bool
  /-- `DONE`. -/
  done : Bool
  /-- `ERR` and `ERRCODE`. -/
  err  : Option CmdError
  /-- `OVR`. -/
  ovr  : Bool
deriving DecidableEq, Repr

/-- `LATCH`, the copies the engine takes when a command is accepted (R37, R161). -/
structure Latch where
  cmd : Word
  dst : Word
  src : Word
  ctl : Word
  opa : Word
  opb : Word
  opc : Word
deriving DecidableEq, Repr

/-- The two operations over a block: ConstantMix (`CMIX`) and CrossfadeMix (`XMIX`). -/
inductive BlockKind where
  | constant
  | crossfade
deriving DecidableEq, Repr

/-- System memory (R50): the bytes that something has written, by strictly rising address. An address that is not
listed holds the platform's unknown byte (`Config.unwrittenByte`). -/
abbrev Memory := List Host.Cell

/-- The operands of one element, each read by its own access (R58, R120, R121). -/
inductive Operand where
  /-- The element of `dst_range`. -/
  | input0
  /-- The element of `src_range`. -/
  | input1
  /-- The element of `ctl_range`, which `XMIX` alone reads. -/
  | control
deriving DecidableEq, Repr

/-- One access of the engine to an element (R57, R58): it reads one operand, or writes the result. -/
inductive Access where
  | read (o : Operand)
  | write
deriving DecidableEq, Repr

/-- The operands the running block command has read, by element (R58): each list has strictly rising element numbers. -/
structure Fetched where
  input0  : List (Nat × Word)
  input1  : List (Nat × Word)
  control : List (Nat × Word)
deriving DecidableEq, Repr

/-- The byte addresses `first` to `last`. -/
structure AddrRange where
  first : Nat
  last  : Nat
deriving DecidableEq, Repr

/-- The bytes that the running command's reads see as any value, because a host store to them had not completed at its
acceptance (R62, R63, I21), and the number of the first of the draws that give those values. MODEL FIELD (log entry
13). -/
structure Unseen where
  ranges : List AddrRange
  draw   : Nat
deriving DecidableEq, Repr

/-- A block command from its acceptance until the host reads `DONE = 1` (R185): the hazard window of its buffers, with
memory as it was at acceptance, and whether every host store to its buffers had completed then (R62).
MODEL FIELD (log entry 4). -/
structure Window where
  kind    : BlockKind
  latch   : Latch
  before  : Memory
  ordered : Bool
deriving DecidableEq, Repr

/-- A host store that has not completed (R62; only on a `weak` platform). -/
structure PendingStore where
  addr  : Nat
  width : Width
  value : Word
deriving DecidableEq, Repr

/-- The host (R7): its program in the notation of R74, where it stands, its variables (by strictly rising number), and
on a `weak` platform its uncompleted stores (oldest first) and the ranges it has not invalidated. -/
structure HostAgent where
  prog    : List HostStmt
  pc      : Nat
  vars    : List (Nat × Word)
  pending : List PendingStore
  stale   : List AddrRange
deriving DecidableEq, Repr

/-- Who moves in one step (R7, R58, R160, R180). -/
inductive Turn where
  /-- The host executes its next statement. -/
  | host
  /-- The engine performs one access to element `j` of the running block command, and no more. -/
  | access (a : Access) (j : Nat)
  /-- The engine runs the command in flight to its completion. -/
  | engine
  /-- The host's oldest uncompleted store completes. -/
  | drain
  /-- Reset is asserted. -/
  | reset
deriving DecidableEq, Repr

/-- The whole state. Every register has one home here; `ID` (R21) and `irq` (R159) are functions of it. -/
structure State where
  /-- The build parameters (R5). No step changes them. -/
  cfg      : Config
  /-- `CTRL.IE` (R22), the one bit of `CTRL` that is stored. -/
  ie       : Bool
  /-- `STATUS` (R23 to R27), with the engine's phase (R150). -/
  status   : Status
  /-- `CMD` as read: the last accepted command word (R28). -/
  cmd      : Word
  /-- `DST` (R29). -/
  dst      : Word
  /-- `SRC` (R30). -/
  src      : Word
  /-- `CTL` (R31). -/
  ctl      : Word
  /-- `OPA` (R32). -/
  opa      : Word
  /-- `OPB` (R33). -/
  opb      : Word
  /-- `OPC` (R34). -/
  opc      : Word
  /-- `RES` (R35). -/
  res      : Word
  /-- `LATCH` (R37). -/
  latch    : Latch
  /-- `PROGRESS` (R37): the elements the running block command has written, strictly rising. -/
  progress : List Nat
  /-- The operands the running block command has read (R58): what is between an element's reads and its write. -/
  fetched  : Fetched
  /-- What the running command's reads do not see (R62). MODEL FIELD (log entry 13). -/
  unseen   : Unseen
  /-- System memory (R50). -/
  mem      : Memory
  /-- The block commands whose `DONE` the host has not read, newest first (R185). MODEL FIELD (log entry 4). -/
  windows  : List Window
  /-- The host (R7, R74). -/
  host     : HostAgent
  /-- Who moves next, an input; when it is empty the engine moves in `RUN` and the host in `IDLE`.
  MODEL FIELD (log entry 5). -/
  turns    : List Turn
  /-- The number of free values drawn. MODEL FIELD (log entry 3). -/
  draws    : Nat
deriving DecidableEq, Repr

/-- Why a step stops. Every one is a host program outside its contract or outside the spec; none is raised by a
command. All are SAFE: the model stops where hardware would go on. -/
inductive Fault where
  /-- Raised by a host access that touches the register window and is not an aligned 32-bit word (R56, I17). -/
  | portAccess
  /-- Raised by a host store to a byte of a buffer of a block command whose `DONE` the host has not read
  (R185, I14). -/
  | bufferHazard
  /-- Raised by a host memory access that gets a bus error (`mem_ok` false, R5); what the host does then is the
  platform's. -/
  | hostBusError
  /-- Raised by a host access that passes address 0xFFFF_FFFF (R50). -/
  | addressSpace
  /-- Raised by a host `goto` to a label its program does not have (R74 gives it no meaning). -/
  | undefinedLabel
  /-- Raised by a host expression over a variable the host never set (R74 gives it no value). -/
  | unsetVariable
deriving DecidableEq, Repr

/-- Why a step refuses. -/
inductive Refusal where
  /-- Raised by an arm of `exec` whose instruction has no meaning yet (none here). Safe. -/
  | notModelled (mnemonic : String)
deriving DecidableEq, Repr

/-- The latch after reset: all zero (R37, R180). -/
def Latch.zero : Latch where
  cmd := 0#32
  dst := 0#32
  src := 0#32
  ctl := 0#32
  opa := 0#32
  opb := 0#32
  opc := 0#32

/-- No operand has been read. -/
def Fetched.empty : Fetched where
  input0  := []
  input1  := []
  control := []

/-- Every byte is seen as memory holds it. -/
def Unseen.nothing : Unseen where
  ranges := []
  draw   := 0

/-- `STATUS` after reset: 0 (R180). -/
def Status.zero : Status where
  busy := false
  done := false
  err  := none
  ovr  := false

/-- A host without a program: nothing to run, nothing pending. -/
def HostAgent.idle : HostAgent where
  prog    := []
  pc      := 0
  vars    := []
  pending := []
  stale   := []

/-- The machine right after reset, for the build `c` (R180, R183): every register 0, `LATCH` zero, `PROGRESS` empty, the
engine `IDLE`, nothing listed in memory, no host program. -/
def State.resetOf (c : Config) : State where
  cfg      := c
  ie       := false
  status   := Status.zero
  cmd      := 0#32
  dst      := 0#32
  src      := 0#32
  ctl      := 0#32
  opa      := 0#32
  opb      := 0#32
  opc      := 0#32
  res      := 0#32
  latch    := Latch.zero
  progress := []
  fetched  := Fetched.empty
  unseen   := Unseen.nothing
  mem      := []
  windows  := []
  host     := HostAgent.idle
  turns    := []
  draws    := 0

/-- The machine right after reset, for the default build (log entry 1). -/
def State.reset : State := State.resetOf Config.default

end Sys2Proof.Machine
end

