-- ==== Sys2Proof/Machine/Flags.lean ====
section
/-!
DEFINITION. What the register reads and the `STATUS` fields are computed from: `ID` (R21), `CTRL` (R22), `STATUS`
(R23 to R27), the interrupt output (R159).
-/

namespace Sys2Proof.Machine

/-- The code a command error is reported under (R151). -/
def CmdError.code : CmdError → BitVec 4
  | .illegal => 1#4
  | .align => 2#4
  | .range => 3#4
  | .overlap => 4#4
  | .bus => 5#4

/-- One bit as a bit vector. -/
def bit (b : Bool) : BitVec 1 := BitVec.ofBool b

/-- `STATUS.ERRCODE`: the code when `ERR = 1`, else 0 (R27). -/
def Status.errcode (t : Status) : BitVec 4 :=
  match t.err with
  | some e => e.code
  | none => 0#4

/-- `STATUS` as read: `ERRCODE` in [11:8], `OVR`, `ERR`, `DONE`, `BUSY` in [3:0], the rest zero (R27). -/
def Status.toWord (t : Status) : Word :=
  0#20 ++ t.errcode ++ 0#4 ++ bit t.ovr ++ bit t.err.isSome ++ bit t.done ++ bit t.busy

/-- A host write of `v` to `STATUS`: a 1 in bit 1 clears `DONE`, in bit 2 `ERR` and `ERRCODE`, in bit 3 `OVR`; every
other bit is ignored (R23 to R27). -/
def Status.writeOneToClear (t : Status) (v : Word) : Status where
  busy := t.busy
  done := t.done && !v.getLsbD 1
  err  := if v.getLsbD 2 then none else t.err
  ovr  := t.ovr && !v.getLsbD 3

/-- `STATUS` when a command is accepted (R161); `OVR` stays (R26). -/
def Status.accepted (t : Status) : Status := { t with busy := true, done := false, err := none }

/-- `STATUS` when a command completes without error (R162). -/
def Status.completed (t : Status) : Status := { t with busy := false, done := true }

/-- `STATUS` when a command completes with an error (R157). -/
def Status.failed (t : Status) (e : CmdError) : Status := { t with busy := false, done := true, err := some e }

/-- `STATUS` when the host writes `CMD` while `BUSY = 1` (R158). -/
def Status.overrun (t : Status) : Status := { t with ovr := true }

/-- `ID`: `N` in [31:16], `G` in [15:8], `RND` in [1], `WIDE` in [0] (R21). -/
def idWord (c : Config) : Word :=
  BitVec.ofNat 16 c.blockN ++ BitVec.ofNat 8 c.gainBits ++ 0#6 ++ bit (c.roundMode == .halfDown) ++
    bit (c.variant == .wide)

/-- `CTRL` as read: `IE` in [0], the rest zero (R22). -/
def ctrlWord (ie : Bool) : Word := 0#31 ++ bit ie

/-- The interrupt output (R159). -/
def State.irq (s : State) : Bool := s.ie && s.status.done

end Sys2Proof.Machine
end

