-- ==== Sys2Proof/Machine/Assoc.lean ====
section
/-!
DEFINITION. Sparse data by number: a list of pairs by strictly rising key. Memory and the host's variables are kept so.
-/

namespace Sys2Proof.Machine

/-- The value listed under `k`. -/
def Assoc.find? {α : Type} : List (Nat × α) → Nat → Option α
  | [], _ => none
  | (j, v) :: rest, k => if j = k then some v else Assoc.find? rest k

/-- The list with `v` under `k`, in its place. -/
def Assoc.put {α : Type} : List (Nat × α) → Nat → α → List (Nat × α)
  | [], k, v => [(k, v)]
  | (j, w) :: rest, k, v =>
    if k < j then (k, v) :: (j, w) :: rest
    else if k = j then (k, v) :: rest
    else (j, w) :: Assoc.put rest k v

/-- The keys are strictly rising, at least `low` and below `high`. -/
def Assoc.rising {α : Type} (high : Nat) : Nat → List (Nat × α) → Bool
  | _, [] => true
  | low, (j, _) :: rest => decide (low ≤ j) && decide (j < high) && Assoc.rising high (j + 1) rest

/-- A set of numbers as a strictly rising list: `k` put in its place. -/
def Assoc.insert : List Nat → Nat → List Nat
  | [], k => [k]
  | j :: rest, k =>
    if k < j then k :: j :: rest
    else if k = j then j :: rest
    else j :: Assoc.insert rest k

/-- The numbers are strictly rising, at least `low` and below `high`. -/
def Assoc.risingSet (high : Nat) : Nat → List Nat → Bool
  | _, [] => true
  | low, j :: rest => decide (low ≤ j) && decide (j < high) && Assoc.risingSet high (j + 1) rest

end Sys2Proof.Machine
end

