-- ==== Sys2Proof/Machine/Memory.lean ====
section
/-!
DEFINITION. System memory: little-endian reads and writes of 2 and 4 bytes built from single bytes (R13, R52).
-/

namespace Sys2Proof.Machine

/-- The canonical form: addresses strictly rising, all inside the address space. An unlisted address has no value of
the model's, so no entry repeats one (log entry 2). -/
def Memory.wf (m : Memory) : Bool := Assoc.rising addressSpace 0 m

/-- The byte at `addr`: the one written last, or the platform's unknown byte (R39, I18). -/
def Memory.byte (m : Memory) (addr : Nat) : Byte :=
  (Assoc.find? m addr).getD (Config.unwrittenByte addr)

/-- Memory with the byte `v` at `addr`. -/
def Memory.put (m : Memory) (addr : Nat) (v : Byte) : Memory := Assoc.put m addr v

/-- `MemRead(addr, 2)`: the byte at `addr` in bits [7:0] (R13, R52). -/
def Memory.read16 (m : Memory) (addr : Nat) : Half := m.byte (addr + 1) ++ m.byte addr

/-- `MemRead(addr, 4)`: the byte at `addr` in bits [7:0] (R13, R52). -/
def Memory.read32 (m : Memory) (addr : Nat) : Word :=
  m.byte (addr + 3) ++ m.byte (addr + 2) ++ m.byte (addr + 1) ++ m.byte addr

/-- `MemWrite(addr, 2, v)` (R13, R52). -/
def Memory.write16 (m : Memory) (addr : Nat) (v : Half) : Memory :=
  (m.put addr (v.extractLsb' 0 8)).put (addr + 1) (v.extractLsb' 8 8)

/-- `MemWrite(addr, 4, v)` (R13, R52). -/
def Memory.write32 (m : Memory) (addr : Nat) (v : Word) : Memory :=
  (((m.put addr (v.extractLsb' 0 8)).put (addr + 1) (v.extractLsb' 8 8)).put
    (addr + 2) (v.extractLsb' 16 8)).put (addr + 3) (v.extractLsb' 24 8)

/-- Memory with the `n` bytes from `base` on unknown: each holds the free byte of the `draw`-th draw (R156, R181). -/
def Memory.forget (m : Memory) (draw base : Nat) : Nat → Memory
  | 0 => m
  | n + 1 => (m.forget draw base n).put (base + n) (Config.freeByte draw (base + n))

end Sys2Proof.Machine
end

