-- ==== Sys2Proof/Machine/Numeric.lean ====
section
/-!
DEFINITION. The numeric core (R100 to R108), on unbounded integers: no step wraps (R10, R100, R104).
-/

namespace Sys2Proof.Machine

/-- Saturation to the signed 16-bit range (R101). -/
def sat16 (x : Int) : Int := max (-32768) (min 32767 x)

/-- The scaling right shift by `G` (R102): `>>` is floor division by `2^G` (R10), and the divisor is positive, so
Lean's `/` on integers is that division. -/
def rshift (c : Config) (p : Int) : Int :=
  match c.roundMode with
  | .halfDown => (p + 2 ^ (c.gainBits - 1) - 1) / 2 ^ c.gainBits
  | .floor => p / 2 ^ c.gainBits

/-- The scaled partial result of a sample `x` and a multiplier `m` (R103). -/
def scale (c : Config) (x m : Int) : Int := sat16 (rshift c (x * m))

/-- The saturating sum of two partial results (R105). -/
def sadd16 (p q : Int) : Int := sat16 (p + q)

/-- The mix of one sample position under the coefficient `k`, which is neither clamped nor rescaled (R106, R107). -/
def mix (c : Config) (a b k : Int) : Int := sadd16 (scale c a (c.unity - k)) (scale c b k)

/-- ConstantMix: the mix under the coefficient `U/2` (R108). -/
def cmix (c : Config) (a b : Int) : Int := mix c a b (2 ^ (c.gainBits - 1))

end Sys2Proof.Machine
end

