-- ==== Sys2Proof/Machine/Operands.lean ====
section
/-!
DEFINITION. The operand forms: a sample in the low half of a register (R73), the lanes of a packed word (R140), the
elements of a buffer in memory (R51, R53 to R55, R58).
-/

namespace Sys2Proof.Machine

/-- `sext_16(v)` (R11). -/
def sext16 (v : Half) : Int := v.toInt

/-- `trunc_16(x)` (R11). -/
def trunc16 (x : Int) : Half := BitVec.ofInt 16 x

/-- `sext_32_of(x)` (R11). -/
def sext32Of (x : Int) : Word := BitVec.ofInt 32 x

/-- `sext_16(w[15:0])`, the sample operand of `CMIX1` and `XMIX1`: bits [31:16] are ignored (R73). -/
def lowSample (w : Word) : Int := sext16 (w.extractLsb' 0 16)

/-- `lane_0(w)` (R140). -/
def lane0 (w : Word) : Int := sext16 (w.extractLsb' 0 16)

/-- `lane_1(w)` (R140). -/
def lane1 (w : Word) : Int := sext16 (w.extractLsb' 16 16)

/-- `pack2(r1, r0)`, with `r1` in bits [31:16] (R140). -/
def pack2 (r1 r0 : Int) : Word := trunc16 r1 ++ trunc16 r0

/-- The block operation a command performs, if it is a block command (R120, R121). -/
def blockKindOf : Instr → Option BlockKind
  | .cmix => some .constant
  | .xmix => some .crossfade
  | .nop => none
  | .cmix1 => none
  | .xmix1 => none
  | .pcmix2 => none
  | .pxmix2 => none

/-- `A`, the bytes of one element: a sample on `NARROW`, a word of two samples on `WIDE` (R54, R55). -/
def elementBytes (c : Config) : Nat :=
  match c.variant with
  | .narrow => 2
  | .wide => 4

/-- `E`, the elements of a block (R58). -/
def elementCount (c : Config) : Nat :=
  match c.variant with
  | .narrow => c.blockN
  | .wide => c.blockN / 2

/-- `L`, the bytes of a buffer (R51, R151). -/
def blockBytes (c : Config) : Nat := 2 * c.blockN

/-- The address of element `j` of the buffer at `base` (R55, R58). -/
def elementAddr (c : Config) (base : Word) (j : Nat) : Nat := base.toNat + elementBytes c * j

/-- The address lies in the buffer at `base` (R51). -/
def inBuffer (c : Config) (base : Word) (addr : Nat) : Bool :=
  decide (base.toNat ≤ addr) && decide (addr < base.toNat + blockBytes c)

/-- The `n` bytes from `addr` on meet the buffer at `base`. -/
def meetsBuffer (c : Config) (base : Word) (addr n : Nat) : Bool :=
  decide (base.toNat < addr + n) && decide (addr < base.toNat + blockBytes c)

/-- One sample of a block command: `cmix(a, b)` or `mix(a, b, k)` (R120, R121). -/
def mixSample (c : Config) (kind : BlockKind) (a b k : Int) : Int :=
  match kind with
  | .constant => cmix c a b
  | .crossfade => mix c a b k

/-- The element of a block command on `NARROW`, from its halfwords (R120, R121). -/
def mixHalf (c : Config) (kind : BlockKind) (a b k : Half) : Half :=
  trunc16 (mixSample c kind (sext16 a) (sext16 b) (sext16 k))

/-- The element of a block command on `WIDE`, from its words, lane by lane (R143, R144). -/
def mixWord (c : Config) (kind : BlockKind) (wa wb wk : Word) : Word :=
  pack2 (mixSample c kind (lane1 wa) (lane1 wb) (lane1 wk)) (mixSample c kind (lane0 wa) (lane0 wb) (lane0 wk))

/-- The buffer an operand is read from (R51, R120, R121). -/
def Latch.baseOf (l : Latch) : Operand → Word
  | .input0 => l.dst
  | .input1 => l.src
  | .control => l.ctl

/-- The block command reads the operand: `CMIX` reads no control buffer (R120). -/
def usesOperand (kind : BlockKind) (o : Operand) : Bool :=
  match o, kind with
  | .input0, _ => true
  | .input1, _ => true
  | .control, .crossfade => true
  | .control, .constant => false

/-- The operands read so far of one kind. -/
def Fetched.of (f : Fetched) : Operand → List (Nat × Word)
  | .input0 => f.input0
  | .input1 => f.input1
  | .control => f.control

/-- The operand `o` of element `j` has been read as `v`. -/
def Fetched.put (f : Fetched) (o : Operand) (j : Nat) (v : Word) : Fetched :=
  match o with
  | .input0 => { f with input0 := Assoc.put f.input0 j v }
  | .input1 => { f with input1 := Assoc.put f.input1 j v }
  | .control => { f with control := Assoc.put f.control j v }

/-- The number of an operand among the draws of one command: each read of an unseen byte has a value of its own. -/
def Operand.index : Operand → Nat
  | .input0 => 0
  | .input1 => 1
  | .control => 2

/-- The byte at `addr` that the engine's read of an operand gets: memory's, or any value where a host store to it had
not completed at acceptance (R62, R63, I21), whether or not that store has completed since. -/
def engineByte (m : Memory) (u : Unseen) (o : Operand) (addr : Nat) : Byte :=
  if u.ranges.any fun r => decide (r.first ≤ addr) && decide (addr ≤ r.last) then
    Config.freeByte (u.draw + o.index) addr
  else m.byte addr

/-- What the engine's access reads as the operand `o` of element `j`: a halfword in the low half on `NARROW`, a word on
`WIDE` (R54, R58). -/
def readElement (c : Config) (l : Latch) (u : Unseen) (m : Memory) (o : Operand) (j : Nat) : Word :=
  match c.variant with
  | .narrow =>
    0#16 ++ engineByte m u o (elementAddr c (l.baseOf o) j + 1) ++ engineByte m u o (elementAddr c (l.baseOf o) j)
  | .wide =>
    engineByte m u o (elementAddr c (l.baseOf o) j + 3) ++ engineByte m u o (elementAddr c (l.baseOf o) j + 2) ++
      engineByte m u o (elementAddr c (l.baseOf o) j + 1) ++ engineByte m u o (elementAddr c (l.baseOf o) j)

/-- The result of an element from its operands (R120, R121, R143). -/
def mixElement (c : Config) (kind : BlockKind) (a b k : Word) : Word :=
  match c.variant with
  | .narrow => 0#16 ++ mixHalf c kind (a.extractLsb' 0 16) (b.extractLsb' 0 16) (k.extractLsb' 0 16)
  | .wide => mixWord c kind a b k

/-- The engine's write of the result `v` of element `j` to the destination (R54, R58). -/
def writeElement (c : Config) (l : Latch) (m : Memory) (j : Nat) (v : Word) : Memory :=
  match c.variant with
  | .narrow => m.write16 (elementAddr c l.dst j) (v.extractLsb' 0 16)
  | .wide => m.write32 (elementAddr c l.dst j) v

/-- The engine's access to the operand `o` of element `j` answers without a bus error (R5, R156). -/
def operandOk (c : Config) (l : Latch) (o : Operand) (j : Nat) : Bool :=
  c.memOk (elementAddr c (l.baseOf o) j) (elementBytes c)

/-- The engine's reads and its write of element `j` all answer without a bus error (R58, R156). `CMIX` does not
access the control buffer. -/
def elementOk (c : Config) (kind : BlockKind) (l : Latch) (j : Nat) : Bool :=
  operandOk c l .input1 j && operandOk c l .input0 j &&
  match kind with
  | .constant => true
  | .crossfade => operandOk c l .control j

/-- The operand `o` of element `j`: what has been read, or what the engine reads now. -/
def operandOf (c : Config) (l : Latch) (u : Unseen) (f : Fetched) (m : Memory) (o : Operand) (j : Nat) : Word :=
  (Assoc.find? (f.of o) j).getD (readElement c l u m o j)

/-- Memory after what is left of element `j`: the operands not yet read are read, and the result is written (R58, R120,
R121, R143). -/
def finishElement (c : Config) (kind : BlockKind) (l : Latch) (u : Unseen) (f : Fetched) (m : Memory) (j : Nat) :
    Memory :=
  writeElement c l m j
    (mixElement c kind (operandOf c l u f m .input0 j) (operandOf c l u f m .input1 j) (operandOf c l u f m .control j))

/-- Memory after the whole of element `j`, all of whose operands memory gives. -/
def elementStep (c : Config) (kind : BlockKind) (l : Latch) (m : Memory) (j : Nat) : Memory :=
  finishElement c kind l Unseen.nothing Fetched.empty m j

/-- Memory after the elements `js`, or none where one of their accesses gets a bus error (R58, R156). -/
def runElements (c : Config) (kind : BlockKind) (l : Latch) (u : Unseen) (f : Fetched) :
    List Nat → Memory → Option Memory
  | [], m => some m
  | j :: js, m =>
    if elementOk c kind l j then runElements c kind l u f js (finishElement c kind l u f m j) else none

end Sys2Proof.Machine
end

