-- ==== Sys2Proof/Machine/Ops.lean ====
section
/-!
DEFINITION. The shared operations of the engine: the start checks (R151), acceptance (R161), completion with an error
(R157, the block's one exception) and without (R162), the bus error (R156), reset (R180, R181).
-/

namespace Sys2Proof.Machine

/-- The bases a block command checks (R151). -/
def checkedBases (kind : BlockKind) (l : Latch) : List Word :=
  match kind with
  | .constant => [l.dst, l.src]
  | .crossfade => [l.dst, l.src, l.ctl]

/-- `ovl(x, y)`: the buffers at `x` and `y` share a byte (R151, R155). -/
def overlaps (c : Config) (x y : Word) : Bool :=
  decide (x.toNat ≤ y.toNat + blockBytes c - 1) && decide (y.toNat ≤ x.toNat + blockBytes c - 1)

/-- A base is null or its range passes 0xFFFF_FFFF (R154, R67). -/
def outOfRange (c : Config) (b : Word) : Bool :=
  b.toNat == 0 || decide (b.toNat + blockBytes c - 1 > 0xFFFFFFFF)

/-- The checks of a block command, in the order that is their priority (R151, R153 to R155). -/
def blockChecks (c : Config) (kind : BlockKind) (l : Latch) : Option CmdError :=
  if (checkedBases kind l).any fun b => b.toNat % elementBytes c != 0 then some .align
  else if (checkedBases kind l).any (outOfRange c) then some .range
  else if overlaps c l.dst l.src || (kind == .crossfade && overlaps c l.dst l.ctl) then some .overlap
  else none

/-- `start_checks()` on the latched values (R151). -/
def startChecks (c : Config) (l : Latch) : Option CmdError :=
  match decode c.variant l.cmd with
  | .error _ => some .illegal
  | .ok i =>
    match blockKindOf i with
    | none => none
    | some kind => blockChecks c kind l

/-- `raise CmdError(e)`: the command completes at once with the error; only `STATUS` changes (R14, R157). -/
def State.raise (s : State) (e : CmdError) : State := { s with status := s.status.failed e }

/-- Completion without error of a command that writes no `RES` (R162). -/
def State.complete (s : State) : State := { s with status := s.status.completed }

/-- Completion without error of a command that writes `RES` (R35, R162). -/
def State.completeWith (s : State) (r : Word) : State := { s with res := r, status := s.status.completed }

/-- `E_BUS`: the engine makes no further access and the command completes with the error; every byte of the
destination buffer is unknown (R156, I12; log entry 6). -/
def State.busError (s : State) : State :=
  State.raise
    { s with
      mem := s.mem.forget s.draws s.latch.dst.toNat (blockBytes s.cfg)
      fetched := Fetched.empty
      draws := s.draws + 1 } .bus

/-- The copies taken when the word `w` is accepted (R37, R161). -/
def State.latchOf (s : State) (w : Word) : Latch where
  cmd := w
  dst := s.dst
  src := s.src
  ctl := s.ctl
  opa := s.opa
  opb := s.opb
  opc := s.opc

/-- The bytes of a host access: 2 for `st16`, `ld16`, 4 for `st32`, `ld32`, `wr`, `rd` (R13, R74). -/
def Width.bytes : Width → Nat
  | .half => 2
  | .word => 4

/-- The `n` bytes from `addr` on meet a buffer of the command: destination, source, or for `XMIX` control (R51). -/
def meetsBuffers (c : Config) (kind : BlockKind) (l : Latch) (addr n : Nat) : Bool :=
  meetsBuffer c l.dst addr n || meetsBuffer c l.src addr n ||
  match kind with
  | .constant => false
  | .crossfade => meetsBuffer c l.ctl addr n

/-- The uncompleted host stores that meet a buffer of the block command that accepting `w` starts (R62, I21). A command that
fails its checks starts none and has none: it wrote nothing (R157), and whether its value at acceptance includes a host
store still outstanding R185 leaves open; a host load gets what memory holds. DESIGN CHOICE (log entry 4). -/
def State.strayStores (s : State) (w : Word) : List PendingStore :=
  match startChecks s.cfg (s.latchOf w), decode s.cfg.variant w with
  | none, .ok i =>
    match blockKindOf i with
    | none => []
    | some kind => s.host.pending.filter fun p => meetsBuffers s.cfg kind (s.latchOf w) p.addr p.width.bytes
  | none, .error _ => []
  | some _, _ => []

/-- Accepting `w` starts a block command that a host store to one of its buffers has not completed before (R62). -/
def State.unordered (s : State) (w : Word) : Bool := !(s.strayStores w).isEmpty

/-- The bytes of a host store. -/
def PendingStore.range (p : PendingStore) : AddrRange where
  first := p.addr
  last  := p.addr + p.width.bytes - 1

/-- What the reads of the command that accepting `w` starts do not see: the bytes that host stores have not reached
(R62, R63, I21; log entry 13). -/
def State.unseenBy (s : State) (w : Word) : Unseen :=
  if s.unordered w then { ranges := (s.strayStores w).map PendingStore.range, draw := s.draws } else Unseen.nothing

/-- The hazard window of a block command opens with its acceptance (R185); a register command opens none.
`ordered` says that every host store to its buffers has completed. -/
def openWindow (c : Config) (l : Latch) (ordered : Bool) (m : Memory) (ws : List Window) : List Window :=
  match decode c.variant l.cmd with
  | .error _ => ws
  | .ok i =>
    match blockKindOf i with
    | none => ws
    | some kind => { kind := kind, latch := l, before := m, ordered := ordered } :: ws

/-- Acceptance of the word `w`, less its start checks (R161). -/
def State.latchCommand (s : State) (w : Word) : State :=
  { s with
    latch := s.latchOf w
    cmd := w
    status := s.status.accepted
    progress := []
    fetched := Fetched.empty
    unseen := s.unseenBy w
    windows := openWindow s.cfg (s.latchOf w) (!s.unordered w) s.mem s.windows
    draws := s.draws + 3 * (s.strayStores w).length }

/-- Acceptance of the word `w` (R161): the latches, then the start checks, which complete the command if one
fails. -/
def State.accept (s : State) (w : Word) : State :=
  match startChecks s.cfg (s.latchOf w) with
  | some e => (s.latchCommand w).raise e
  | none => s.latchCommand w

/-- The block command the engine is running, if it is running one: in `RUN`, with a latched word that decodes to a
block command and passes its checks (R150, R151). -/
def State.blockInFlight (s : State) : Option BlockKind :=
  if s.status.busy then
    match decode s.cfg.variant s.latch.cmd with
    | .error _ => none
    | .ok i =>
      match blockKindOf i with
      | none => none
      | some kind => if (blockChecks s.cfg kind s.latch).isNone then some kind else none
  else none

/-- The elements the running block command has not written (R37, R58). -/
def State.remaining (s : State) : List Nat :=
  (List.range (elementCount s.cfg)).filter fun j => !s.progress.contains j

/-- A block command from its start checks to its completion (R120, R121, R143, R156, R162): every element that is not
in `PROGRESS` is mixed, from the operands already read and those left to read. The order of the elements shows nowhere
(R58, R122; log entry 7). -/
def State.runBlock (s : State) (kind : BlockKind) : State :=
  match blockChecks s.cfg kind s.latch with
  | some e => s.raise e
  | none =>
    match runElements s.cfg kind s.latch s.unseen s.fetched s.remaining s.mem with
    | none => s.busError
    | some m =>
      State.complete { s with mem := m, progress := List.range (elementCount s.cfg), fetched := Fetched.empty }

/-- The engine's read of the operand `o` of element `j` (R57, R58): once, and only if the command uses it. -/
def State.readOperand (s : State) (kind : BlockKind) (o : Operand) (j : Nat) : State :=
  if usesOperand kind o && (Assoc.find? (s.fetched.of o) j).isNone then
    if operandOk s.cfg s.latch o j then
      { s with fetched := s.fetched.put o j (readElement s.cfg s.latch s.unseen s.mem o j) }
    else s.busError
  else s

/-- Every operand that element `j` needs has been read (R58: the reads of an element precede its write). -/
def State.operandsRead (s : State) (kind : BlockKind) (j : Nat) : Bool :=
  [Operand.input0, Operand.input1, Operand.control].all fun o =>
    !usesOperand kind o || (Assoc.find? (s.fetched.of o) j).isSome

/-- The engine's write of the result of element `j` (R57, R58): once, and only after its reads. -/
def State.writeResult (s : State) (kind : BlockKind) (j : Nat) : State :=
  if s.operandsRead kind j then
    if operandOk s.cfg s.latch .input0 j then
      { s with
        mem := finishElement s.cfg kind s.latch s.unseen s.fetched s.mem j
        progress := Assoc.insert s.progress j }
    else s.busError
  else s

/-- One access of the running block command to element `j`, chosen from outside: accesses of different elements come in
any order and interleave, with moves of the host between them (R57, R58). Nothing happens when no block command runs or
the access is not left to do. -/
def State.runAccess (s : State) (a : Access) (j : Nat) : State :=
  match s.blockInFlight with
  | none => s
  | some kind =>
    if decide (j < elementCount s.cfg) && !s.progress.contains j then
      match a with
      | .read o => s.readOperand kind o j
      | .write => s.writeResult kind j
    else s

/-- On a `weak` platform, the destination ranges of the windows that close become stale for the host: at the read of
`DONE = 1` (R66), and at a reset, of which R66 says nothing. The range of a command that failed its start checks, where
the engine wrote nothing (R157), becomes stale like the others. DESIGN CHOICE (log entry 13). -/
def staleAfter (c : Config) (ws : List Window) (old : List AddrRange) : List AddrRange :=
  match c.platform with
  | .ordered => old
  | .weak => ws.map (fun w => { first := w.latch.dst.toNat, last := w.latch.dst.toNat + blockBytes c - 1 }) ++ old

/-- The hazard windows close: the host has read `DONE = 1` (R185), or the block is reset (log entry 20). Either makes
their destination ranges stale on a `weak` platform, those of commands that failed their start checks too. DESIGN CHOICE
(log entry 13). -/
def State.closeWindows (s : State) : State :=
  { s with windows := [], host := { s.host with stale := staleAfter s.cfg s.windows s.host.stale } }

/-- What reset leaves unknown: the destination buffer of a block command in `RUN` (R181; log entry 8). -/
def State.abandon (s : State) : State :=
  match s.blockInFlight with
  | none => s
  | some _ => { s with mem := s.mem.forget s.draws s.latch.dst.toNat (blockBytes s.cfg), draws := s.draws + 1 }

/-- Reset is asserted (R180 to R183): the registers, `LATCH` and `PROGRESS` take their reset values; memory keeps its
contents but for the buffer of an abandoned command; the host goes on. The hazard windows close (log entry 20), and on a
`weak` platform their destination ranges become stale for the host. DESIGN CHOICE (log entry 13). -/
def State.assertReset (s : State) : State :=
  { s.abandon.closeWindows with
    ie := false
    status := Status.zero
    cmd := 0#32
    dst := 0#32
    src := 0#32
    ctl := 0#32
    opa := 0#32
    opb := 0#32
    opc := 0#32
    res := 0#32
    latch := Latch.zero
    progress := []
    fetched := Fetched.empty
    unseen := Unseen.nothing }

end Sys2Proof.Machine
end

