-- ==== Sys2Proof/Machine/BlockCommands.lean ====
section
/-!
DEFINITION. The meanings of `CMIX` and `XMIX` (R120, R121): the start checks, every element left to do, completion.
-/

namespace Sys2Proof.Machine

/-- `CMIX` (R120): ConstantMix over the block at `LATCH.DST` and `LATCH.SRC`. -/
def execCmix (s : State) : Host.Outcome State Fault Refusal := .next (s.runBlock .constant)

/-- `XMIX` (R121): CrossfadeMix over the block at `LATCH.DST`, `LATCH.SRC` and `LATCH.CTL`. -/
def execXmix (s : State) : Host.Outcome State Fault Refusal := .next (s.runBlock .crossfade)

end Sys2Proof.Machine
end

