-- ==== Sys2Proof/Machine/PackedCommands.lean ====
section
/-!
DEFINITION. The meanings of `PCMIX2` and `PXMIX2` (R141, R142): two lanes that do not interact (R144); on `NARROW` the
commands do not exist and complete with `E_ILLEGAL` (R145).
-/

namespace Sys2Proof.Machine

/-- A packed command: on `WIDE` it completes with the packed word, on `NARROW` it raises `E_ILLEGAL` (R141, R142). -/
def State.runPacked (s : State) (r : Word) : State :=
  match s.cfg.variant with
  | .wide => s.completeWith r
  | .narrow => s.raise .illegal

/-- `PCMIX2` (R141). -/
def execPcmix2 (s : State) : Host.Outcome State Fault Refusal :=
  .next (s.runPacked
    (pack2 (cmix s.cfg (lane1 s.latch.opa) (lane1 s.latch.opb)) (cmix s.cfg (lane0 s.latch.opa) (lane0 s.latch.opb))))

/-- `PXMIX2` (R142). -/
def execPxmix2 (s : State) : Host.Outcome State Fault Refusal :=
  .next (s.runPacked
    (pack2 (mix s.cfg (lane1 s.latch.opa) (lane1 s.latch.opb) (lane1 s.latch.opc))
      (mix s.cfg (lane0 s.latch.opa) (lane0 s.latch.opb) (lane0 s.latch.opc))))

end Sys2Proof.Machine
end

