-- ==== Sys2Proof/Machine/RegisterCommands.lean ====
section
/-!
DEFINITION. The meanings of `NOP`, `CMIX1` and `XMIX1` (R130 to R132). Their start checks are the decode of R72, which
always passes. They touch no memory.
-/

namespace Sys2Proof.Machine

/-- `NOP` (R130): no operation; it completes, and writes no `RES`. -/
def execNop (s : State) : Host.Outcome State Fault Refusal := .next s.complete

/-- `CMIX1` (R131): `RES <- sext_32_of(cmix(a, b))`. -/
def execCmix1 (s : State) : Host.Outcome State Fault Refusal :=
  .next (s.completeWith (sext32Of (cmix s.cfg (lowSample s.latch.opa) (lowSample s.latch.opb))))

/-- `XMIX1` (R132): `RES <- sext_32_of(mix(a, b, c))`. -/
def execXmix1 (s : State) : Host.Outcome State Fault Refusal :=
  .next (s.completeWith
    (sext32Of (mix s.cfg (lowSample s.latch.opa) (lowSample s.latch.opb) (lowSample s.latch.opc))))

end Sys2Proof.Machine
end

