-- ==== Sys2Proof/Machine/Dispatch.lean ====
section
/-!
DEFINITION. One arm per command: what the engine does with a latched command, to its completion.
-/

namespace Sys2Proof.Machine

def exec (i : Instr) (s : State) : Host.Outcome State Fault Refusal :=
  match i with
  | .nop => Sys2Proof.Machine.execNop s
  | .cmix => Sys2Proof.Machine.execCmix s
  | .xmix => Sys2Proof.Machine.execXmix s
  | .cmix1 => Sys2Proof.Machine.execCmix1 s
  | .xmix1 => Sys2Proof.Machine.execXmix1 s
  | .pcmix2 => Sys2Proof.Machine.execPcmix2 s
  | .pxmix2 => Sys2Proof.Machine.execPxmix2 s

end Sys2Proof.Machine
end

