-- ==== Sys2Proof/Machine/HostPort.lean ====
section
/-!
DEFINITION. What one host access does: on the register port (R20 to R36, R56, R158, R161), and on system memory with the
hazards of the buffers (R62, R63, R66, R185).
-/

namespace Sys2Proof.Machine

/-- The byte offset of a register in the window (R20). -/
def Reg.offset : Reg → Nat
  | .id => 0x00
  | .ctrl => 0x04
  | .status => 0x08
  | .cmd => 0x0C
  | .dst => 0x10
  | .src => 0x14
  | .ctl => 0x18
  | .opa => 0x1C
  | .opb => 0x20
  | .opc => 0x24
  | .res => 0x28
  | .reserved k => 0x2C + 4 * k.val

/-- The register at a byte offset, for the sixteen aligned offsets of the window (R20, R36). -/
def Reg.atOffset : Nat → Option Reg
  | 0x00 => some .id
  | 0x04 => some .ctrl
  | 0x08 => some .status
  | 0x0C => some .cmd
  | 0x10 => some .dst
  | 0x14 => some .src
  | 0x18 => some .ctl
  | 0x1C => some .opa
  | 0x20 => some .opb
  | 0x24 => some .opc
  | 0x28 => some .res
  | 0x2C => some (.reserved 0)
  | 0x30 => some (.reserved 1)
  | 0x34 => some (.reserved 2)
  | 0x38 => some (.reserved 3)
  | 0x3C => some (.reserved 4)
  | _ => none

/-- `REG[r]` as a host read returns it (R12, R20 to R36). -/
def State.readReg (s : State) : Reg → Word
  | .id => idWord s.cfg
  | .ctrl => ctrlWord s.ie
  | .status => s.status.toWord
  | .cmd => s.cmd
  | .dst => s.dst
  | .src => s.src
  | .ctl => s.ctl
  | .opa => s.opa
  | .opb => s.opb
  | .opc => s.opc
  | .res => s.res
  | .reserved _ => 0#32

/-- The state after a host read of a register: no register changes (R59); a read of `STATUS` that returns `DONE = 1`
ends the hazard windows (R185). -/
def State.afterRead (s : State) : Reg → State
  | .id => s
  | .ctrl => s
  | .status => if s.status.done then s.closeWindows else s
  | .cmd => s
  | .dst => s
  | .src => s
  | .ctl => s
  | .opa => s
  | .opb => s
  | .opc => s
  | .res => s
  | .reserved _ => s

/-- A host write of `w` to `CMD`: accepted when `BUSY = 0` (R28, R161), an overrun when `BUSY = 1` (R158). -/
def State.writeCmd (s : State) (w : Word) : Host.Outcome State Fault Refusal :=
  if s.status.busy then .next { s with status := s.status.overrun }
  else .next (s.accept w)

/-- A host write of `v` to a register (R20 to R36). -/
def State.writeReg (s : State) (r : Reg) (v : Word) : Host.Outcome State Fault Refusal :=
  match r with
  | .id => .next s
  | .ctrl => .next { s with ie := v.getLsbD 0 }
  | .status => .next { s with status := s.status.writeOneToClear v }
  | .cmd => s.writeCmd v
  | .dst => .next { s with dst := v }
  | .src => .next { s with src := v }
  | .ctl => .next { s with ctl := v }
  | .opa => .next { s with opa := v }
  | .opb => .next { s with opb := v }
  | .opc => .next { s with opc := v }
  | .res => .next s
  | .reserved _ => .next s

/-- A host access of `n` bytes at `addr` touches the register window (R20, R50). -/
def inWindow (c : Config) (addr n : Nat) : Bool :=
  decide (addr < c.base.toNat + 64) && decide (c.base.toNat < addr + n)

/-- The register a port access reaches: only an aligned 32-bit access reaches one (R56). -/
def portReg (c : Config) (w : Width) (addr : Nat) : Option Reg :=
  if w = .word ∧ addr % 4 = 0 ∧ c.base.toNat ≤ addr then Reg.atOffset (addr - c.base.toNat) else none

/-- A host store to a byte of a buffer whose command's `DONE` the host has not read (R185). -/
def State.hazard (s : State) (addr n : Nat) : Bool :=
  s.windows.any fun w => meetsBuffers s.cfg w.kind w.latch addr n

/-- A store's bytes in memory (R52). -/
def Memory.store (m : Memory) (w : Width) (addr : Nat) (v : Word) : Memory :=
  match w with
  | .half => m.write16 addr (v.extractLsb' 0 16)
  | .word => m.write32 addr v

/-- A host store to system memory: complete at once on an `ordered` platform, buffered on a `weak` one (R62). -/
def State.storeMem (s : State) (w : Width) (addr : Nat) (v : Word) : State :=
  match s.cfg.platform with
  | .ordered => { s with mem := s.mem.store w addr v }
  | .weak => { s with host := { s.host with pending := s.host.pending ++ [{ addr := addr, width := w, value := v }] } }

/-- A host store of `v` at the bus address `addr`. The spec fixes alignment for the engine and the port alone (R55, R56): a
store to system memory at a misaligned address is performed whole. DESIGN CHOICE (log entry 22). -/
def State.busStore (s : State) (w : Width) (addr : Nat) (v : Word) : Host.Outcome State Fault Refusal :=
  if inWindow s.cfg addr w.bytes then
    match portReg s.cfg w addr with
    | some r => s.writeReg r v
    | none => .fault .portAccess
  else if addressSpace < addr + w.bytes then .fault .addressSpace
  else if !s.cfg.memOk addr w.bytes then .fault .hostBusError
  else if s.hazard addr w.bytes then .fault .bufferHazard
  else .next (s.storeMem w addr v)

/-- The final value of the byte at `addr` under the newest command: what the running command will write there, or what
memory holds once it has completed. -/
def finalByte (c : Config) (running : Bool) (w : Window) (m : Memory) (addr : Nat) : Byte :=
  if running then
    Memory.byte (elementStep c w.kind w.latch w.before ((addr - w.latch.dst.toNat) / elementBytes c)) addr
  else m.byte addr

/-- The command of the window passed its start checks. One that failed them wrote nothing (R157). -/
def Window.passed (c : Config) (w : Window) : Bool := (blockChecks c w.kind w.latch).isNone

/-- A host read of the byte at `addr` while the commands of `ws` (newest first) hold their buffers: a byte of a
destination buffer has its value at acceptance or its final value, one free choice per element (R185, I15), or any value
if the command started before the host's stores to its buffers completed (I21); every other byte is memory's. A command
that failed its start checks leaves no choice: its final value is its value at acceptance (R157; log entry 4). So the
elements with a choice lie on one grid, and a load never sees part of an engine write (R57). Where the buffers of several
commands share a byte, the value at acceptance of the newer one, and what its source or control buffer holds, is again
subject to the choice of the older ones, whose values at acceptance a load may so get too. DESIGN CHOICE (log entry 4). -/
def raceByte (c : Config) (running : Bool) (draw : Nat) : List Window → Memory → Nat → Byte
  | [], m, addr => m.byte addr
  | w :: ws, m, addr =>
    if w.passed c && inBuffer c w.latch.dst addr then
      if !w.ordered then Config.freeByte draw addr
      else if Config.raceTakesFinal draw ws.length
          (elementAddr c w.latch.dst ((addr - w.latch.dst.toNat) / elementBytes c))
      then finalByte c running w m addr
      else raceByte c false draw ws w.before addr
    else raceByte c false draw ws m addr

/-- The host's own uncompleted stores, as memory (R62; the newest store to a byte wins). -/
def pendingView (ps : List PendingStore) : Memory :=
  ps.foldl (fun m p => Memory.store m p.width p.addr p.value) []

/-- The byte a host load gets: its own uncompleted store, an unknown byte of a stale range (R66), or the byte of memory
under the race of R185. -/
def State.hostByte (s : State) (addr : Nat) : Byte :=
  match Assoc.find? (pendingView s.host.pending) addr with
  | some b => b
  | none =>
    if s.host.stale.any fun r => decide (r.first ≤ addr) && decide (addr ≤ r.last) then
      Config.freeByte s.draws addr
    else raceByte s.cfg s.blockInFlight.isSome s.draws s.windows s.mem addr

/-- The value of a host load from system memory, zero-extended to a host variable (R52, R74). -/
def State.hostLoad (s : State) (w : Width) (addr : Nat) : Word :=
  match w with
  | .half => 0#16 ++ s.hostByte (addr + 1) ++ s.hostByte addr
  | .word => s.hostByte (addr + 3) ++ s.hostByte (addr + 2) ++ s.hostByte (addr + 1) ++ s.hostByte addr

/-- A host load at the bus address `addr`: the value, and the state after it. A load from system memory at a misaligned
address is performed whole. DESIGN CHOICE (log entry 22). -/
def State.busLoad (s : State) (w : Width) (addr : Nat) : Except Fault (Word × State) :=
  if inWindow s.cfg addr w.bytes then
    match portReg s.cfg w addr with
    | some r => .ok (s.readReg r, s.afterRead r)
    | none => .error .portAccess
  else if addressSpace < addr + w.bytes then .error .addressSpace
  else if !s.cfg.memOk addr w.bytes then .error .hostBusError
  else .ok (s.hostLoad w addr, { s with draws := s.draws + 1 })

end Sys2Proof.Machine
end

