-- ==== Sys2Proof/Machine/HostProgram.lean ====
section
/-!
DEFINITION. The host as an agent (R7): the meaning of each statement of the host notation (R74), the expansions of the
pseudo-instructions (R75), and the host's move.
-/

namespace Sys2Proof.Machine

/-- The value of a host expression; none where it names a variable the host never set. -/
def HostExpr.eval (vars : List (Nat × Word)) : HostExpr → Option Word
  | .lit w => some w
  | .var x => Assoc.find? vars x

/-- The truth of a host condition; none where it names a variable the host never set. -/
def HostCond.eval (vars : List (Nat × Word)) : HostCond → Option Bool
  | .bit x i b =>
    match x.eval vars with
    | some w => some (w.getLsbD i == b)
    | none => none
  | .eq x y =>
    match x.eval vars, y.eval vars with
    | some v, some w => some (v == w)
    | _, _ => none
  | .ult x y =>
    match x.eval vars, y.eval vars with
    | some v, some w => some (decide (v.toNat < w.toNat))
    | _, _ => none
  | .not c =>
    match c.eval vars with
    | some b => some (!b)
    | none => none
  | .and c d =>
    match c.eval vars, d.eval vars with
    | some a, some b => some (a && b)
    | _, _ => none

/-- The host goes on to statement `n`. -/
def State.hostAt (s : State) (n : Nat) : State := { s with host := { s.host with pc := n } }

/-- The host goes on to its next statement. -/
def State.hostNext (s : State) : State := s.hostAt (s.host.pc + 1)

/-- The host variable `t` takes the value `v`, and the host goes on. -/
def State.hostSet (s : State) (t : Nat) (v : Word) : State :=
  { s with host := { s.host with vars := Assoc.put s.host.vars t v, pc := s.host.pc + 1 } }

/-- A host access that ends in a state lets the host go on; one that stops, stops. -/
def thenHostNext (o : Host.Outcome State Fault Refusal) : Host.Outcome State Fault Refusal :=
  match o with
  | .next s => .next s.hostNext
  | .fault f => .fault f
  | .refused r => .refused r

/-- The bus address of a register (R74: `MIXK_BASE + offset(REG)`). -/
def regAddr (c : Config) (r : Reg) : Nat := c.base.toNat + r.offset

/-- The place of the label `l` in the host's program; R74 does not say that labels are unique, and of two equal ones this
is the first. DESIGN CHOICE (log entry 12). -/
def labelAt (prog : List HostStmt) (l : Nat) : Option Nat := prog.findIdx? fun t => t == .label l

/-- The host goes to the label `l`. -/
def State.hostGoto (s : State) (l : Nat) : Host.Outcome State Fault Refusal :=
  match labelAt s.host.prog l with
  | some n => .next (s.hostAt n)
  | none => .fault .undefinedLabel

/-- A host store whose address and value are expressions. -/
def State.hostStore (s : State) (w : Width) (addr v : HostExpr) : Host.Outcome State Fault Refusal :=
  match addr.eval s.host.vars, v.eval s.host.vars with
  | some a, some x => thenHostNext (s.busStore w a.toNat x)
  | _, _ => .fault .unsetVariable

/-- A host load into the variable `t`. -/
def State.hostLoadTo (s : State) (w : Width) (addr : Nat) (t : Nat) : Host.Outcome State Fault Refusal :=
  match s.busLoad w addr with
  | .ok (v, u) => .next (u.hostSet t v)
  | .error f => .fault f

/-- A store that completes: its bytes are in memory (R62). -/
def applyStore (m : Memory) (p : PendingStore) : Memory := m.store p.width p.addr p.value

/-- The host's barrier: every uncompleted store completes, oldest first (R62, R63, R66). -/
def State.drainAll (s : State) : State :=
  { s with mem := s.host.pending.foldl applyStore s.mem, host := { s.host with pending := [] } }

/-- The host's oldest uncompleted store completes, if there is one (R62). -/
def State.drainOne (s : State) : State :=
  match s.host.pending with
  | [] => s
  | p :: ps => { s with mem := applyStore s.mem p, host := { s.host with pending := ps } }

/-- The host's invalidate (R66). It has no range: it makes every stale range fresh at once. DESIGN CHOICE (log entry
13). -/
def State.invalidate (s : State) : State := { s with host := { s.host with stale := [] } }

/-- The meaning of one host statement (R74). -/
def State.hostStmt (s : State) : HostStmt → Host.Outcome State Fault Refusal
  | .wr r v =>
    match v.eval s.host.vars with
    | some x => thenHostNext (s.busStore .word (regAddr s.cfg r) x)
    | none => .fault .unsetVariable
  | .rd r t => s.hostLoadTo .word (regAddr s.cfg r) t
  | .st w addr v => s.hostStore w addr v
  | .ld w addr t =>
    match addr.eval s.host.vars with
    | some a => s.hostLoadTo w a.toNat t
    | none => .fault .unsetVariable
  | .command i => thenHostNext (s.busStore .word (regAddr s.cfg .cmd) (encode i))
  | .label _ => .next s.hostNext
  | .ifGoto c l =>
    match c.eval s.host.vars with
    | some true => s.hostGoto l
    | some false => .next s.hostNext
    | none => .fault .unsetVariable
  | .goto l => s.hostGoto l
  | .halt => .next s
  | .barrier => .next s.drainAll.hostNext
  | .invalidate => .next s.invalidate.hostNext

/-- The host moves: its next statement; a program that has ended does nothing more (R8, R183). -/
def State.hostTurn (s : State) : Host.Outcome State Fault Refusal :=
  match s.host.prog[s.host.pc]? with
  | some t => s.hostStmt t
  | none => .next s

/-! The pseudo-instructions of R75, as the statements they stand for: `l` is a label of their own, `t` a host variable
for the polled `STATUS`. -/

/-- `wait`: poll `STATUS` until `DONE = 1`. -/
def pseudoWait (l t : Nat) : List HostStmt := [.label l, .rd .status t, .ifGoto (.bit (.var t) 1 false) l]

/-- `ack`: clear `DONE`, `ERR`, `OVR`. -/
def pseudoAck : List HostStmt := [.wr .status (.lit 0x0000000E#32)]

/-- `mix.c d, s`. -/
def pseudoMixC (d s : HostExpr) (l t : Nat) : List HostStmt :=
  [.wr .dst d, .wr .src s, .command .cmix] ++ pseudoWait l t

/-- `mix.x d, s, k`. -/
def pseudoMixX (d s k : HostExpr) (l t : Nat) : List HostStmt :=
  [.wr .dst d, .wr .src s, .wr .ctl k, .command .xmix] ++ pseudoWait l t

/-- The register commands' pseudo-instructions end by reading `RES`. -/
def pseudoResult (i : Instr) (l t r : Nat) : List HostStmt := .command i :: pseudoWait l t ++ [.rd .res r]

/-- `mix1.c a, b -> r`. -/
def pseudoMix1C (a b : HostExpr) (l t r : Nat) : List HostStmt :=
  [.wr .opa a, .wr .opb b] ++ pseudoResult .cmix1 l t r

/-- `mix1.x a, b, c -> r`. -/
def pseudoMix1X (a b c : HostExpr) (l t r : Nat) : List HostStmt :=
  [.wr .opa a, .wr .opb b, .wr .opc c] ++ pseudoResult .xmix1 l t r

/-- `pmix2.c a, b -> r`. -/
def pseudoPmix2C (a b : HostExpr) (l t r : Nat) : List HostStmt :=
  [.wr .opa a, .wr .opb b] ++ pseudoResult .pcmix2 l t r

/-- `pmix2.x a, b, c -> r`. -/
def pseudoPmix2X (a b c : HostExpr) (l t r : Nat) : List HostStmt :=
  [.wr .opa a, .wr .opb b, .wr .opc c] ++ pseudoResult .pxmix2 l t r

end Sys2Proof.Machine
end

