-- ==== Sys2Proof/Machine/Engine.lean ====
section
/-!
DEFINITION. The moves of one step: the engine's (R150, R161, R162), and which agent moves (R7, R160).
-/

namespace Sys2Proof.Machine

/-- The engine moves: in `RUN` it decodes `LATCH.CMD` and runs that command to its completion (R72, R162), an illegal
word completing with `E_ILLEGAL` (R152); in `IDLE` it does nothing (R183). -/
def State.engineTurn (s : State) : Host.Outcome State Fault Refusal :=
  if s.status.busy then
    match decode s.cfg.variant s.latch.cmd with
    | .ok i => exec i s
    | .error _ => .next (s.raise .illegal)
  else .next s

/-- The move `t`. -/
def State.move (s : State) : Turn → Host.Outcome State Fault Refusal
  | .host => s.hostTurn
  | .access a j => .next (s.runAccess a j)
  | .engine => s.engineTurn
  | .drain => .next s.drainOne
  | .reset => .next s.assertReset

/-- Who moves when nothing outside says: the engine while a command runs (R190: it completes), else the host. -/
def State.ownTurn (s : State) : Turn := if s.status.busy then .engine else .host

/-- One move: the first of `turns`, which it uses up, or the machine's own. -/
def State.advance (s : State) : Host.Outcome State Fault Refusal :=
  match s.turns with
  | [] => s.move s.ownTurn
  | t :: ts => State.move { s with turns := ts } t

/-- The state in which the word `w` is latched and the engine moves next: what `withFetchWord` stores. -/
def State.inFlight (s : State) (w : Word) : State :=
  { s.latchCommand w with turns := .engine :: s.turns }

end Sys2Proof.Machine
end

