-- ==== Sys2Proof/Machine/Step.lean ====
section
/-!
DEFINITION. One step of the machine, and the state in which a given command word is the next to run.
-/

namespace Sys2Proof.Machine

/-- One step: one move of one agent (R7, R160). -/
def step (s : State) : Host.Outcome State Fault Refusal := s.advance

/-- `s` with the command word `w` (its low `nbits` bits) latched as the command in flight, and the engine's move next,
so that the next step decodes and runs exactly it (log entry 9). -/
def State.withFetchWord (s : State) (nbits w : Nat) : State := s.inFlight (BitVec.ofNat 32 (w % 2 ^ nbits))

end Sys2Proof.Machine
end

