-- ==== Sys2Proof/Safety.lean ====
section
/-!
DEFINITION. The terms claims use: what a legal state is, what holds while a block command runs, and the conditions under
which a block command is clean.
-/

namespace Sys2Proof.Machine

/-- What every step keeps: a legal build, memories in canonical form, `PROGRESS` and the operands read inside the block,
uncompleted host stores inside the address space, `CMD` reading as the latched word (R161), and in `RUN` a command that
passed its start checks, with `DONE` and `ERR` clear (R151, R161), whose hazard window is open if it is a block command
(R185). -/
structure State.Inv (s : State) : Prop where
  legal     : s.cfg.wf = true
  memory    : s.mem.wf = true
  snapshots : ∀ w ∈ s.windows, w.before.wf = true
  progress  : Assoc.risingSet (elementCount s.cfg) 0 s.progress = true
  fetched   : ∀ o, Assoc.rising (elementCount s.cfg) 0 (s.fetched.of o) = true
  stores    : ∀ p ∈ s.host.pending, p.addr + p.width.bytes ≤ addressSpace
  vars      : ∃ high, Assoc.rising high 0 s.host.vars = true
  command   : s.cmd = s.latch.cmd
  running   : s.status.busy = true →
    s.status.done = false ∧ s.status.err = none ∧ startChecks s.cfg s.latch = none
  window    : ∀ kind, s.blockInFlight = some kind →
    ∃ w ws, s.windows = w :: ws ∧ w.kind = kind ∧ w.latch = s.latch

/-- What holds while a block command runs, `w` being its hazard window: the source and control buffers hold what they held
at acceptance; each destination element holds its final value if it is in `PROGRESS` and its value at acceptance if not;
every operand read so far has its value at acceptance; the engine's reads see all of memory; and no uncompleted host store
meets a buffer (R37, R58, R62, R122, R185). -/
def State.Tracks (s : State) (kind : BlockKind) (w : Window) : Prop :=
  (∀ a, inBuffer s.cfg s.latch.src a = true → s.mem.byte a = w.before.byte a) ∧
  (kind = .crossfade → ∀ a, inBuffer s.cfg s.latch.ctl a = true → s.mem.byte a = w.before.byte a) ∧
  (∀ j k, j < elementCount s.cfg → k < elementBytes s.cfg →
    s.mem.byte (elementAddr s.cfg s.latch.dst j + k) =
      if j ∈ s.progress then
        (elementStep s.cfg kind s.latch w.before j).byte (elementAddr s.cfg s.latch.dst j + k)
      else w.before.byte (elementAddr s.cfg s.latch.dst j + k)) ∧
  (∀ p ∈ s.host.pending, meetsBuffers s.cfg kind s.latch p.addr p.width.bytes = false) ∧
  s.unseen.ranges = [] ∧
  (∀ o j v, usesOperand kind o = true → j < elementCount s.cfg → Assoc.find? (s.fetched.of o) j = some v →
    v = readElement s.cfg s.latch Unseen.nothing w.before o j)

/-- While a block command runs, memory is where its newest hazard window says it is, if the host's stores to its buffers
had completed when it was accepted (R62). -/
def State.InFlight (s : State) : Prop :=
  ∀ kind, s.blockInFlight = some kind →
    ∃ w ws, s.windows = w :: ws ∧ w.kind = kind ∧ w.latch = s.latch ∧ (w.ordered = true → s.Tracks kind w)

/-- A buffer base a block command accepts: aligned to an element, not null, its range inside the address space
(R153, R154). -/
def goodBase (c : Config) (b : Word) : Prop :=
  b.toNat % elementBytes c = 0 ∧ b.toNat ≠ 0 ∧ b.toNat + 2 * c.blockN ≤ 4294967296

/-- The buffers at `x` and `y` share no byte (R155). -/
def apart (c : Config) (x y : Word) : Prop :=
  x.toNat + 2 * c.blockN ≤ y.toNat ∨ y.toNat + 2 * c.blockN ≤ x.toNat

/-- Every access to the buffer at `b` answers without a bus error (R5, R54). -/
def reachable (c : Config) (b : Word) : Prop :=
  ∀ j, j < elementCount c → c.memOk (elementAddr c b j) (elementBytes c) = true

/-- `CMIX` on these operands is clean: it passes its checks and meets no bus error. -/
def cleanCmix (c : Config) (l : Latch) : Prop :=
  goodBase c l.dst ∧ goodBase c l.src ∧ apart c l.dst l.src ∧ reachable c l.dst ∧ reachable c l.src

/-- `XMIX` on these operands is clean. -/
def cleanXmix (c : Config) (l : Latch) : Prop :=
  goodBase c l.dst ∧ goodBase c l.src ∧ goodBase c l.ctl ∧ apart c l.dst l.src ∧ apart c l.dst l.ctl ∧
  reachable c l.dst ∧ reachable c l.src ∧ reachable c l.ctl

/-- Sample `i` of the buffer at `b` (R51). -/
def sampleAt (m : Memory) (b : Word) (i : Nat) : Int := (m.read16 (b.toNat + 2 * i)).toInt

/-- Sample `i` of an operand as the running command's reads see it: memory's, but for bytes a host store had not reached at
acceptance (R62). -/
def State.operandSample (s : State) (o : Operand) (i : Nat) : Int :=
  BitVec.toInt
    (engineByte s.mem s.unseen o ((s.latch.baseOf o).toNat + 2 * i + 1) ++
      engineByte s.mem s.unseen o ((s.latch.baseOf o).toNat + 2 * i))

end Sys2Proof.Machine
end

