-- ==== Sys2Proof/Certificates/Slice0/Obligations.lean ====
section
/-!
DEFINITION. The statements for the provers.
-/

open Sys2Proof Sys2Proof.Machine

/-! ### Encoding -/

/-- R71 and R72 as one equivalence: a word decodes to a command on a variant exactly when it is that command's word and the
variant has the command. So seven words (five on `NARROW`) are commands and every other word is illegal, and decoding undoes
encoding. -/
def Obligations.DecodeAgreesWithEncode : Prop :=
  ∀ (v : Variant) (w : Word) (i : Instr), decode v w = .ok i ↔ (w = encode i ∧ i.wf v = true)

/-- The words of R71 written out, the words R72 calls illegal at each edge, and the bytes on the little-endian port. -/
def Obligations.TableWordsDecode : Prop :=
  decode .wide 0x00000000#32 = .ok .nop ∧ decode .wide 0x00000001#32 = .ok .cmix ∧
  decode .wide 0x00000002#32 = .ok .xmix ∧ decode .wide 0x00000003#32 = .ok .cmix1 ∧
  decode .wide 0x00000004#32 = .ok .xmix1 ∧ decode .wide 0x00000005#32 = .ok .pcmix2 ∧
  decode .wide 0x00000006#32 = .ok .pxmix2 ∧ decode .wide 0x00000007#32 = .error .reservedOp ∧
  decode .wide 0x00000011#32 = .error .reservedBits ∧ decode .narrow 0x00000004#32 = .ok .xmix1 ∧
  decode .narrow 0x00000005#32 = .error .packedOnNarrow ∧
  decodeBytes .wide [0x02#8, 0x00#8, 0x00#8, 0x00#8, 0xFF#8] = .ok (.xmix, [0xFF#8])

/-! ### The numeric core -/

/-- R102: `HALF_DOWN` gives the integer nearest to `p / 2^G`, a tie going to the lower one; `FLOOR` gives the floor. Each is
the one integer with its property. -/
def Obligations.ShiftRoundsAsNamed : Prop :=
  ∀ (c : Config) (p r : Int), c.wf = true →
    (c.roundMode = .halfDown →
      rshift c p = (p + 2 ^ (c.gainBits - 1) - 1) / 2 ^ c.gainBits ∧
      (rshift c p = r ↔ -c.unity < 2 * (p - r * c.unity) ∧ 2 * (p - r * c.unity) ≤ c.unity)) ∧
    (c.roundMode = .floor →
      rshift c p = p / 2 ^ c.gainBits ∧
      (rshift c p = r ↔ 0 ≤ p - r * c.unity ∧ p - r * c.unity < c.unity))

/-- R104: the ranges of the products; a 32-bit signed datapath is exact on `NARROW`; on `WIDE` it is not (the sample -32768 with the
multiplier `U + 32768`, both in range, leaves it), while 33 signed bits hold every product. -/
def Obligations.ProductRanges : Prop :=
  ∀ (c : Config) (x m : Int), c.wf = true → -32768 ≤ x → x ≤ 32767 →
    c.unity - 32767 ≤ m → m ≤ c.unity + 32768 →
    |x * m| ≤ 32768 * (c.unity + 32768) ∧
    (c.variant = .wide → -32768 * (c.unity + 32768) < -2147483648) ∧
    (c.variant = .narrow →
      -2147483648 ≤ x * m ∧ x * m ≤ 2147483647 ∧
      -2147483648 ≤ x * m + 2 ^ (c.gainBits - 1) - 1 ∧ x * m + 2 ^ (c.gainBits - 1) - 1 ≤ 2147483647) ∧
    (c.variant = .wide →
      32768 * (c.unity + 32768) = 3221225472 ∧
      -4294967296 ≤ x * m + 2 ^ (c.gainBits - 1) - 1 ∧ x * m + 2 ^ (c.gainBits - 1) - 1 ≤ 4294967295 ∧
      -4294967296 ≤ x * m ∧ x * m ≤ 4294967295)

/-- R109: ConstantMix is the sum of the floors of the halves, on either variant and in either mode, and nothing in it
saturates. -/
def Obligations.ConstantMixIsSumOfFloors : Prop :=
  ∀ (c : Config) (a b : Int), c.wf = true → -32768 ≤ a → a ≤ 32767 → -32768 ≤ b → b ≤ 32767 →
    cmix c a b = a / 2 + b / 2 ∧
    rshift c (a * 2 ^ (c.gainBits - 1)) = a / 2 ∧ scale c a (2 ^ (c.gainBits - 1)) = a / 2 ∧
    scale c b (2 ^ (c.gainBits - 1)) = b / 2 ∧
    -32768 ≤ a / 2 + b / 2 ∧ a / 2 + b / 2 ≤ 32766 ∧
    (∀ c' : Config, c'.wf = true → cmix c' a b = cmix c a b) ∧
    cmix c 32767 (-32768) = -1

/-- R110: the coefficient 0 forwards input0, the coefficient `U` forwards input1, and `U` is a 16-bit coefficient on `NARROW`
with `G` at most 14 only. -/
def Obligations.CrossfadeIdentities : Prop :=
  ∀ (c : Config) (a b : Int), c.wf = true → -32768 ≤ a → a ≤ 32767 → -32768 ≤ b → b ≤ 32767 →
    mix c a b 0 = a ∧ mix c a b c.unity = b ∧
    (c.unity ≤ 32767 ↔ c.variant = .narrow ∧ c.gNarrow ≤ 14)

/-- R111: the error of the crossfade against the exact mix `e`, for a coefficient between 0 and `U`. -/
def Obligations.CrossfadeErrorBound : Prop :=
  (∀ (c : Config) (a b k : Int), c.wf = true → -32768 ≤ a → a ≤ 32767 → -32768 ≤ b → b ≤ 32767 →
    0 ≤ k → k ≤ c.unity →
    scale c a (c.unity - k) = rshift c (a * (c.unity - k)) ∧ scale c b k = rshift c (b * k) ∧
    (∀ e pa pb : ℚ, e = ((a * (c.unity - k) + b * k : Int) : ℚ) / (c.unity : ℚ) →
      pa = ((a * (c.unity - k) : Int) : ℚ) / (c.unity : ℚ) → pb = ((b * k : Int) : ℚ) / (c.unity : ℚ) →
      (c.roundMode = .halfDown →
        (-1 / 2 ≤ (scale c a (c.unity - k) : ℚ) - pa ∧ (scale c a (c.unity - k) : ℚ) - pa < 1 / 2) ∧
        (-1 / 2 ≤ (scale c b k : ℚ) - pb ∧ (scale c b k : ℚ) - pb < 1 / 2) ∧
        |(mix c a b k : ℚ) - max (-32768) (min 32767 e)| ≤ 1 ∧
        (∀ r : Int, r = ⌊e⌋ ∨ r = ⌈e⌉ → |mix c a b k - sat16 r| ≤ 1)) ∧
      (c.roundMode = .floor →
        (-1 < (scale c a (c.unity - k) : ℚ) - pa ∧ (scale c a (c.unity - k) : ℚ) - pa ≤ 0) ∧
        (-1 < (scale c b k : ℚ) - pb ∧ (scale c b k : ℚ) - pb ≤ 0) ∧
        max (-32768) (min 32767 e) - 2 < (mix c a b k : ℚ) ∧ (mix c a b k : ℚ) ≤ max (-32768) (min 32767 e)))) ∧
  (∀ c : Config, c.variant = .narrow → c.gNarrow = 8 → c.roundMode = .floor → mix c 1 255 1 = 0)

/-- R112, with its first clause made exact: a partial result saturates only when its multiplier is above `U` or not above `-U`
(at `-U` the one sample -32768 saturates, which R112's "only when |m| > U" overlooks: log entry 15); the worked cases of both
places of saturation; and no result leaves the 16-bit range. -/
def Obligations.SaturationPlaces : Prop :=
  (∀ (c : Config) (x m : Int), c.wf = true → -32768 ≤ x → x ≤ 32767 →
    -c.unity < m → m ≤ c.unity → scale c x m = rshift c (x * m)) ∧
  (∀ (c : Config) (x : Int), c.wf = true → -32768 ≤ x → x ≤ 32767 →
    (scale c x (-c.unity) = rshift c (x * -c.unity) ↔ x ≠ -32768)) ∧
  (∀ c : Config, c.variant = .wide →
    scale c 32767 (65536 + 32768) = 32767 ∧ 32767 < rshift c (32767 * (65536 + 32768))) ∧
  (∀ c : Config, c.variant = .wide → c.roundMode = .halfDown →
    rshift c (-32768 * 65535) = -32768 ∧ rshift c (-32768) = -1 ∧ mix c (-32768) (-32768) 1 = -32768) ∧
  (∀ (c : Config) (a b k : Int), -32768 ≤ mix c a b k ∧ mix c a b k ≤ 32767)

/-! ### The register commands -/

/-- R130: the engine's part of `NOP` changes `BUSY` and `DONE` and nothing else. -/
def Obligations.NopOnlyCompletes : Prop :=
  ∀ s : State, exec .nop s = .next { s with status := { s.status with busy := false, done := true } }

/-- R131 with R109: `CMIX1` completes with `RES` the sign-extended sum of the floors of the halves of the low samples, and
changes nothing but `RES`, `BUSY` and `DONE`. -/
def Obligations.Cmix1Result : Prop :=
  ∀ s : State, s.cfg.wf = true →
    exec .cmix1 s = .next
      { s with
        res := BitVec.ofInt 32
          ((s.latch.opa.extractLsb' 0 16).toInt / 2 + (s.latch.opb.extractLsb' 0 16).toInt / 2)
        status := { s.status with busy := false, done := true } }

/-- R132, R101 to R107: `XMIX1` completes with `RES` the sign-extended mix of the low samples under the low coefficient,
written out, and changes nothing but `RES`, `BUSY` and `DONE`. -/
def Obligations.Xmix1Result : Prop :=
  ∀ (s : State) (sat sh : Int → Int) (u a b k : Int),
    u = 2 ^ s.cfg.gainBits →
    (∀ x, sat x = if x < -32768 then -32768 else if 32767 < x then 32767 else x) →
    (∀ p, sh p = if s.cfg.roundMode = .halfDown then (p + 2 ^ (s.cfg.gainBits - 1) - 1) / u else p / u) →
    a = (s.latch.opa.extractLsb' 0 16).toInt → b = (s.latch.opb.extractLsb' 0 16).toInt →
    k = (s.latch.opc.extractLsb' 0 16).toInt →
    exec .xmix1 s = .next
      { s with
        res := BitVec.ofInt 32 (sat (sat (sh (a * (u - k))) + sat (sh (b * k))))
        status := { s.status with busy := false, done := true } }

/-- R141, R142, R144: on `WIDE` each packed command completes; its `RES` holds in each lane what the scalar command gives on
that lane of the operands alone, and nothing else changes but `BUSY` and `DONE`. -/
def Obligations.PackedIsTwoScalars : Prop :=
  ∀ (s : State) (lane0 lane1 : Latch), s.cfg.variant = .wide →
    lane0 = s.latch →
    lane1 = { s.latch with
      opa := s.latch.opa >>> 16, opb := s.latch.opb >>> 16, opc := s.latch.opc >>> 16 } →
    (∃ r0 r1 : Word,
      exec .cmix1 { s with latch := lane0 } = .next
        { s with latch := lane0, res := r0, status := { s.status with busy := false, done := true } } ∧
      exec .cmix1 { s with latch := lane1 } = .next
        { s with latch := lane1, res := r1, status := { s.status with busy := false, done := true } } ∧
      exec .pcmix2 s = .next
        { s with
          res := r1.extractLsb' 0 16 ++ r0.extractLsb' 0 16
          status := { s.status with busy := false, done := true } }) ∧
    (∃ r0 r1 : Word,
      exec .xmix1 { s with latch := lane0 } = .next
        { s with latch := lane0, res := r0, status := { s.status with busy := false, done := true } } ∧
      exec .xmix1 { s with latch := lane1 } = .next
        { s with latch := lane1, res := r1, status := { s.status with busy := false, done := true } } ∧
      exec .pxmix2 s = .next
        { s with
          res := r1.extractLsb' 0 16 ++ r0.extractLsb' 0 16
          status := { s.status with busy := false, done := true } })

/-- R141, R142: the packed results on `WIDE`, written out lane by lane; `PCMIX2` by R109. -/
def Obligations.PackedResult : Prop :=
  ∀ s : State, s.cfg.wf = true → s.cfg.variant = .wide →
    exec .pcmix2 s = .next
      { s with
        res :=
          BitVec.ofInt 16 ((s.latch.opa.extractLsb' 16 16).toInt / 2 + (s.latch.opb.extractLsb' 16 16).toInt / 2) ++
          BitVec.ofInt 16 ((s.latch.opa.extractLsb' 0 16).toInt / 2 + (s.latch.opb.extractLsb' 0 16).toInt / 2)
        status := { s.status with busy := false, done := true } } ∧
    exec .pxmix2 s = .next
      { s with
        res :=
          BitVec.ofInt 16 (mix s.cfg (s.latch.opa.extractLsb' 16 16).toInt (s.latch.opb.extractLsb' 16 16).toInt
            (s.latch.opc.extractLsb' 16 16).toInt) ++
          BitVec.ofInt 16 (mix s.cfg (s.latch.opa.extractLsb' 0 16).toInt (s.latch.opb.extractLsb' 0 16).toInt
            (s.latch.opc.extractLsb' 0 16).toInt)
        status := { s.status with busy := false, done := true } }

/-- R145, R152: on `NARROW` the packed words are illegal: the command completes with `E_ILLEGAL`, and nothing else
changes. -/
def Obligations.PackedIllegalOnNarrow : Prop :=
  ∀ s : State, s.cfg.variant = .narrow →
    exec .pcmix2 s = .next { s with status := { s.status with busy := false, done := true, err := some .illegal } } ∧
    exec .pxmix2 s = .next { s with status := { s.status with busy := false, done := true, err := some .illegal } } ∧
    startChecks s.cfg (s.latchOf 0x00000005#32) = some .illegal ∧
    startChecks s.cfg (s.latchOf 0x00000006#32) = some .illegal

/-! ### The block commands -/

/-- R120, R123, R143: a clean `CMIX` of which nothing has been read or written yet completes; every sample of the destination becomes the sum of the floors of the halves of
the two input samples (on `WIDE` as on `NARROW`), every byte outside the destination buffer reads as before, and nothing else
changes but `PROGRESS`, `BUSY` and `DONE`. The input samples are memory's, but for bytes a host store had not reached at acceptance
(log entry 13). That `PROGRESS` stays full, and the operands read are forgotten, is the model's reading (log entries 14, 7). -/
def Obligations.CmixResult : Prop :=
  ∀ s : State, s.cfg.wf = true → s.progress = [] → s.fetched = Fetched.empty → cleanCmix s.cfg s.latch →
    ∃ m : Memory,
      exec .cmix s = .next
        { s with
          mem := m
          progress := List.range (elementCount s.cfg)
          status := { s.status with busy := false, done := true } } ∧
      (∀ i, i < s.cfg.blockN →
        sampleAt m s.latch.dst i = s.operandSample .input0 i / 2 + s.operandSample .input1 i / 2) ∧
      (s.unseen.ranges = [] → ∀ i, s.operandSample .input0 i = sampleAt s.mem s.latch.dst i ∧
        s.operandSample .input1 i = sampleAt s.mem s.latch.src i) ∧
      (∀ a, a < s.latch.dst.toNat ∨ s.latch.dst.toNat + 2 * s.cfg.blockN ≤ a → m.byte a = s.mem.byte a)

/-- R121, R123, R143: a clean `XMIX` of which nothing has been read or written yet completes; every sample of the destination becomes the mix of the two input samples under
its coefficient, every byte outside the destination buffer reads as before, and nothing else changes but `PROGRESS`, `BUSY` and
`DONE`. The input samples are memory's, but for bytes a host store had not reached at acceptance (log entry 13). That `PROGRESS`
stays full, and the operands read are forgotten, is the model's reading (log entries 14, 7). -/
def Obligations.XmixResult : Prop :=
  ∀ s : State, s.cfg.wf = true → s.progress = [] → s.fetched = Fetched.empty → cleanXmix s.cfg s.latch →
    ∃ m : Memory,
      exec .xmix s = .next
        { s with
          mem := m
          progress := List.range (elementCount s.cfg)
          status := { s.status with busy := false, done := true } } ∧
      (∀ i, i < s.cfg.blockN →
        sampleAt m s.latch.dst i =
          mix s.cfg (s.operandSample .input0 i) (s.operandSample .input1 i) (s.operandSample .control i)) ∧
      (s.unseen.ranges = [] → ∀ i, s.operandSample .input0 i = sampleAt s.mem s.latch.dst i ∧
        s.operandSample .input1 i = sampleAt s.mem s.latch.src i ∧
        s.operandSample .control i = sampleAt s.mem s.latch.ctl i) ∧
      (∀ a, a < s.latch.dst.toNat ∨ s.latch.dst.toNat + 2 * s.cfg.blockN ≤ a → m.byte a = s.mem.byte a)

/-- R57, R58, R122: whatever accesses the engine is made to perform first, each read of an operand and each write of a result on its
own, in whatever order and interleaving, the run ends in the very state that running the command at once gives. No host move comes
between them here (log entry 7). -/
def Obligations.ElementOrderDoesNotShow : Prop :=
  ∀ (s : State) (i : Instr) (kind : BlockKind) (js : List (Access × Nat)),
    s.cfg.wf = true → s.mem.wf = true → s.status.busy = true → s.progress = [] → s.fetched = Fetched.empty → s.turns = [] →
    decode s.cfg.variant s.latch.cmd = .ok i → blockKindOf i = some kind →
    (kind = .constant → cleanCmix s.cfg s.latch) → (kind = .crossfade → cleanXmix s.cfg s.latch) →
    Sys2Proof.core.run (js.length + 1) { s with turns := js.map (fun x => Turn.access x.1 x.2) ++ [Turn.engine] } = exec i s

/-- R57, R58: each access of the running block command is a move of its own. A read of an operand not yet read changes nothing but the
record of that operand, which is what memory gives then, or any value at a byte a host store had not reached at acceptance (log
entry 13); a write of an element whose operands have been read stores the result of those operands, whatever memory has become, and
puts the element in `PROGRESS`. That an access is one step, the record of what has been read, and that an access not left to do
changes nothing, are the model's choice (log entry 7). R156, R157, R123: an access that meets a bus error completes the command with
`E_BUS` and changes nothing else but the destination buffer; that the machine goes on with that buffer free, and that `PROGRESS`
stays, is the model's choice (log entries 6, 14). -/
def Obligations.AccessesAreSeparate : Prop :=
  ∀ (s : State) (kind : BlockKind) (j : Nat) (a b k : Word), s.blockInFlight = some kind → j < elementCount s.cfg →
    j ∉ s.progress →
    (∀ o, usesOperand kind o = true → Assoc.find? (s.fetched.of o) j = none →
      (operandOk s.cfg s.latch o j = true → s.runAccess (.read o) j =
        { s with fetched := s.fetched.put o j (readElement s.cfg s.latch s.unseen s.mem o j) }) ∧
      s.runAccess .write j = s) ∧
    (∀ x : Access,
      ((∃ o, x = .read o ∧ usesOperand kind o = true ∧ Assoc.find? (s.fetched.of o) j = none ∧
          operandOk s.cfg s.latch o j = false) ∨
        (x = .write ∧ (∀ o, usesOperand kind o = true → (Assoc.find? (s.fetched.of o) j).isSome = true) ∧
          operandOk s.cfg s.latch .input0 j = false)) →
      ∃ m : Memory,
        s.runAccess x j =
          { s with
            mem := m
            fetched := Fetched.empty
            draws := s.draws + 1
            status := { s.status with busy := false, done := true, err := some .bus } } ∧
        (∀ a, a < s.latch.dst.toNat ∨ s.latch.dst.toNat + 2 * s.cfg.blockN ≤ a → m.byte a = s.mem.byte a) ∧
        (∀ a, s.latch.dst.toNat ≤ a → a < s.latch.dst.toNat + 2 * s.cfg.blockN →
          m.byte a = Config.freeByte s.draws a)) ∧
    (∀ o, (Assoc.find? (s.fetched.of o) j).isSome = true → s.runAccess (.read o) j = s) ∧
    (kind = .constant → s.runAccess (.read .control) j = s) ∧
    (operandOk s.cfg s.latch .input0 j = true → Assoc.find? s.fetched.input0 j = some a → Assoc.find? s.fetched.input1 j = some b →
      (kind = .crossfade → Assoc.find? s.fetched.control j = some k) →
      s.runAccess .write j =
        { s with
          mem := writeElement s.cfg s.latch s.mem j (mixElement s.cfg kind a b k)
          progress := Assoc.insert s.progress j }) ∧
    (∀ (t : State) (x : Access), t.blockInFlight = some kind → j ∈ t.progress → t.runAccess x j = t)

/-- R57, R58, R37: while a command runs, no step of any agent changes its latch or an operand it has read, or takes an element out of
`PROGRESS`: each access is performed once. The record of the operands read is the model's (log entry 7), and so is that the bytes
its reads do not see stay the same for the whole command (log entry 13). -/
def Obligations.AccessesHappenOnce : Prop :=
  ∀ s t : State, step s = .next t → s.status.busy = true → t.status.busy = true →
    t.latch = s.latch ∧ t.unseen = s.unseen ∧ (∀ j ∈ s.progress, j ∈ t.progress) ∧
    ∀ o j v, Assoc.find? (s.fetched.of o) j = some v → Assoc.find? (t.fetched.of o) j = some v

/-- R156, R157, R58: a block command that passes its checks and meets a bus error completes with `E_BUS`: `RES` and every byte
outside the destination buffer are unchanged. That the machine goes on with the destination buffer free, and that `PROGRESS` stays,
is the model's choice (log entries 6, 14). -/
def Obligations.BusErrorCompletes : Prop :=
  ∀ (s : State) (i : Instr) (kind : BlockKind), blockKindOf i = some kind → blockChecks s.cfg kind s.latch = none →
    (∃ j, j < elementCount s.cfg ∧ j ∉ s.progress ∧ elementOk s.cfg kind s.latch j = false) →
    ∃ m : Memory,
      exec i s = .next
        { s with
          mem := m
          fetched := Fetched.empty
          draws := s.draws + 1
          status := { s.status with busy := false, done := true, err := some .bus } } ∧
      (∀ a, a < s.latch.dst.toNat ∨ s.latch.dst.toNat + 2 * s.cfg.blockN ≤ a → m.byte a = s.mem.byte a) ∧
      (∀ a, s.latch.dst.toNat ≤ a → a < s.latch.dst.toNat + 2 * s.cfg.blockN →
        m.byte a = Config.freeByte s.draws a)

/-! ### Whole-machine rules over all commands -/

/-- R162, R190: every command, from every state, answers a next state in which it has completed. That an `E_BUS` is such a state is the
model's choice (log entry 6), and so is the completion in one move (log entry 10). -/
def Obligations.EveryCommandCompletes : Prop :=
  ∀ (i : Instr) (s : State), ∃ t : State, exec i s = .next t ∧ t.status.busy = false ∧ t.status.done = true ∧
    t.status.ovr = s.status.ovr ∧ (t.status.err = s.status.err ∨ t.status.err.isSome = true)

/-- R38, R29 to R34, R161, R185: no command changes a register the host writes, `CMD`, `LATCH`, `CTRL`, the build or the host. That
it leaves the hazard windows, what its reads do not see and the list of moves as they are is about fields of the model's own (log
entries 4, 13, 5). -/
def Obligations.CommandsKeepHostRegisters : Prop :=
  ∀ (i : Instr) (s t : State), exec i s = .next t →
    t.cfg = s.cfg ∧ t.ie = s.ie ∧ t.cmd = s.cmd ∧ t.dst = s.dst ∧ t.src = s.src ∧ t.ctl = s.ctl ∧
    t.opa = s.opa ∧ t.opb = s.opb ∧ t.opc = s.opc ∧ t.latch = s.latch ∧ t.windows = s.windows ∧
    t.unseen = s.unseen ∧ t.host = s.host ∧ t.turns = s.turns

/-- R35, R180: `RES` changes only at the successful completion of one of the four register mixes, and at reset: of the commands no
other changes it, and a step that changes it is the engine's move on one of them, which completes without error, or a reset. (The
list of moves is the model's: log entry 5.) -/
def Obligations.ResWrittenOnlyByRegisterMixes : Prop :=
  (∀ (i : Instr) (s t : State), exec i s = .next t → s.status.err = none → t.res ≠ s.res →
    (i = .cmix1 ∨ i = .xmix1 ∨ i = .pcmix2 ∨ i = .pxmix2) ∧ t.status.err = none) ∧
  (∀ s t : State, s.Inv → step s = .next t → t.res ≠ s.res →
    (∃ ts, s.turns = Turn.reset :: ts) ∨
    ((s.turns = [] ∨ ∃ ts, s.turns = Turn.engine :: ts) ∧ s.status.busy = true ∧ t.status.busy = false ∧
      t.status.done = true ∧ t.status.err = none ∧
      ∃ i, decode s.cfg.variant s.latch.cmd = .ok i ∧ (i = .cmix1 ∨ i = .xmix1 ∨ i = .pcmix2 ∨ i = .pxmix2)))

/-- R50: `NOP` and the register commands do the same whatever memory holds, and leave it as it is. -/
def Obligations.RegisterCommandsTouchNoMemory : Prop :=
  ∀ (i : Instr) (s t : State) (m : Memory), blockKindOf i = none → exec i s = .next t →
    t.mem = s.mem ∧ exec i { s with mem := m } = .next { t with mem := m }

/-- R188, R37, R31 to R34: a host write to `CTRL`, `DST` to `OPC` while a command runs changes nothing of what the command does:
writing before the engine's move or after it gives the same state. -/
def Obligations.RunningCommandReadsOnlyLatch : Prop :=
  ∀ (s t : State) (r : Reg) (v : Word),
    (r = .ctrl ∨ r = .dst ∨ r = .src ∨ r = .ctl ∨ r = .opa ∨ r = .opb ∨ r = .opc) →
    s.writeReg r v = .next t →
    ∃ u : State, s.engineTurn = .next u ∧ t.engineTurn = u.writeReg r v

/-! ### Acceptance and errors -/

/-- R161: in `IDLE` a write of `w` to `CMD` whose start checks pass latches the word and the operands, sets `BUSY`, clears
`DONE`, `ERR` and `ERRCODE`, empties `PROGRESS`, keeps `OVR`, and changes nothing else but the model's records: a block command
opens its hazard window (log entry 4) and no other command opens one, and the records of reads are emptied (log entries 7, 13). A
start with host stores outstanding is `UnorderedStartReadsFree`. -/
def Obligations.AcceptanceLatches : Prop :=
  ∀ (s : State) (w : Word), s.status.busy = false → s.unordered w = false →
    startChecks s.cfg
      { cmd := w, dst := s.dst, src := s.src, ctl := s.ctl, opa := s.opa, opb := s.opb, opc := s.opc } = none →
    ∃ ws : List Window,
      s.writeReg .cmd w = .next
        { s with
          latch :=
            { cmd := w, dst := s.dst, src := s.src, ctl := s.ctl, opa := s.opa, opb := s.opb, opc := s.opc }
          cmd := w
          status := { busy := true, done := false, err := none, ovr := s.status.ovr }
          progress := []
          fetched := Fetched.empty
          unseen := Unseen.nothing
          windows := ws } ∧
      (∀ (i : Instr) (kind : BlockKind), decode s.cfg.variant w = .ok i → blockKindOf i = some kind →
        ws =
          { kind := kind
            latch :=
              { cmd := w, dst := s.dst, src := s.src, ctl := s.ctl, opa := s.opa, opb := s.opb, opc := s.opc }
            before := s.mem
            ordered := true } :: s.windows) ∧
      ((∀ (i : Instr) (kind : BlockKind), decode s.cfg.variant w = .ok i → blockKindOf i ≠ some kind) → ws = s.windows)

/-- R157, R161: a failed start check completes the command at once with its code; of the block only `STATUS`, `CMD`, `LATCH` and
`PROGRESS` change (R157 does not name `PROGRESS`, R161 empties it: log entry 14). Of the model's records, the records of reads are
emptied (log entries 7, 13), and a block command opens its hazard window over memory as it was, whatever host stores are
outstanding, while an illegal word opens none (log entry 4). -/
def Obligations.FailedCheckCompletes : Prop :=
  ∀ (s : State) (w : Word) (e : CmdError), s.status.busy = false →
    startChecks s.cfg
      { cmd := w, dst := s.dst, src := s.src, ctl := s.ctl, opa := s.opa, opb := s.opb, opc := s.opc } = some e →
    ∃ ws : List Window,
      s.writeReg .cmd w = .next
        { s with
          latch :=
            { cmd := w, dst := s.dst, src := s.src, ctl := s.ctl, opa := s.opa, opb := s.opb, opc := s.opc }
          cmd := w
          status := { busy := false, done := true, err := some e, ovr := s.status.ovr }
          progress := []
          fetched := Fetched.empty
          unseen := Unseen.nothing
          windows := ws } ∧
      (∀ (i : Instr) (kind : BlockKind), decode s.cfg.variant w = .ok i → blockKindOf i = some kind →
        ws =
          { kind := kind
            latch :=
              { cmd := w, dst := s.dst, src := s.src, ctl := s.ctl, opa := s.opa, opb := s.opb, opc := s.opc }
            before := s.mem
            ordered := true } :: s.windows) ∧
      ((∀ (i : Instr) (kind : BlockKind), decode s.cfg.variant w = .ok i → blockKindOf i ≠ some kind) → ws = s.windows)

/-- R152: every word that is not the word of a command of the variant fails its check with `E_ILLEGAL`, and no other word does;
written in `IDLE`, such a word completes at once with code 1, touching neither memory nor `RES`. -/
def Obligations.IllegalWordsReported : Prop :=
  (∀ (c : Config) (l : Latch),
    startChecks c l = some .illegal ↔ ∀ i : Instr, l.cmd = encode i → i.wf c.variant = false) ∧
  (∀ (s : State) (w : Word), s.status.busy = false → (∀ i : Instr, w = encode i → i.wf s.cfg.variant = false) →
    ∃ t : State, s.writeReg .cmd w = .next t ∧
      t.status = { busy := false, done := true, err := some .illegal, ovr := s.status.ovr } ∧
      t.status.errcode = 1#4 ∧ t.res = s.res ∧ t.mem = s.mem)

/-- R151, R153 to R155: the start checks of `CMIX`, in their priority: a misaligned base, then a null base or a range past
0xFFFF_FFFF, then a byte shared by the two buffers. `CTL` is not checked. -/
def Obligations.CmixStartChecks : Prop :=
  ∀ (c : Config) (l : Latch) (n : Nat), c.wf = true → l.cmd = 0x00000001#32 →
    n = 2 * c.blockN →
    (startChecks c l = some .align ↔
      l.dst.toNat % elementBytes c ≠ 0 ∨ l.src.toNat % elementBytes c ≠ 0) ∧
    (startChecks c l = some .range ↔
      (l.dst.toNat % elementBytes c = 0 ∧ l.src.toNat % elementBytes c = 0) ∧
      (l.dst = 0#32 ∨ l.src = 0#32 ∨ l.dst.toNat + n - 1 > 0xFFFFFFFF ∨ l.src.toNat + n - 1 > 0xFFFFFFFF)) ∧
    (startChecks c l = some .overlap ↔
      goodBase c l.dst ∧ goodBase c l.src ∧
      ∃ a, l.dst.toNat ≤ a ∧ a < l.dst.toNat + n ∧ l.src.toNat ≤ a ∧ a < l.src.toNat + n) ∧
    (startChecks c l = none ↔
      goodBase c l.dst ∧ goodBase c l.src ∧
      ¬ ∃ a, l.dst.toNat ≤ a ∧ a < l.dst.toNat + n ∧ l.src.toNat ≤ a ∧ a < l.src.toNat + n) ∧
    (c.variant = .narrow → elementBytes c = 2) ∧ (c.variant = .wide → elementBytes c = 4)

/-- R151, R153 to R155: the start checks of `XMIX`, which also cover `CTL`; the source and control buffers may overlap. -/
def Obligations.XmixStartChecks : Prop :=
  ∀ (c : Config) (l : Latch) (n : Nat), c.wf = true → l.cmd = 0x00000002#32 →
    n = 2 * c.blockN →
    (startChecks c l = some .align ↔
      l.dst.toNat % elementBytes c ≠ 0 ∨ l.src.toNat % elementBytes c ≠ 0 ∨ l.ctl.toNat % elementBytes c ≠ 0) ∧
    (startChecks c l = some .range ↔
      (l.dst.toNat % elementBytes c = 0 ∧ l.src.toNat % elementBytes c = 0 ∧ l.ctl.toNat % elementBytes c = 0) ∧
      (l.dst = 0#32 ∨ l.src = 0#32 ∨ l.ctl = 0#32 ∨ l.dst.toNat + n - 1 > 0xFFFFFFFF ∨
        l.src.toNat + n - 1 > 0xFFFFFFFF ∨ l.ctl.toNat + n - 1 > 0xFFFFFFFF)) ∧
    (startChecks c l = some .overlap ↔
      goodBase c l.dst ∧ goodBase c l.src ∧ goodBase c l.ctl ∧
      ∃ a, (l.dst.toNat ≤ a ∧ a < l.dst.toNat + n) ∧
        ((l.src.toNat ≤ a ∧ a < l.src.toNat + n) ∨ (l.ctl.toNat ≤ a ∧ a < l.ctl.toNat + n))) ∧
    (startChecks c l = none ↔
      goodBase c l.dst ∧ goodBase c l.src ∧ goodBase c l.ctl ∧ apart c l.dst l.src ∧ apart c l.dst l.ctl)

/-- R158: a write to `CMD` while `BUSY = 1` sets `OVR` and changes nothing else. -/
def Obligations.OverrunDropsWord : Prop :=
  ∀ (s : State) (w : Word), s.status.busy = true →
    s.writeReg .cmd w = .next { s with status := { s.status with ovr := true } }

/-! ### The register window -/

/-- R23 to R27: the layout of `STATUS` as read. -/
def Obligations.StatusLayout : Prop :=
  ∀ s : State,
    (s.readReg .status).getLsbD 0 = s.status.busy ∧ (s.readReg .status).getLsbD 1 = s.status.done ∧
    (s.readReg .status).getLsbD 2 = s.status.err.isSome ∧ (s.readReg .status).getLsbD 3 = s.status.ovr ∧
    (s.readReg .status).extractLsb' 4 4 = 0#4 ∧
    (s.readReg .status).extractLsb' 8 4 =
      (match s.status.err with
        | none => 0#4 | some .illegal => 1#4 | some .align => 2#4 | some .range => 3#4
        | some .overlap => 4#4 | some .bus => 5#4) ∧
    (s.readReg .status).extractLsb' 12 20 = 0#20

/-- R23 to R27: a host write to `STATUS` clears `DONE`, `ERR` with `ERRCODE`, and `OVR`, each where its bit is 1, and changes
nothing else: bits 0, 4 to 31 are ignored. -/
def Obligations.StatusWriteOneToClear : Prop :=
  ∀ (s : State) (v : Word),
    s.writeReg .status v = .next
      { s with
        status :=
          { busy := s.status.busy
            done := if v.getLsbD 1 then false else s.status.done
            err := if v.getLsbD 2 then none else s.status.err
            ovr := if v.getLsbD 3 then false else s.status.ovr } }

/-- R22: `CTRL` stores `IE` alone, and a write to it changes nothing else and takes effect on the interrupt output at once, in
`RUN` as in `IDLE`; it is 0 after reset. -/
def Obligations.CtrlStoresOnlyIE : Prop :=
  ∀ s : State, s.assertReset.readReg .ctrl = 0#32 ∧
    ∀ v : Word, ∃ t : State, s.writeReg .ctrl v = .next t ∧ t = { s with ie := v.getLsbD 0 } ∧
      t.readReg .ctrl = v &&& 1#32 ∧ t.irq = (v.getLsbD 0 && s.status.done)

/-- R21: `ID` reports the build, and no step changes it, reset among them. -/
def Obligations.IdReportsBuildForever : Prop :=
  (∀ s : State, s.cfg.wf = true →
    ((s.readReg .id).getLsbD 0 = decide (s.cfg.variant = .wide)) ∧
    ((s.readReg .id).getLsbD 1 = decide (s.cfg.roundMode = .halfDown)) ∧
    (s.readReg .id).extractLsb' 2 6 = 0#6 ∧
    ((s.readReg .id).extractLsb' 8 8).toNat = s.cfg.gainBits ∧
    ((s.readReg .id).extractLsb' 16 16).toNat = s.cfg.blockN) ∧
  (∀ s t : State, step s = .next t → t.readReg .id = s.readReg .id) ∧
  (∀ (s : State) (v : Word), s.writeReg .id v = .next s)

/-- R28, R29 to R34, R35, R36: a read of `DST` to `OPC`, `RES` or `CMD` returns what the register holds; `DST` to `OPC` read back what
was written and a write to one changes no other register; `CMD` reads as the last accepted word, which a dropped word does not
change; `RES` and the reserved offsets ignore writes; reserved offsets read 0. -/
def Obligations.PlainRegistersReadBack : Prop :=
  (∀ s : State, s.readReg .dst = s.dst ∧ s.readReg .src = s.src ∧ s.readReg .ctl = s.ctl ∧ s.readReg .opa = s.opa ∧
    s.readReg .opb = s.opb ∧ s.readReg .opc = s.opc ∧ s.readReg .res = s.res ∧ s.readReg .cmd = s.cmd) ∧
  (∀ (s : State) (w : Word), ∃ t : State, s.writeReg .cmd w = .next t ∧
    t.readReg .cmd = if s.status.busy then s.readReg .cmd else w) ∧
  (∀ (s : State) (r : Reg) (v : Word),
    (r = .dst ∨ r = .src ∨ r = .ctl ∨ r = .opa ∨ r = .opb ∨ r = .opc) →
    ∃ t : State, s.writeReg r v = .next t ∧ t.readReg r = v ∧ (∀ q : Reg, q ≠ r → t.readReg q = s.readReg q) ∧
      t.latch = s.latch ∧ t.mem = s.mem ∧ t.progress = s.progress) ∧
  (∀ (s : State) (v : Word), s.writeReg .res v = .next s) ∧
  (∀ (s : State) (k : Fin 5) (v : Word), s.writeReg (.reserved k) v = .next s ∧ s.readReg (.reserved k) = 0#32)

/-- R59: a host read of any register changes no register, no latch and no memory. -/
def Obligations.ReadsHaveNoSideEffect : Prop :=
  ∀ (s : State) (r q : Reg), (s.afterRead r).readReg q = s.readReg q ∧ (s.afterRead r).latch = s.latch ∧
    (s.afterRead r).progress = s.progress ∧ (s.afterRead r).mem = s.mem ∧ (s.afterRead r).cfg = s.cfg

/-- R20, R36, R56, R74: an aligned 32-bit access at `MIXK_BASE + offset` reaches the register of that offset; an access of
16 bits, or one that is not aligned, that touches the window is a fault. -/
def Obligations.PortReachesRegisters : Prop :=
  (∀ (s : State) (r : Reg) (v : Word), s.cfg.wf = true →
    s.busStore .word (s.cfg.base.toNat + r.offset) v = s.writeReg r v ∧
    s.busLoad .word (s.cfg.base.toNat + r.offset) = .ok (s.readReg r, s.afterRead r)) ∧
  (∀ (s : State) (w : Width) (a : Nat) (v : Word), s.cfg.wf = true →
    s.cfg.base.toNat < a + w.bytes → a < s.cfg.base.toNat + 64 → (w = .half ∨ a % 4 ≠ 0) →
    s.busStore w a v = .fault .portAccess ∧ s.busLoad w a = .error .portAccess)

/-- R159: the interrupt output is `IE` and `DONE`; it falls when the host clears `DONE` or `IE`, when a command is accepted into
`RUN`, and at reset; `OVR` and `ERR` do not drive it. -/
def Obligations.InterruptFollowsDone : Prop :=
  ∀ s : State, (s.irq = true ↔ s.ie = true ∧ s.status.done = true) ∧
    (∀ (v : Word) (t : State), s.writeReg .status v = .next t → v.getLsbD 1 = true → t.irq = false) ∧
    (∀ (v : Word) (t : State), s.writeReg .ctrl v = .next t → v.getLsbD 0 = false → t.irq = false) ∧
    (∀ (w : Word) (t : State), s.writeReg .cmd w = .next t → s.status.busy = false → t.status.busy = true →
      t.irq = false) ∧
    s.assertReset.irq = false ∧
    (∀ (o : Bool) (e : Option CmdError),
      State.irq { s with status := { s.status with ovr := o, err := e } } = s.irq)

/-! ### Reset -/

/-- R180, R183: reset gives every register, `LATCH` and `PROGRESS` its reset value, whatever the phase, and `irq` is 0. That the record
of the operands read is emptied is the model's choice (log entry 7). -/
def Obligations.ResetValues : Prop :=
  ∀ s : State,
    (∀ r : Reg, r ≠ .id → s.assertReset.readReg r = 0#32) ∧ s.assertReset.readReg .id = s.readReg .id ∧
    s.assertReset.latch = { cmd := 0#32, dst := 0#32, src := 0#32, ctl := 0#32, opa := 0#32, opb := 0#32, opc := 0#32 } ∧
    s.assertReset.progress = [] ∧ s.assertReset.fetched = Fetched.empty ∧ s.assertReset.status.busy = false ∧
    s.assertReset.irq = false

/-- R181, R182: reset changes no byte of memory, but for the destination buffer of a block command it abandons, every byte of
which is free (the model's choice, log entry 8). -/
def Obligations.ResetKeepsMemory : Prop :=
  ∀ s : State,
    (s.blockInFlight = none → s.assertReset.mem = s.mem) ∧
    (∀ kind, s.blockInFlight = some kind → ∀ a,
      s.assertReset.mem.byte a =
        if s.latch.dst.toNat ≤ a ∧ a < s.latch.dst.toNat + 2 * s.cfg.blockN then Config.freeByte s.draws a
        else s.mem.byte a)

/-- R20, R183: the state right after reset: every register 0 but `ID`, the engine `IDLE`, the interrupt low. The build is the model's
choice (log entry 1), and so is that memory lists nothing, every byte being free (log entry 2). -/
def Obligations.ResetStateIsIdle : Prop :=
  (∀ r : Reg, r ≠ .id → State.reset.readReg r = 0#32) ∧ State.reset.readReg .id = 0x00801003#32 ∧
    State.reset.status.busy = false ∧ State.reset.irq = false ∧ State.reset.mem = [] ∧ State.reset.progress = []

/-! ### One step -/

/-- When the engine moves in `RUN` and the latched word decodes to a command, the step is `exec` of that command, at the state
whose list of moves has lost that move; with no move listed the engine moves in `RUN` by itself (log entry 5). After `withFetchWord`
of a command's word the next step is `exec` of it, latched (log entry 9). -/
def Obligations.StepRunsLatchedCommand : Prop :=
  (∀ (s : State) (ts : List Turn) (i : Instr), s.status.busy = true → decode s.cfg.variant s.latch.cmd = .ok i →
    s.turns = Turn.engine :: ts → step s = exec i { s with turns := ts }) ∧
  (∀ (s : State) (i : Instr), s.status.busy = true → decode s.cfg.variant s.latch.cmd = .ok i →
    s.turns = [] → step s = exec i s) ∧
  (∀ (s : State) (i : Instr), i.wf s.cfg.variant = true →
    step (s.withFetchWord 32 (encode i).toNat) = exec i (s.latchCommand (encode i)))

/-- R7, R58, R160, R180: what the other moves do, and that a step uses up the first move listed; with no move listed the host moves in
`IDLE`. The list of moves is the model's (log entry 5), and so are a store that completes by itself (log entry 13) and an access as
one step (log entry 7). -/
def Obligations.StepMakesTheMoveListed : Prop :=
  ∀ (s : State) (ts : List Turn),
    (s.turns = Turn.host :: ts → step s = State.hostTurn { s with turns := ts }) ∧
    (∀ x j, s.turns = Turn.access x j :: ts → step s = .next (State.runAccess { s with turns := ts } x j)) ∧
    (s.turns = Turn.drain :: ts → step s = .next (State.drainOne { s with turns := ts })) ∧
    (s.turns = Turn.reset :: ts → step s = .next (State.assertReset { s with turns := ts })) ∧
    (s.turns = Turn.engine :: ts → s.status.busy = false → step s = .next { s with turns := ts }) ∧
    (s.turns = [] → s.status.busy = false → step s = s.hostTurn)

/-- R150: the engine enters `RUN` only by accepting a command the host wrote, which passed its checks; it leaves `RUN` only by the
engine's move or an access that meets a bus error, both with `DONE = 1`, or by reset. (The list of moves is the model's: log entry
5.) -/
def Obligations.PhaseChangesOnlyAsNamed : Prop :=
  ∀ s t : State, step s = .next t →
    (s.status.busy = false → t.status.busy = true →
      startChecks t.cfg t.latch = none ∧ t.cmd = t.latch.cmd ∧ t.progress = [] ∧
      (s.turns = [] ∨ ∃ ts, s.turns = Turn.host :: ts)) ∧
    (s.status.busy = true → t.status.busy = false →
      (t.status.done = true ∧ (s.turns = [] ∨ ∃ ts, s.turns = Turn.engine :: ts)) ∨
      (t.status.done = true ∧ t.status.err = some .bus ∧ ∃ a j ts, s.turns = Turn.access a j :: ts) ∨
      ∃ ts, s.turns = Turn.reset :: ts)

/-- Every step keeps the invariant, from every state that meets it. Its clauses on the hazard windows, the host's variables and its
uncompleted stores are about fields of the model's own (log entries 4, 12, 13). -/
def Obligations.StepKeepsInvariant : Prop :=
  ∀ s t : State, s.Inv → step s = .next t → t.Inv

/-- The reset state of every legal build meets the invariant. -/
def Obligations.ResetMeetsInvariant : Prop :=
  ∀ c : Config, c.wf = true → (State.resetOf c).Inv ∧ (State.resetOf c).InFlight

/-- R37, R57, R58, R62, R122, R185: while a block command runs that was accepted with the host's stores to its buffers complete, every
step (of the host, of its stores, of the engine access by access) keeps each buffer byte at its value at acceptance or, once its
element is in `PROGRESS`, at its final value, and each operand read at its value at acceptance (log entries 4, 7, 13). -/
def Obligations.StepKeepsBuffersTracked : Prop :=
  ∀ s t : State, s.Inv → s.InFlight → step s = .next t → t.InFlight

/-- R122: the memory a block command leaves is a function of the buffers as they were at acceptance, whatever part of it has been
done and whatever the host did in between. It is about a command accepted with the host's stores to its buffers complete
(`w.ordered`, log entry 13); without that its reads are any value (R62, I21). -/
def Obligations.CompletionDependsOnAcceptanceOnly : Prop :=
  ∀ (s : State) (kind : BlockKind) (w : Window) (ws : List Window), s.Inv → s.InFlight →
    s.blockInFlight = some kind → s.windows = w :: ws → w.ordered = true →
    (∀ j, j < elementCount s.cfg → elementOk s.cfg kind s.latch j = true) →
    ∃ t : State, s.engineTurn = .next t ∧ t.status.done = true ∧ t.status.err = none ∧
      (∀ j k, j < elementCount s.cfg → k < elementBytes s.cfg →
        t.mem.byte (elementAddr s.cfg s.latch.dst j + k) =
          (elementStep s.cfg kind s.latch w.before j).byte (elementAddr s.cfg s.latch.dst j + k)) ∧
      (∀ a, inBuffer s.cfg s.latch.dst a = false → t.mem.byte a = s.mem.byte a)

/-! ### The host and memory -/

/-- R13, R52: a 16-bit value lies with its low byte at the lower address, a 32-bit value likewise; a read after a write gives the
value written, and every other byte reads as before. A host's 16-bit store writes bits [15:0] of its value, a 32-bit store all of
it. -/
def Obligations.LittleEndianMemory : Prop :=
  (∀ (m : Memory) (a : Nat) (v : Word),
    m.store .half a v = m.write16 a (v.extractLsb' 0 16) ∧ m.store .word a v = m.write32 a v) ∧
  (∀ (m : Memory) (a : Nat) (v : Half),
    (m.write16 a v).read16 a = v ∧ (m.write16 a v).byte a = v.extractLsb' 0 8 ∧
    (m.write16 a v).byte (a + 1) = v.extractLsb' 8 8 ∧
    ∀ b, b < a ∨ a + 2 ≤ b → (m.write16 a v).byte b = m.byte b) ∧
  (∀ (m : Memory) (a : Nat) (v : Word),
    (m.write32 a v).read32 a = v ∧ (m.write32 a v).byte a = v.extractLsb' 0 8 ∧
    (m.write32 a v).byte (a + 1) = v.extractLsb' 8 8 ∧ (m.write32 a v).byte (a + 2) = v.extractLsb' 16 8 ∧
    (m.write32 a v).byte (a + 3) = v.extractLsb' 24 8 ∧
    ∀ b, b < a ∨ a + 4 ≤ b → (m.write32 a v).byte b = m.byte b)

/-- R74, R52, R13, R20: what the host's accesses are. `wr` and `rd` reach the register; `st16` and `st32` are the store at the address,
then the next statement; `ld16` and `ld32` set the variable to the bytes the host reads there, the lowest address lowest, a halfword
zero-extended (log entry 12). An address or a value is a literal or a variable that has been set. That a misaligned load is performed
whole is the model's choice (log entry 22), and so is the count of draws (log entry 3). -/
def Obligations.HostAccessesAsNotated : Prop :=
  ∀ (s : State) (x y : HostExpr) (a v : Word) (t : Nat), s.cfg.wf = true →
    (x = .lit a ∨ ∃ n, x = .var n ∧ Assoc.find? s.host.vars n = some a) →
    (y = .lit v ∨ ∃ n, y = .var n ∧ Assoc.find? s.host.vars n = some v) →
    (∀ r : Reg, s.hostStmt (.wr r y) = thenHostNext (s.writeReg r v) ∧
      s.hostStmt (.rd r t) = .next ((s.afterRead r).hostSet t (s.readReg r))) ∧
    (∀ w : Width, s.hostStmt (.st w x y) = thenHostNext (s.busStore w a.toNat v)) ∧
    (inWindow s.cfg a.toNat 2 = false → a.toNat + 2 ≤ addressSpace → s.cfg.memOk a.toNat 2 = true →
      s.hostStmt (.ld .half x t) = .next
        (State.hostSet { s with draws := s.draws + 1 } t (0#16 ++ s.hostByte (a.toNat + 1) ++ s.hostByte a.toNat))) ∧
    (inWindow s.cfg a.toNat 4 = false → a.toNat + 4 ≤ addressSpace → s.cfg.memOk a.toNat 4 = true →
      s.hostStmt (.ld .word x t) = .next
        (State.hostSet { s with draws := s.draws + 1 } t
          (s.hostByte (a.toNat + 3) ++ s.hostByte (a.toNat + 2) ++ s.hostByte (a.toNat + 1) ++ s.hostByte a.toNat)))

/-- R185: from acceptance until the host reads `DONE = 1`, a host store (to system memory, at an address that answers) that touches
a byte of a buffer of a block command is a fault; a store that touches none is performed, and `CMIX` does not hold the control buffer: a store into it alone is performed. The
commands whose `DONE` is unread are the model's field `windows` (log entry 4). That a misaligned store is performed, and whole, is
the model's choice (log entry 22), and so is that on a `weak` platform a store performed is first buffered (log entry 13). -/
def Obligations.HostStoreIntoHeldBufferFaults : Prop :=
  ∀ (s : State) (wd : Width) (a : Nat) (v : Word), s.cfg.wf = true →
    inWindow s.cfg a wd.bytes = false → a + wd.bytes ≤ addressSpace → s.cfg.memOk a wd.bytes = true →
    ((∃ w ∈ s.windows, ∃ b, a ≤ b ∧ b < a + wd.bytes ∧
        (inBuffer s.cfg w.latch.dst b = true ∨ inBuffer s.cfg w.latch.src b = true ∨
          (w.kind = .crossfade ∧ inBuffer s.cfg w.latch.ctl b = true))) →
      s.busStore wd a v = .fault .bufferHazard) ∧
    ((∀ w ∈ s.windows, ∀ b, a ≤ b → b < a + wd.bytes →
        inBuffer s.cfg w.latch.dst b = false ∧ inBuffer s.cfg w.latch.src b = false ∧
          (w.kind = .crossfade → inBuffer s.cfg w.latch.ctl b = false)) →
      s.busStore wd a v = .next (s.storeMem wd a v)) ∧
    (∀ w, s.windows = [w] → w.kind = .constant →
      (∀ b, a ≤ b → b < a + wd.bytes →
        inBuffer s.cfg w.latch.ctl b = true ∧ inBuffer s.cfg w.latch.dst b = false ∧
          inBuffer s.cfg w.latch.src b = false) →
      s.busStore wd a v = .next (s.storeMem wd a v))

/-- R185, R57, R157: under one hazard window, of a command accepted with the host's stores complete, a host load of a byte of the
destination buffer gets its value at acceptance or its final value, the same choice for every byte of one element; of any other
byte, the value there. Of a command that failed its start checks, which wrote nothing, the model's window has no choice and counts
as accepted with the host's stores complete even where one was outstanding: a load gets what memory holds, which is the model's
choice (log entry 4). The window and the host's uncompleted stores and stale ranges are the model's fields (log entries 4, 13). -/
def Obligations.HostLoadRacesPerElement : Prop :=
  ∀ (s : State) (w : Window), s.windows = [w] → w.ordered = true → s.host.pending = [] → s.host.stale = [] →
    (∀ a, inBuffer s.cfg w.latch.dst a = false → s.hostByte a = s.mem.byte a) ∧
    (blockChecks s.cfg w.kind w.latch ≠ none → ∀ a, s.hostByte a = s.mem.byte a) ∧
    (blockChecks s.cfg w.kind w.latch = none → ∀ j, j < elementCount s.cfg → s.cfg.wf = true →
      (∀ k, k < elementBytes s.cfg →
        s.hostByte (elementAddr s.cfg w.latch.dst j + k) = w.before.byte (elementAddr s.cfg w.latch.dst j + k)) ∨
      (∀ k, k < elementBytes s.cfg →
        s.hostByte (elementAddr s.cfg w.latch.dst j + k) =
          if s.blockInFlight.isSome then
            (elementStep s.cfg w.kind w.latch w.before j).byte (elementAddr s.cfg w.latch.dst j + k)
          else s.mem.byte (elementAddr s.cfg w.latch.dst j + k)))

/-- R57, R54, R185: whatever hazard windows are open, of commands accepted with the host's stores complete, a host load never sees
part of an engine write. The bytes of an aligned element (a halfword on `NARROW`, a word on `WIDE`) are all what memory holds, or all
what it held when one of the commands was accepted, or all what the running command writes there. The windows and the host's
uncompleted stores and stale ranges are the model's fields (log entries 4, 13). -/
def Obligations.HostLoadsDoNotTear : Prop :=
  ∀ (s : State) (x : Nat), s.cfg.wf = true → (∀ w ∈ s.windows, w.ordered = true) → s.host.pending = [] →
    s.host.stale = [] → x % elementBytes s.cfg = 0 →
    (∀ k, k < elementBytes s.cfg → s.hostByte (x + k) = s.mem.byte (x + k)) ∨
    (∃ w ∈ s.windows, ∀ k, k < elementBytes s.cfg → s.hostByte (x + k) = w.before.byte (x + k)) ∨
    (∃ w ws j, s.windows = w :: ws ∧ s.blockInFlight.isSome = true ∧ x = elementAddr s.cfg w.latch.dst j ∧
      ∀ k, k < elementBytes s.cfg → s.hostByte (x + k) = (elementStep s.cfg w.kind w.latch w.before j).byte (x + k))

/-- R62, R66, R186: after a host read of `STATUS` that returned `DONE = 1`, with no host store outstanding and nothing stale before,
every host load gets what memory holds, the engine's writes among it: on an `ordered` platform at once; on a `weak` one at once for a byte of no destination buffer, and for every byte after the
host's invalidate, before which a byte of a destination buffer may be any value. That the one read ends the hazard of every earlier
command is the model's reading (log entry 20); the two platforms, and an invalidate without a range, are its choice (log entry 13). -/
def Obligations.DoneReadMakesMemoryVisible : Prop :=
  ∀ s : State, s.status.done = true → s.host.pending = [] → s.host.stale = [] →
    ∃ t : State, s.afterRead .status = t ∧ t.windows = [] ∧ t.mem = s.mem ∧
      (s.cfg.platform = .ordered → ∀ a, t.hostByte a = s.mem.byte a) ∧
      (s.cfg.platform = .weak → s.cfg.wf = true →
        (∀ a, (∀ w ∈ s.windows, inBuffer s.cfg w.latch.dst a = false) → t.hostByte a = s.mem.byte a) ∧
        (∀ a, (∃ w ∈ s.windows, inBuffer s.cfg w.latch.dst a = true) → t.hostByte a = Config.freeByte t.draws a) ∧
        t.hostStmt .invalidate = .next t.invalidate.hostNext ∧ t.invalidate.mem = s.mem ∧
        ∀ a, t.invalidate.hostByte a = s.mem.byte a)

/-- R62, R63: on an `ordered` platform a host store outside the window and the held buffers is in memory when its statement is done;
on a `weak` one it is there after the host's barrier, behind the stores before it. Uncompleted stores complete one by one, oldest
first, each entering memory and changing nothing else; the barrier completes all of them. The two platforms are the model's choice (log entry
13), and so is that a misaligned store is performed whole (log entry 22). -/
def Obligations.HostStoresComplete : Prop :=
  (∀ s : State, (s.host.pending = [] → s.drainOne = s ∧ s.drainAll = s) ∧
    (∀ p ps, s.host.pending = p :: ps →
      s.drainOne = { s with mem := s.mem.store p.width p.addr p.value, host := { s.host with pending := ps } } ∧
      s.drainAll = s.drainOne.drainAll) ∧
    s.hostStmt .barrier = .next s.drainAll.hostNext) ∧
  ∀ (s : State) (wd : Width) (a : Nat) (v : Word), inWindow s.cfg a wd.bytes = false →
    a + wd.bytes ≤ addressSpace → s.cfg.memOk a wd.bytes = true → s.hazard a wd.bytes = false →
    ∃ t : State, s.busStore wd a v = .next t ∧
      (s.cfg.platform = .ordered → t.mem = s.mem.store wd a v ∧ t.host = s.host) ∧
      (s.cfg.platform = .weak → t.mem = s.mem ∧ t.drainAll.mem = s.drainAll.mem.store wd a v ∧
        t.drainAll.host.pending = [] ∧ t.hostStmt .barrier = .next t.drainAll.hostNext)

/-- R62, R63, I21: a block command that is accepted while host stores to its buffers have not completed runs. Its reads of the bytes
those stores have not reached are any value, one for each operand, whatever memory has become by then (the stores complete in their
own time); every other read is memory's. How the free values are drawn is the model's choice (log entry 13). -/
def Obligations.UnorderedStartReadsFree : Prop :=
  ∀ (s : State) (i : Instr) (kind : BlockKind), s.status.busy = false → blockKindOf i = some kind →
    startChecks s.cfg (s.latchOf (encode i)) = none →
    ∃ t : State, s.writeReg .cmd (encode i) = .next t ∧ t.status.busy = true ∧ t.latch = s.latchOf (encode i) ∧
      t.host = s.host ∧ t.res = s.res ∧ t.mem = s.mem ∧ t.fetched = Fetched.empty ∧
      (∀ p ∈ s.host.pending, meetsBuffers s.cfg kind (s.latchOf (encode i)) p.addr p.width.bytes = true →
        ∀ a, p.addr ≤ a → a < p.addr + p.width.bytes →
          ∀ (o : Operand) (m : Memory), engineByte m t.unseen o a = Config.freeByte (s.draws + o.index) a) ∧
      (∀ a, (∀ p ∈ s.host.pending, meetsBuffers s.cfg kind (s.latchOf (encode i)) p.addr p.width.bytes = true →
        a < p.addr ∨ p.addr + p.width.bytes ≤ a) →
          ∀ (o : Operand) (m : Memory), engineByte m t.unseen o a = m.byte a)

/-- R74, R71: a command mnemonic of the host notation is the write of its word to `CMD`, for every command, and that is a write of
the register port. -/
def Obligations.MnemonicWritesCmd : Prop :=
  ∀ (s : State) (i : Instr), s.cfg.wf = true →
    s.hostStmt (.command i) = s.hostStmt (.wr .cmd (.lit (encode i))) ∧
    s.hostStmt (.command i) = thenHostNext (s.writeReg .cmd (encode i))

/-- R75: one round of `wait`, wherever its loop stands in a program whose earlier statements do not have its label, reads `STATUS` into
the variable and goes on past the loop exactly when `DONE = 1`, for an error completion too; the loops of the other pseudo-instructions
are such. (With two equal labels a `goto` reaches the first: log entry 12.) -/
def Obligations.WaitEndsOnDone : Prop :=
  (∀ (s : State) (before after : List HostStmt) (l t : Nat), s.cfg.wf = true →
    s.host.prog = before ++ pseudoWait l t ++ after → HostStmt.label l ∉ before → s.host.pc = before.length + 1 →
    ∃ u v : State, s.hostTurn = .next u ∧ u.hostTurn = .next v ∧
      Assoc.find? v.host.vars t = some s.status.toWord ∧ v.host.prog = s.host.prog ∧
      (s.status.done = true → v.host.pc = before.length + 3) ∧
      (s.status.done = false → v.host.pc = before.length)) ∧
  (∀ (d s k : HostExpr) (i : Instr) (l t r : Nat),
    (∃ before, HostStmt.label l ∉ before ∧ pseudoMixC d s l t = before ++ pseudoWait l t) ∧
    (∃ before, HostStmt.label l ∉ before ∧ pseudoMixX d s k l t = before ++ pseudoWait l t) ∧
    (∃ before after, HostStmt.label l ∉ before ∧ pseudoResult i l t r = before ++ pseudoWait l t ++ after) ∧
    (∃ before after, HostStmt.label l ∉ before ∧ pseudoMix1C d s l t r = before ++ pseudoWait l t ++ after) ∧
    (∃ before after, HostStmt.label l ∉ before ∧ pseudoMix1X d s k l t r = before ++ pseudoWait l t ++ after) ∧
    (∃ before after, HostStmt.label l ∉ before ∧ pseudoPmix2C d s l t r = before ++ pseudoWait l t ++ after) ∧
    (∃ before after, HostStmt.label l ∉ before ∧ pseudoPmix2X d s k l t r = before ++ pseudoWait l t ++ after))
end

