-- ==== Sys2Proof/Laws/Assoc.lean ====
section
/-!
SUPPORT. The laws of sparse data: a read after a write, and that writing keeps the canonical form.
-/

namespace Sys2Proof.Machine

variable {α : Type}

theorem Assoc.find?_put_same (l : List (Nat × α)) (k : Nat) (v : α) :
    Assoc.find? (Assoc.put l k v) k = some v := by
  induction l with
  | nil => simp [Assoc.put, Assoc.find?]
  | cons p rest ih =>
    obtain ⟨j, w⟩ := p
    simp only [Assoc.put]
    split
    · simp [Assoc.find?]
    · split
      · simp [Assoc.find?]
      · rename_i h1 h2
        simp [Assoc.find?, show ¬ j = k by omega, ih]

theorem Assoc.find?_put_other (l : List (Nat × α)) {k i : Nat} (v : α) (h : i ≠ k) :
    Assoc.find? (Assoc.put l k v) i = Assoc.find? l i := by
  induction l with
  | nil => simp [Assoc.put, Assoc.find?, Ne.symm h]
  | cons p rest ih =>
    obtain ⟨j, w⟩ := p
    simp only [Assoc.put]
    split
    · simp [Assoc.find?, Ne.symm h]
    · split
      · rename_i h2
        subst h2
        simp [Assoc.find?, Ne.symm h]
      · simp [Assoc.find?, ih]

theorem Assoc.find?_put (l : List (Nat × α)) (k i : Nat) (v : α) :
    Assoc.find? (Assoc.put l k v) i = if i = k then some v else Assoc.find? l i := by
  split
  · next h => subst h; exact Assoc.find?_put_same l i v
  · next h => exact Assoc.find?_put_other l v h

theorem Assoc.rising_mono {high low low' : Nat} {l : List (Nat × α)} (h : Assoc.rising high low l = true)
    (hle : low' ≤ low) : Assoc.rising high low' l = true := by
  cases l with
  | nil => rfl
  | cons p rest =>
    obtain ⟨j, w⟩ := p
    simp only [Assoc.rising, Bool.and_eq_true, decide_eq_true_eq] at h ⊢
    exact ⟨⟨by omega, h.1.2⟩, h.2⟩

theorem Assoc.rising_high {high high' low : Nat} {l : List (Nat × α)} (h : Assoc.rising high low l = true)
    (hle : high ≤ high') : Assoc.rising high' low l = true := by
  induction l generalizing low with
  | nil => rfl
  | cons p rest ih =>
    obtain ⟨j, w⟩ := p
    simp only [Assoc.rising, Bool.and_eq_true, decide_eq_true_eq] at h ⊢
    exact ⟨⟨h.1.1, by omega⟩, ih h.2⟩

theorem Assoc.rising_put {high low k : Nat} {l : List (Nat × α)} (v : α) (h : Assoc.rising high low l = true)
    (hlow : low ≤ k) (hhigh : k < high) : Assoc.rising high low (Assoc.put l k v) = true := by
  induction l generalizing low with
  | nil => simp [Assoc.put, Assoc.rising, hlow, hhigh]
  | cons p rest ih =>
    obtain ⟨j, w⟩ := p
    simp only [Assoc.rising, Bool.and_eq_true, decide_eq_true_eq] at h
    simp only [Assoc.put]
    split
    · simp only [Assoc.rising, Bool.and_eq_true, decide_eq_true_eq]
      exact ⟨⟨hlow, hhigh⟩, ⟨by omega, h.1.2⟩, h.2⟩
    · split
      · next h2 =>
        subst h2
        simp only [Assoc.rising, Bool.and_eq_true, decide_eq_true_eq]
        exact h
      · simp only [Assoc.rising, Bool.and_eq_true, decide_eq_true_eq]
        exact ⟨h.1, ih h.2 (by omega)⟩

theorem Assoc.find?_below {high low i : Nat} {l : List (Nat × α)} (h : Assoc.rising high low l = true) (hi : i < low) :
    Assoc.find? l i = none := by
  induction l generalizing low with
  | nil => rfl
  | cons p rest ih =>
    obtain ⟨j, w⟩ := p
    simp only [Assoc.rising, Bool.and_eq_true, decide_eq_true_eq] at h
    simp only [Assoc.find?]
    rw [if_neg (by omega)]
    exact ih h.2 (by omega)

/-- Two lists in canonical form that list the same values are the same list. -/
theorem Assoc.rising_ext {high low : Nat} {l m : List (Nat × α)} (hl : Assoc.rising high low l = true)
    (hm : Assoc.rising high low m = true) (h : ∀ i, Assoc.find? l i = Assoc.find? m i) : l = m := by
  induction l generalizing low m with
  | nil =>
    cases m with
    | nil => rfl
    | cons q rest => exact absurd (h q.1) (by simp [Assoc.find?])
  | cons p rest ih =>
    obtain ⟨j, w⟩ := p
    cases m with
    | nil => exact absurd (h j) (by simp [Assoc.find?])
    | cons q rest' =>
      obtain ⟨k, x⟩ := q
      simp only [Assoc.rising, Bool.and_eq_true, decide_eq_true_eq] at hl hm
      have hjk : j = k := by
        rcases Nat.lt_trichotomy j k with hlt | heq | hgt
        · have := h j
          rw [Assoc.find?, if_pos rfl, Assoc.find?, if_neg (by omega),
            Assoc.find?_below hm.2 (by omega)] at this
          simp at this
        · exact heq
        · have := h k
          rw [Assoc.find?, if_neg (by omega), Assoc.find?_below hl.2 (by omega), Assoc.find?, if_pos rfl] at this
          simp at this
      subst hjk
      have hw : w = x := by simpa [Assoc.find?] using h j
      subst hw
      have hrest : rest = rest' := by
        refine ih hl.2 hm.2 fun i => ?_
        by_cases hi : j = i
        · subst hi
          rw [Assoc.find?_below hl.2 (by omega), Assoc.find?_below hm.2 (by omega)]
        · simpa [Assoc.find?, hi] using h i
      rw [hrest]

theorem Assoc.mem_insert (l : List Nat) (k i : Nat) : i ∈ Assoc.insert l k ↔ i = k ∨ i ∈ l := by
  induction l with
  | nil => simp [Assoc.insert]
  | cons j rest ih =>
    simp only [Assoc.insert]
    split
    · simp
    · split
      · next h => subst h; simp
      · simp only [List.mem_cons, ih]; tauto

theorem Assoc.risingSet_insert {high low k : Nat} {l : List Nat} (h : Assoc.risingSet high low l = true)
    (hlow : low ≤ k) (hhigh : k < high) : Assoc.risingSet high low (Assoc.insert l k) = true := by
  induction l generalizing low with
  | nil => simp [Assoc.insert, Assoc.risingSet, hlow, hhigh]
  | cons j rest ih =>
    simp only [Assoc.risingSet, Bool.and_eq_true, decide_eq_true_eq] at h
    simp only [Assoc.insert]
    split
    · simp only [Assoc.risingSet, Bool.and_eq_true, decide_eq_true_eq]
      exact ⟨⟨hlow, hhigh⟩, ⟨by omega, h.1.2⟩, h.2⟩
    · split
      · simp only [Assoc.risingSet, Bool.and_eq_true, decide_eq_true_eq]
        exact h
      · simp only [Assoc.risingSet, Bool.and_eq_true, decide_eq_true_eq]
        exact ⟨h.1, ih h.2 (by omega)⟩

theorem Assoc.risingSet_mem {high low i : Nat} {l : List Nat} (h : Assoc.risingSet high low l = true) (hi : i ∈ l) :
    low ≤ i ∧ i < high := by
  induction l generalizing low with
  | nil => simp at hi
  | cons j rest ih =>
    simp only [Assoc.risingSet, Bool.and_eq_true, decide_eq_true_eq] at h
    rcases List.mem_cons.mp hi with rfl | hr
    · exact h.1
    · have := ih h.2 hr
      omega

theorem Assoc.risingSet_range' (high low n : Nat) (h : low + n ≤ high) :
    Assoc.risingSet high low (List.range' low n) = true := by
  induction n generalizing low with
  | zero => rfl
  | succ n ih =>
    simp only [List.range', Assoc.risingSet, Bool.and_eq_true, decide_eq_true_eq]
    exact ⟨⟨by omega, by omega⟩, ih (low + 1) (by omega)⟩

theorem Assoc.risingSet_range (n : Nat) : Assoc.risingSet n 0 (List.range n) = true := by
  rw [List.range_eq_range']
  exact Assoc.risingSet_range' n 0 n (by omega)

end Sys2Proof.Machine
end

