-- ==== Sys2Proof/Laws/Memory.lean ====
section
/-!
SUPPORT. The laws of system memory: what one byte reads as after each write, that every write keeps the canonical form,
and that equal memories are equal data.
-/

namespace Sys2Proof.Machine

theorem Memory.byte_put (m : Memory) (a i : Nat) (v : Byte) :
    (m.put a v).byte i = if i = a then v else m.byte i := by
  unfold Memory.byte Memory.put
  rw [Assoc.find?_put]
  split <;> simp

@[simp] theorem Memory.byte_put_same (m : Memory) (a : Nat) (v : Byte) : (m.put a v).byte a = v := by
  simp [Memory.byte_put]

theorem Memory.byte_put_other (m : Memory) {a i : Nat} (v : Byte) (h : i ≠ a) : (m.put a v).byte i = m.byte i := by
  simp [Memory.byte_put, h]

theorem Memory.wf_nil : Memory.wf [] = true := rfl

theorem Memory.wf_put {m : Memory} {a : Nat} (v : Byte) (h : m.wf = true) (ha : a < addressSpace) :
    (m.put a v).wf = true := Assoc.rising_put v h (Nat.zero_le _) ha

/-- The byte at `i` after a 2-byte write. -/
theorem Memory.byte_write16 (m : Memory) (a i : Nat) (v : Half) :
    (m.write16 a v).byte i =
      if i = a + 1 then v.extractLsb' 8 8 else if i = a then v.extractLsb' 0 8 else m.byte i := by
  simp only [Memory.write16, Memory.byte_put]

/-- The byte at `i` after a 4-byte write. -/
theorem Memory.byte_write32 (m : Memory) (a i : Nat) (v : Word) :
    (m.write32 a v).byte i =
      if i = a + 3 then v.extractLsb' 24 8 else if i = a + 2 then v.extractLsb' 16 8
      else if i = a + 1 then v.extractLsb' 8 8 else if i = a then v.extractLsb' 0 8 else m.byte i := by
  simp only [Memory.write32, Memory.byte_put]

theorem Memory.byte_write16_outside (m : Memory) {a i : Nat} (v : Half) (h : i < a ∨ a + 2 ≤ i) :
    (m.write16 a v).byte i = m.byte i := by
  rw [Memory.byte_write16, if_neg (by omega), if_neg (by omega)]

theorem Memory.byte_write32_outside (m : Memory) {a i : Nat} (v : Word) (h : i < a ∨ a + 4 ≤ i) :
    (m.write32 a v).byte i = m.byte i := by
  rw [Memory.byte_write32, if_neg (by omega), if_neg (by omega), if_neg (by omega), if_neg (by omega)]

theorem Memory.wf_write16 {m : Memory} {a : Nat} (v : Half) (h : m.wf = true) (ha : a + 2 ≤ addressSpace) :
    (m.write16 a v).wf = true :=
  Memory.wf_put _ (Memory.wf_put _ h (by omega)) (by omega)

theorem Memory.wf_write32 {m : Memory} {a : Nat} (v : Word) (h : m.wf = true) (ha : a + 4 ≤ addressSpace) :
    (m.write32 a v).wf = true :=
  Memory.wf_put _ (Memory.wf_put _ (Memory.wf_put _ (Memory.wf_put _ h (by omega)) (by omega)) (by omega)) (by omega)

theorem halves_append (v : Half) : v.extractLsb' 8 8 ++ v.extractLsb' 0 8 = v := by
  apply BitVec.eq_of_getLsbD_eq
  intro i hi
  simp only [BitVec.getLsbD_append, BitVec.getLsbD_extractLsb']
  by_cases h : i < 8
  · simp [h]
  · simp only [h, decide_false]
    simp [show i - 8 < 8 by omega, show 8 + (i - 8) = i by omega]

theorem bytes_append (v : Word) :
    v.extractLsb' 24 8 ++ v.extractLsb' 16 8 ++ v.extractLsb' 8 8 ++ v.extractLsb' 0 8 = v := by
  apply BitVec.eq_of_getLsbD_eq
  intro i hi
  simp only [BitVec.getLsbD_append, BitVec.getLsbD_extractLsb']
  by_cases h0 : i < 8
  · simp [h0]
  · by_cases h1 : i < 16
    · simp only [h0, decide_false]
      simp [show i - 8 < 8 by omega, show 8 + (i - 8) = i by omega]
    · by_cases h2 : i < 24
      · simp only [h0, decide_false, show ¬ i - 8 < 8 by omega]
        simp [show i - 8 - 8 < 8 by omega, show 16 + (i - 8 - 8) = i by omega]
      · simp only [h0, decide_false, show ¬ i - 8 < 8 by omega, show ¬ i - 8 - 8 < 8 by omega]
        simp [show i - 8 - 8 - 8 < 8 by omega, show 24 + (i - 8 - 8 - 8) = i by omega]

/-- A 2-byte read after a 2-byte write to the same address gives the value written (R52). -/
@[simp] theorem Memory.read16_write16_same (m : Memory) (a : Nat) (v : Half) : (m.write16 a v).read16 a = v := by
  simp only [Memory.read16, Memory.byte_write16]
  simp only [if_true, show ¬ a = a + 1 by omega, if_false]
  exact halves_append v

/-- A 4-byte read after a 4-byte write to the same address gives the value written (R52). -/
@[simp] theorem Memory.read32_write32_same (m : Memory) (a : Nat) (v : Word) : (m.write32 a v).read32 a = v := by
  simp only [Memory.read32, Memory.byte_write32]
  simp only [if_true, show ¬ a = a + 3 by omega, show ¬ a = a + 2 by omega, show ¬ a = a + 1 by omega,
    show ¬ a + 1 = a + 3 by omega, show ¬ a + 1 = a + 2 by omega, show ¬ a + 2 = a + 3 by omega, if_false]
  exact bytes_append v

theorem Memory.read16_congr {m m' : Memory} {a : Nat} (h0 : m.byte a = m'.byte a)
    (h1 : m.byte (a + 1) = m'.byte (a + 1)) : m.read16 a = m'.read16 a := by
  simp only [Memory.read16, h0, h1]

theorem Memory.read32_congr {m m' : Memory} {a : Nat} (h : ∀ i, a ≤ i → i < a + 4 → m.byte i = m'.byte i) :
    m.read32 a = m'.read32 a := by
  simp only [Memory.read32, h a (by omega) (by omega), h (a + 1) (by omega) (by omega),
    h (a + 2) (by omega) (by omega), h (a + 3) (by omega) (by omega)]

/-- The byte at `i` after a range is forgotten. -/
theorem Memory.byte_forget (m : Memory) (d base n i : Nat) :
    (m.forget d base n).byte i = if base ≤ i ∧ i < base + n then Config.freeByte d i else m.byte i := by
  induction n with
  | zero => rw [Memory.forget, if_neg (by omega)]
  | succ n ih =>
    rw [Memory.forget, Memory.byte_put, ih]
    by_cases h : i = base + n
    · subst h
      rw [if_pos rfl, if_pos (by omega)]
    · rw [if_neg h]
      by_cases h2 : base ≤ i ∧ i < base + n
      · rw [if_pos h2, if_pos (by omega)]
      · rw [if_neg h2, if_neg (by omega)]

theorem Memory.wf_forget {m : Memory} (d base n : Nat) (h : m.wf = true) (hn : base + n ≤ addressSpace) :
    (m.forget d base n).wf = true := by
  induction n with
  | zero => exact h
  | succ n ih => exact Memory.wf_put _ (ih (by omega)) (by omega)

/-- Two memories in canonical form that list the same bytes are equal data. -/
theorem Memory.wf_ext {m m' : Memory} (h : m.wf = true) (h' : m'.wf = true)
    (e : ∀ i, Assoc.find? m i = Assoc.find? m' i) : m = m' := Assoc.rising_ext h h' e

end Sys2Proof.Machine
end

