-- ==== Sys2Proof/Laws/Numeric.lean ====
section
/-!
SUPPORT. The laws of the numeric core's primitives (R101, R102), from which the arithmetic laws of R109 to R112 follow.
-/

namespace Sys2Proof.Machine

theorem sat16_range (x : Int) : -32768 ≤ sat16 x ∧ sat16 x ≤ 32767 := by unfold sat16; omega

theorem sat16_of_range {x : Int} (h1 : -32768 ≤ x) (h2 : x ≤ 32767) : sat16 x = x := by unfold sat16; omega

theorem sat16_mono {x y : Int} (h : x ≤ y) : sat16 x ≤ sat16 y := by unfold sat16; omega

/-- In a legal build `G` is 1 to 16 (R5). -/
theorem gainBits_range {c : Config} (h : c.wf = true) : 1 ≤ c.gainBits ∧ c.gainBits ≤ 16 := by
  simp only [Config.wf, Bool.and_eq_true, decide_eq_true_eq] at h
  unfold Config.gainBits
  split <;> omega

theorem unity_pos (c : Config) : 0 < c.unity := by unfold Config.unity; positivity

/-- `U` is twice `2^(G-1)` (R5, R108). -/
theorem unity_eq_double {c : Config} (h : c.wf = true) : c.unity = 2 * 2 ^ (c.gainBits - 1) := by
  have := gainBits_range h
  unfold Config.unity
  rw [← pow_succ', show c.gainBits - 1 + 1 = c.gainBits by omega]

/-- `U` is at most 65536 (R5). -/
theorem unity_le {c : Config} (h : c.wf = true) : c.unity ≤ 65536 := by
  have := gainBits_range h
  unfold Config.unity
  calc (2 : Int) ^ c.gainBits ≤ 2 ^ 16 := pow_le_pow_right₀ (by norm_num) this.2
    _ = 65536 := by norm_num

/-- The shift in terms of `U` and its half. -/
theorem rshift_eq (c : Config) (p : Int) :
    rshift c p = (match c.roundMode with
      | .halfDown => (p + 2 ^ (c.gainBits - 1) - 1) / c.unity
      | .floor => p / c.unity) := rfl

/-- Floor division by a positive divisor: the one integer with its property. -/
theorem floor_iff {p u r : Int} (hu : 0 < u) : p / u = r ↔ 0 ≤ p - r * u ∧ p - r * u < u := by
  rw [Int.ediv_eq_iff_of_pos hu]
  constructor <;> rintro ⟨h1, h2⟩ <;> constructor <;> linarith [Int.add_mul r 1 u]

/-- Both modes shift an exact multiple of `U` to its quotient (R102, R110). -/
theorem rshift_mul_unity {c : Config} (h : c.wf = true) (x : Int) : rshift c (x * c.unity) = x := by
  have hu := unity_pos c
  have hd := unity_eq_double h
  rw [rshift_eq]
  have hh : (0 : Int) < 2 ^ (c.gainBits - 1) := by positivity
  split
  · rw [floor_iff hu]; constructor <;> linarith
  · rw [floor_iff hu]; constructor <;> linarith

/-- Both modes send one half down: the product with `U/2` shifts to the floor of the half (R109). -/
theorem rshift_mul_half {c : Config} (h : c.wf = true) (x : Int) : rshift c (x * 2 ^ (c.gainBits - 1)) = x / 2 := by
  have hu := unity_pos c
  have hd := unity_eq_double h
  have hh : (1 : Int) ≤ 2 ^ (c.gainBits - 1) := by
    have : (0 : Int) < 2 ^ (c.gainBits - 1) := by positivity
    omega
  rw [rshift_eq]
  generalize (2 : Int) ^ (c.gainBits - 1) = v at hh hd ⊢
  have h2 : x = 2 * (x / 2) + x % 2 := by omega
  have hm : x % 2 = 0 ∨ x % 2 = 1 := by omega
  split
  · rw [floor_iff hu, hd]
    rcases hm with hm | hm <;> rw [hm] at h2 <;> constructor <;> nlinarith
  · rw [floor_iff hu, hd]
    rcases hm with hm | hm <;> rw [hm] at h2 <;> constructor <;> nlinarith

/-- The shift keeps the order (R102). -/
theorem rshift_mono (c : Config) {p q : Int} (h : p ≤ q) : rshift c p ≤ rshift c q := by
  have hu := unity_pos c
  rw [rshift_eq, rshift_eq]
  split
  · exact Int.ediv_le_ediv hu (by linarith)
  · exact Int.ediv_le_ediv hu h

end Sys2Proof.Machine
end

