-- ==== Sys2Proof/Laws/Operands.lean ====
section
/-!
SUPPORT. What one element of a block command does to memory, and what a list of elements does.
-/

namespace Sys2Proof.Machine

/-- A byte of the buffer at `b` (R51). -/
theorem inBuffer_iff (c : Config) (b : Word) (a : Nat) :
    inBuffer c b a = true ↔ b.toNat ≤ a ∧ a < b.toNat + blockBytes c := by
  simp only [inBuffer, Bool.and_eq_true, decide_eq_true_eq]

/-- An access that meets the buffer at `b`. -/
theorem meetsBuffer_iff (c : Config) (b : Word) (a n : Nat) :
    meetsBuffer c b a n = true ↔ b.toNat < a + n ∧ a < b.toNat + blockBytes c := by
  simp only [meetsBuffer, Bool.and_eq_true, decide_eq_true_eq]

theorem elementBytes_pos (c : Config) : 0 < elementBytes c := by
  unfold elementBytes; split <;> omega

/-- The elements fit in the buffer (R51, R58). -/
theorem elements_fit (c : Config) : elementBytes c * elementCount c ≤ blockBytes c := by
  unfold elementBytes elementCount blockBytes
  split <;> omega

/-- In a legal build the elements fill the buffer: `BLOCK_N` is even on `WIDE` (R5, R143). -/
theorem elements_fill {c : Config} (h : c.wf = true) : elementBytes c * elementCount c = blockBytes c := by
  simp only [Config.wf, Bool.and_eq_true, Bool.or_eq_true, beq_iff_eq] at h
  unfold elementBytes elementCount blockBytes
  split
  · rfl
  · next hv =>
    have := h.1.2
    simp [hv] at this
    omega

/-- An element ends inside the buffer. -/
theorem element_inside {c : Config} {j : Nat} (hj : j < elementCount c) :
    elementBytes c * j + elementBytes c ≤ blockBytes c := by
  have h1 : elementBytes c * (j + 1) ≤ elementBytes c * elementCount c := Nat.mul_le_mul_left _ hj
  have h2 := elements_fit c
  rw [Nat.mul_add, Nat.mul_one] at h1
  omega

/-- Two elements of a buffer do not meet. -/
theorem elements_apart (c : Config) {i j : Nat} (h : i ≠ j) :
    elementBytes c * i + elementBytes c ≤ elementBytes c * j ∨
    elementBytes c * j + elementBytes c ≤ elementBytes c * i := by
  rcases Nat.lt_or_gt_of_ne h with h | h
  · left
    have := Nat.mul_le_mul_left (elementBytes c) (Nat.succ_le_of_lt h)
    rw [Nat.mul_succ] at this
    exact this
  · right
    have := Nat.mul_le_mul_left (elementBytes c) (Nat.succ_le_of_lt h)
    rw [Nat.mul_succ] at this
    exact this

/-- In a legal build every byte of a buffer is a byte of one of its elements. -/
theorem byte_of_element {c : Config} {b : Word} {a : Nat} (h : c.wf = true) (ha : inBuffer c b a = true) :
    ∃ j k, j < elementCount c ∧ k < elementBytes c ∧ a = elementAddr c b j + k := by
  simp only [inBuffer, Bool.and_eq_true, decide_eq_true_eq] at ha
  have hpos := elementBytes_pos c
  have hfill := elements_fill h
  refine ⟨(a - b.toNat) / elementBytes c, (a - b.toNat) % elementBytes c, ?_, Nat.mod_lt _ hpos, ?_⟩
  · rw [Nat.div_lt_iff_lt_mul hpos, Nat.mul_comm]
    omega
  · have := Nat.div_add_mod (a - b.toNat) (elementBytes c)
    unfold elementAddr
    omega

/-- The engine's write of an element leaves every byte outside it alone. -/
theorem writeElement_outside (c : Config) (l : Latch) (m : Memory) (v : Word) {j a : Nat}
    (h : a < elementAddr c l.dst j ∨ elementAddr c l.dst j + elementBytes c ≤ a) :
    (writeElement c l m j v).byte a = m.byte a := by
  unfold writeElement
  unfold elementBytes at h
  cases hv : c.variant <;> simp only [hv] at h ⊢
  · exact Memory.byte_write16_outside _ _ h
  · exact Memory.byte_write32_outside _ _ h

/-- The bytes of an element after its write do not depend on memory before it. -/
theorem writeElement_inside (c : Config) (l : Latch) (m m' : Memory) (v : Word) (j : Nat) {k : Nat}
    (hk : k < elementBytes c) :
    (writeElement c l m j v).byte (elementAddr c l.dst j + k) =
      (writeElement c l m' j v).byte (elementAddr c l.dst j + k) := by
  unfold writeElement
  unfold elementBytes at hk
  cases hv : c.variant <;> simp only [hv] at hk ⊢
  · rcases (by omega : k = 0 ∨ k = 1) with rfl | rfl <;> simp [Memory.byte_write16]
  · rcases (by omega : k = 0 ∨ k = 1 ∨ k = 2 ∨ k = 3) with rfl | rfl | rfl | rfl <;> simp [Memory.byte_write32]

/-- The engine's write of an element keeps memory in canonical form. -/
theorem writeElement_wf (c : Config) (l : Latch) {m : Memory} {j : Nat} (v : Word) (h : m.wf = true)
    (hj : elementAddr c l.dst j + elementBytes c ≤ addressSpace) : (writeElement c l m j v).wf = true := by
  unfold writeElement
  unfold elementBytes at hj
  cases hv : c.variant <;> simp only [hv] at hj ⊢
  · exact Memory.wf_write16 _ h hj
  · exact Memory.wf_write32 _ h hj

/-- An element leaves every byte outside it alone. -/
theorem finishElement_outside (c : Config) (kind : BlockKind) (l : Latch) (u : Unseen) (f : Fetched) (m : Memory)
    {j a : Nat} (h : a < elementAddr c l.dst j ∨ elementAddr c l.dst j + elementBytes c ≤ a) :
    (finishElement c kind l u f m j).byte a = m.byte a :=
  writeElement_outside c l m _ h

/-- An element keeps memory in canonical form. -/
theorem finishElement_wf (c : Config) (kind : BlockKind) (l : Latch) (u : Unseen) (f : Fetched) {m : Memory} {j : Nat}
    (h : m.wf = true) (hj : elementAddr c l.dst j + elementBytes c ≤ addressSpace) :
    (finishElement c kind l u f m j).wf = true :=
  writeElement_wf c l _ h hj

/-- `CMIX` computes without the control operand. -/
theorem mixElement_constant (c : Config) (a b k k' : Word) :
    mixElement c .constant a b k = mixElement c .constant a b k' := by
  unfold mixElement
  cases c.variant <;> simp only [mixHalf, mixWord, mixSample]

/-- The result of an element is a function of the operands the command uses. -/
theorem mixElement_congr (c : Config) (kind : BlockKind) (g h : Operand → Word)
    (hgh : ∀ o, usesOperand kind o = true → g o = h o) :
    mixElement c kind (g .input0) (g .input1) (g .control) = mixElement c kind (h .input0) (h .input1) (h .control) := by
  rw [hgh .input0 rfl, hgh .input1 rfl]
  cases kind
  · exact mixElement_constant _ _ _ _ _
  · rw [hgh .control rfl]

/-- With nothing unseen the engine reads memory. -/
theorem engineByte_seen {u : Unseen} (h : u.ranges = []) (m : Memory) (o : Operand) (a : Nat) :
    engineByte m u o a = m.byte a := by
  unfold engineByte
  rw [h]
  rfl

/-- What a read of an operand gets depends on the bytes of that element alone. -/
theorem readElement_congr {c : Config} {l : Latch} {u u' : Unseen} {m m' : Memory} {o : Operand} {j : Nat}
    (h : ∀ k, k < elementBytes c →
      engineByte m u o (elementAddr c (l.baseOf o) j + k) = engineByte m' u' o (elementAddr c (l.baseOf o) j + k)) :
    readElement c l u m o j = readElement c l u' m' o j := by
  unfold readElement
  unfold elementBytes at h
  cases hv : c.variant <;> simp only [hv] at h ⊢
  · have h0 := h 0 (by omega)
    rw [Nat.add_zero] at h0
    rw [h0, h 1 (by omega)]
  · have h0 := h 0 (by omega)
    rw [Nat.add_zero] at h0
    rw [h0, h 1 (by omega), h 2 (by omega), h 3 (by omega)]

/-- Memories that agree on what element `j` reads. -/
def agreeOn (c : Config) (kind : BlockKind) (l : Latch) (j : Nat) (m m' : Memory) : Prop :=
  ∀ o, usesOperand kind o = true → ∀ k, k < elementBytes c →
    m.byte (elementAddr c (l.baseOf o) j + k) = m'.byte (elementAddr c (l.baseOf o) j + k)

/-- Reads of memories that agree on an element agree. -/
theorem readElement_agree {c : Config} {kind : BlockKind} {l : Latch} {j : Nat} {m m' : Memory}
    (h : agreeOn c kind l j m m') (u : Unseen) {o : Operand} (ho : usesOperand kind o = true) :
    readElement c l u m o j = readElement c l u m' o j := by
  apply readElement_congr
  intro k hk
  unfold engineByte
  rw [h o ho k hk]

/-- An element writes the same where its operands are the same. -/
theorem finishElement_congr {c : Config} {kind : BlockKind} {l : Latch} {u u' : Unseen} {f f' : Fetched} {j k : Nat}
    {m m' : Memory}
    (h : ∀ o, usesOperand kind o = true → operandOf c l u f m o j = operandOf c l u' f' m' o j)
    (hk : k < elementBytes c) :
    (finishElement c kind l u f m j).byte (elementAddr c l.dst j + k) =
      (finishElement c kind l u' f' m' j).byte (elementAddr c l.dst j + k) := by
  unfold finishElement
  rw [mixElement_congr c kind (fun o => operandOf c l u f m o j) (fun o => operandOf c l u' f' m' o j) h]
  exact writeElement_inside c l m m' _ j hk

/-- An operand that is read now depends on what its element's bytes are (R120, R121, R143). -/
theorem operandOf_agree {c : Config} {kind : BlockKind} {l : Latch} {j : Nat} {m m' : Memory}
    (h : agreeOn c kind l j m m') (u : Unseen) (f : Fetched) {o : Operand} (ho : usesOperand kind o = true) :
    operandOf c l u f m o j = operandOf c l u f m' o j := by
  unfold operandOf
  rw [readElement_agree h u ho]

/-- With nothing read yet, an operand is what the engine reads now. -/
theorem operandOf_empty (c : Config) (l : Latch) (u : Unseen) (m : Memory) (o : Operand) (j : Nat) :
    operandOf c l u Fetched.empty m o j = readElement c l u m o j := by
  cases o <;> rfl

/-- `runElements` is the fold of its elements where none meets a bus error, and none otherwise. -/
theorem runElements_eq (c : Config) (kind : BlockKind) (l : Latch) (u : Unseen) (f : Fetched)
    (js : List Nat) (m : Memory) :
    runElements c kind l u f js m =
      if js.all (elementOk c kind l) then some (js.foldl (finishElement c kind l u f) m) else none := by
  induction js generalizing m with
  | nil => rfl
  | cons j js ih =>
    rw [runElements]
    by_cases hj : elementOk c kind l j = true
    · rw [if_pos hj, ih]
      simp [hj]
    · rw [if_neg hj]
      simp [hj]

/-- The elements leave every byte outside the destination buffer alone (R58, R123). -/
theorem foldl_finishElement_outside (c : Config) (kind : BlockKind) (l : Latch) (u : Unseen) (f : Fetched)
    (js : List Nat) (m : Memory) (hjs : ∀ j ∈ js, j < elementCount c) {a : Nat} (ha : inBuffer c l.dst a = false) :
    (js.foldl (finishElement c kind l u f) m).byte a = m.byte a := by
  induction js generalizing m with
  | nil => rfl
  | cons j js ih =>
    rw [List.foldl_cons, ih _ fun i hi => hjs i (List.mem_cons_of_mem _ hi)]
    apply finishElement_outside
    have := element_inside (hjs j List.mem_cons_self)
    simp only [inBuffer, Bool.and_eq_false_iff, decide_eq_false_iff_not] at ha
    unfold elementAddr
    omega

/-- The elements leave an element that is not among them alone. -/
theorem foldl_finishElement_other (c : Config) (kind : BlockKind) (l : Latch) (u : Unseen) (f : Fetched)
    (js : List Nat) (m : Memory) {i k : Nat}
    (hi : i ∉ js) (hk : k < elementBytes c) :
    (js.foldl (finishElement c kind l u f) m).byte (elementAddr c l.dst i + k) = m.byte (elementAddr c l.dst i + k) := by
  induction js generalizing m with
  | nil => rfl
  | cons j js ih =>
    rw [List.mem_cons, not_or] at hi
    rw [List.foldl_cons, ih _ hi.2]
    apply finishElement_outside
    have := elements_apart c hi.1
    unfold elementAddr
    omega

/-- The elements keep memory in canonical form. -/
theorem foldl_finishElement_wf (c : Config) (kind : BlockKind) (l : Latch) (u : Unseen) (f : Fetched)
    (js : List Nat) {m : Memory} (h : m.wf = true) (hjs : ∀ j ∈ js, j < elementCount c) (hl : l.dst.toNat + blockBytes c ≤ addressSpace) :
    (js.foldl (finishElement c kind l u f) m).wf = true := by
  induction js generalizing m with
  | nil => exact h
  | cons j js ih =>
    rw [List.foldl_cons]
    refine ih ?_ fun i hi => hjs i (List.mem_cons_of_mem _ hi)
    apply finishElement_wf _ _ _ _ _ h
    have := element_inside (hjs j List.mem_cons_self)
    unfold elementAddr
    omega

/-- The destination buffer meets neither the source buffer nor, for `XMIX`, the control buffer. -/
def destinationApart (c : Config) (kind : BlockKind) (l : Latch) : Prop :=
  (∀ a, inBuffer c l.dst a = true → inBuffer c l.src a = false) ∧
  (kind = .crossfade → ∀ a, inBuffer c l.dst a = true → inBuffer c l.ctl a = false)

theorem element_inBuffer {c : Config} (b : Word) {j k : Nat} (hj : j < elementCount c) (hk : k < elementBytes c) :
    inBuffer c b (elementAddr c b j + k) = true := by
  have := element_inside hj
  simp only [inBuffer, Bool.and_eq_true, decide_eq_true_eq]
  unfold elementAddr
  omega

/-- What an element reads is not what other elements wrote (R122). -/
theorem agreeOn_after {c : Config} {kind : BlockKind} {l : Latch} (hap : destinationApart c kind l)
    (u : Unseen) (f : Fetched) (js : List Nat) (m : Memory) {j : Nat} (hj : j < elementCount c) (hjs : ∀ i ∈ js, i < elementCount c) (hn : j ∉ js) :
    agreeOn c kind l j (js.foldl (finishElement c kind l u f) m) m := by
  intro o ho k hk
  have outside : ∀ b : Word, (∀ x, inBuffer c l.dst x = true → inBuffer c b x = false) →
      (js.foldl (finishElement c kind l u f) m).byte (elementAddr c b j + k) = m.byte (elementAddr c b j + k) := by
    intro b hb
    apply foldl_finishElement_outside c kind l u f js m hjs
    by_contra hc
    have h1 := hb _ (Bool.of_not_eq_false hc)
    rw [element_inBuffer b hj hk] at h1
    exact Bool.noConfusion h1
  cases o
  · exact foldl_finishElement_other c kind l u f js m hn hk
  · exact outside l.src hap.1
  · cases kind
    · exact Bool.noConfusion ho
    · exact outside l.ctl (hap.2 rfl)

/-- What each of the elements leaves, whatever their order (R58, R122): the value it computes from the buffers as they were
before all of them. -/
theorem foldl_finishElement_element {c : Config} {kind : BlockKind} {l : Latch} (hap : destinationApart c kind l)
    (u : Unseen) (f : Fetched) (js : List Nat) (m : Memory) (hjs : ∀ i ∈ js, i < elementCount c) (hnd : js.Nodup)
    {j k : Nat} (hj : j ∈ js) (hk : k < elementBytes c) :
    (js.foldl (finishElement c kind l u f) m).byte (elementAddr c l.dst j + k) =
      (finishElement c kind l u f m j).byte (elementAddr c l.dst j + k) := by
  induction js generalizing m with
  | nil => simp at hj
  | cons i js ih =>
    rw [List.foldl_cons]
    rw [List.nodup_cons] at hnd
    have hjs' : ∀ x ∈ js, x < elementCount c := fun x hx => hjs x (List.mem_cons_of_mem _ hx)
    by_cases hij : j = i
    · subst hij
      rw [foldl_finishElement_other c kind l u f js _ hnd.1 hk]
    · have hj' : j ∈ js := (List.mem_cons.mp hj).resolve_left hij
      rw [ih _ hjs' hnd.2 hj']
      have := agreeOn_after hap u f [i] m (hjs' j hj')
        (by intro x hx; rw [List.mem_singleton] at hx; subst hx; exact hjs _ List.mem_cons_self)
        (by simpa using hij)
      exact finishElement_congr (fun o ho => operandOf_agree (by simpa using this) u f ho) hk

end Sys2Proof.Machine
end

