-- ==== Sys2Proof/Laws/State.lean ====
section
/-!
SUPPORT. What each named update of the state does to each field, so that no proof unfolds a record update.
-/

namespace Sys2Proof.Machine

/-! `State.raise` -/

@[simp] theorem State.raise_cfg (s : State) (e : CmdError) : (s.raise e).cfg = s.cfg := rfl
@[simp] theorem State.raise_ie (s : State) (e : CmdError) : (s.raise e).ie = s.ie := rfl
@[simp] theorem State.raise_status (s : State) (e : CmdError) : (s.raise e).status = s.status.failed e := rfl
@[simp] theorem State.raise_cmd (s : State) (e : CmdError) : (s.raise e).cmd = s.cmd := rfl
@[simp] theorem State.raise_dst (s : State) (e : CmdError) : (s.raise e).dst = s.dst := rfl
@[simp] theorem State.raise_src (s : State) (e : CmdError) : (s.raise e).src = s.src := rfl
@[simp] theorem State.raise_ctl (s : State) (e : CmdError) : (s.raise e).ctl = s.ctl := rfl
@[simp] theorem State.raise_opa (s : State) (e : CmdError) : (s.raise e).opa = s.opa := rfl
@[simp] theorem State.raise_opb (s : State) (e : CmdError) : (s.raise e).opb = s.opb := rfl
@[simp] theorem State.raise_opc (s : State) (e : CmdError) : (s.raise e).opc = s.opc := rfl
@[simp] theorem State.raise_res (s : State) (e : CmdError) : (s.raise e).res = s.res := rfl
@[simp] theorem State.raise_latch (s : State) (e : CmdError) : (s.raise e).latch = s.latch := rfl
@[simp] theorem State.raise_progress (s : State) (e : CmdError) : (s.raise e).progress = s.progress := rfl
@[simp] theorem State.raise_fetched (s : State) (e : CmdError) : (s.raise e).fetched = s.fetched := rfl
@[simp] theorem State.raise_unseen (s : State) (e : CmdError) : (s.raise e).unseen = s.unseen := rfl
@[simp] theorem State.raise_mem (s : State) (e : CmdError) : (s.raise e).mem = s.mem := rfl
@[simp] theorem State.raise_windows (s : State) (e : CmdError) : (s.raise e).windows = s.windows := rfl
@[simp] theorem State.raise_host (s : State) (e : CmdError) : (s.raise e).host = s.host := rfl
@[simp] theorem State.raise_turns (s : State) (e : CmdError) : (s.raise e).turns = s.turns := rfl
@[simp] theorem State.raise_draws (s : State) (e : CmdError) : (s.raise e).draws = s.draws := rfl

/-! `State.complete` -/

@[simp] theorem State.complete_cfg (s : State) : (s.complete).cfg = s.cfg := rfl
@[simp] theorem State.complete_ie (s : State) : (s.complete).ie = s.ie := rfl
@[simp] theorem State.complete_status (s : State) : (s.complete).status = s.status.completed := rfl
@[simp] theorem State.complete_cmd (s : State) : (s.complete).cmd = s.cmd := rfl
@[simp] theorem State.complete_dst (s : State) : (s.complete).dst = s.dst := rfl
@[simp] theorem State.complete_src (s : State) : (s.complete).src = s.src := rfl
@[simp] theorem State.complete_ctl (s : State) : (s.complete).ctl = s.ctl := rfl
@[simp] theorem State.complete_opa (s : State) : (s.complete).opa = s.opa := rfl
@[simp] theorem State.complete_opb (s : State) : (s.complete).opb = s.opb := rfl
@[simp] theorem State.complete_opc (s : State) : (s.complete).opc = s.opc := rfl
@[simp] theorem State.complete_res (s : State) : (s.complete).res = s.res := rfl
@[simp] theorem State.complete_latch (s : State) : (s.complete).latch = s.latch := rfl
@[simp] theorem State.complete_progress (s : State) : (s.complete).progress = s.progress := rfl
@[simp] theorem State.complete_fetched (s : State) : (s.complete).fetched = s.fetched := rfl
@[simp] theorem State.complete_unseen (s : State) : (s.complete).unseen = s.unseen := rfl
@[simp] theorem State.complete_mem (s : State) : (s.complete).mem = s.mem := rfl
@[simp] theorem State.complete_windows (s : State) : (s.complete).windows = s.windows := rfl
@[simp] theorem State.complete_host (s : State) : (s.complete).host = s.host := rfl
@[simp] theorem State.complete_turns (s : State) : (s.complete).turns = s.turns := rfl
@[simp] theorem State.complete_draws (s : State) : (s.complete).draws = s.draws := rfl

/-! `State.completeWith` -/

@[simp] theorem State.completeWith_cfg (s : State) (r : Word) : (s.completeWith r).cfg = s.cfg := rfl
@[simp] theorem State.completeWith_ie (s : State) (r : Word) : (s.completeWith r).ie = s.ie := rfl
@[simp] theorem State.completeWith_status (s : State) (r : Word) : (s.completeWith r).status = s.status.completed := rfl
@[simp] theorem State.completeWith_cmd (s : State) (r : Word) : (s.completeWith r).cmd = s.cmd := rfl
@[simp] theorem State.completeWith_dst (s : State) (r : Word) : (s.completeWith r).dst = s.dst := rfl
@[simp] theorem State.completeWith_src (s : State) (r : Word) : (s.completeWith r).src = s.src := rfl
@[simp] theorem State.completeWith_ctl (s : State) (r : Word) : (s.completeWith r).ctl = s.ctl := rfl
@[simp] theorem State.completeWith_opa (s : State) (r : Word) : (s.completeWith r).opa = s.opa := rfl
@[simp] theorem State.completeWith_opb (s : State) (r : Word) : (s.completeWith r).opb = s.opb := rfl
@[simp] theorem State.completeWith_opc (s : State) (r : Word) : (s.completeWith r).opc = s.opc := rfl
@[simp] theorem State.completeWith_res (s : State) (r : Word) : (s.completeWith r).res = r := rfl
@[simp] theorem State.completeWith_latch (s : State) (r : Word) : (s.completeWith r).latch = s.latch := rfl
@[simp] theorem State.completeWith_progress (s : State) (r : Word) : (s.completeWith r).progress = s.progress := rfl
@[simp] theorem State.completeWith_fetched (s : State) (r : Word) : (s.completeWith r).fetched = s.fetched := rfl
@[simp] theorem State.completeWith_unseen (s : State) (r : Word) : (s.completeWith r).unseen = s.unseen := rfl
@[simp] theorem State.completeWith_mem (s : State) (r : Word) : (s.completeWith r).mem = s.mem := rfl
@[simp] theorem State.completeWith_windows (s : State) (r : Word) : (s.completeWith r).windows = s.windows := rfl
@[simp] theorem State.completeWith_host (s : State) (r : Word) : (s.completeWith r).host = s.host := rfl
@[simp] theorem State.completeWith_turns (s : State) (r : Word) : (s.completeWith r).turns = s.turns := rfl
@[simp] theorem State.completeWith_draws (s : State) (r : Word) : (s.completeWith r).draws = s.draws := rfl

/-! `State.busError` -/

@[simp] theorem State.busError_cfg (s : State) : (s.busError).cfg = s.cfg := rfl
@[simp] theorem State.busError_ie (s : State) : (s.busError).ie = s.ie := rfl
@[simp] theorem State.busError_status (s : State) : (s.busError).status = s.status.failed .bus := rfl
@[simp] theorem State.busError_cmd (s : State) : (s.busError).cmd = s.cmd := rfl
@[simp] theorem State.busError_dst (s : State) : (s.busError).dst = s.dst := rfl
@[simp] theorem State.busError_src (s : State) : (s.busError).src = s.src := rfl
@[simp] theorem State.busError_ctl (s : State) : (s.busError).ctl = s.ctl := rfl
@[simp] theorem State.busError_opa (s : State) : (s.busError).opa = s.opa := rfl
@[simp] theorem State.busError_opb (s : State) : (s.busError).opb = s.opb := rfl
@[simp] theorem State.busError_opc (s : State) : (s.busError).opc = s.opc := rfl
@[simp] theorem State.busError_res (s : State) : (s.busError).res = s.res := rfl
@[simp] theorem State.busError_latch (s : State) : (s.busError).latch = s.latch := rfl
@[simp] theorem State.busError_progress (s : State) : (s.busError).progress = s.progress := rfl
@[simp] theorem State.busError_fetched (s : State) : (s.busError).fetched = Fetched.empty := rfl
@[simp] theorem State.busError_unseen (s : State) : (s.busError).unseen = s.unseen := rfl
@[simp] theorem State.busError_mem (s : State) : (s.busError).mem = s.mem.forget s.draws s.latch.dst.toNat (blockBytes s.cfg) := rfl
@[simp] theorem State.busError_windows (s : State) : (s.busError).windows = s.windows := rfl
@[simp] theorem State.busError_host (s : State) : (s.busError).host = s.host := rfl
@[simp] theorem State.busError_turns (s : State) : (s.busError).turns = s.turns := rfl
@[simp] theorem State.busError_draws (s : State) : (s.busError).draws = s.draws + 1 := rfl

/-! `State.latchCommand` -/

@[simp] theorem State.latchCommand_cfg (s : State) (w : Word) : (s.latchCommand w).cfg = s.cfg := rfl
@[simp] theorem State.latchCommand_ie (s : State) (w : Word) : (s.latchCommand w).ie = s.ie := rfl
@[simp] theorem State.latchCommand_status (s : State) (w : Word) : (s.latchCommand w).status = s.status.accepted := rfl
@[simp] theorem State.latchCommand_cmd (s : State) (w : Word) : (s.latchCommand w).cmd = w := rfl
@[simp] theorem State.latchCommand_dst (s : State) (w : Word) : (s.latchCommand w).dst = s.dst := rfl
@[simp] theorem State.latchCommand_src (s : State) (w : Word) : (s.latchCommand w).src = s.src := rfl
@[simp] theorem State.latchCommand_ctl (s : State) (w : Word) : (s.latchCommand w).ctl = s.ctl := rfl
@[simp] theorem State.latchCommand_opa (s : State) (w : Word) : (s.latchCommand w).opa = s.opa := rfl
@[simp] theorem State.latchCommand_opb (s : State) (w : Word) : (s.latchCommand w).opb = s.opb := rfl
@[simp] theorem State.latchCommand_opc (s : State) (w : Word) : (s.latchCommand w).opc = s.opc := rfl
@[simp] theorem State.latchCommand_res (s : State) (w : Word) : (s.latchCommand w).res = s.res := rfl
@[simp] theorem State.latchCommand_latch (s : State) (w : Word) : (s.latchCommand w).latch = s.latchOf w := rfl
@[simp] theorem State.latchCommand_progress (s : State) (w : Word) : (s.latchCommand w).progress = [] := rfl
@[simp] theorem State.latchCommand_fetched (s : State) (w : Word) : (s.latchCommand w).fetched = Fetched.empty := rfl
@[simp] theorem State.latchCommand_unseen (s : State) (w : Word) : (s.latchCommand w).unseen = s.unseenBy w := rfl
@[simp] theorem State.latchCommand_mem (s : State) (w : Word) : (s.latchCommand w).mem = s.mem := rfl
@[simp] theorem State.latchCommand_windows (s : State) (w : Word) : (s.latchCommand w).windows = openWindow s.cfg (s.latchOf w) (!s.unordered w) s.mem s.windows := rfl
@[simp] theorem State.latchCommand_host (s : State) (w : Word) : (s.latchCommand w).host = s.host := rfl
@[simp] theorem State.latchCommand_turns (s : State) (w : Word) : (s.latchCommand w).turns = s.turns := rfl
@[simp] theorem State.latchCommand_draws (s : State) (w : Word) : (s.latchCommand w).draws = s.draws + 3 * (s.strayStores w).length := rfl

/-! `State.closeWindows` -/

@[simp] theorem State.closeWindows_cfg (s : State) : (s.closeWindows).cfg = s.cfg := rfl
@[simp] theorem State.closeWindows_ie (s : State) : (s.closeWindows).ie = s.ie := rfl
@[simp] theorem State.closeWindows_status (s : State) : (s.closeWindows).status = s.status := rfl
@[simp] theorem State.closeWindows_cmd (s : State) : (s.closeWindows).cmd = s.cmd := rfl
@[simp] theorem State.closeWindows_dst (s : State) : (s.closeWindows).dst = s.dst := rfl
@[simp] theorem State.closeWindows_src (s : State) : (s.closeWindows).src = s.src := rfl
@[simp] theorem State.closeWindows_ctl (s : State) : (s.closeWindows).ctl = s.ctl := rfl
@[simp] theorem State.closeWindows_opa (s : State) : (s.closeWindows).opa = s.opa := rfl
@[simp] theorem State.closeWindows_opb (s : State) : (s.closeWindows).opb = s.opb := rfl
@[simp] theorem State.closeWindows_opc (s : State) : (s.closeWindows).opc = s.opc := rfl
@[simp] theorem State.closeWindows_res (s : State) : (s.closeWindows).res = s.res := rfl
@[simp] theorem State.closeWindows_latch (s : State) : (s.closeWindows).latch = s.latch := rfl
@[simp] theorem State.closeWindows_progress (s : State) : (s.closeWindows).progress = s.progress := rfl
@[simp] theorem State.closeWindows_fetched (s : State) : (s.closeWindows).fetched = s.fetched := rfl
@[simp] theorem State.closeWindows_unseen (s : State) : (s.closeWindows).unseen = s.unseen := rfl
@[simp] theorem State.closeWindows_mem (s : State) : (s.closeWindows).mem = s.mem := rfl
@[simp] theorem State.closeWindows_windows (s : State) : (s.closeWindows).windows = [] := rfl
@[simp] theorem State.closeWindows_host (s : State) : (s.closeWindows).host = { s.host with stale := staleAfter s.cfg s.windows s.host.stale } := rfl
@[simp] theorem State.closeWindows_turns (s : State) : (s.closeWindows).turns = s.turns := rfl
@[simp] theorem State.closeWindows_draws (s : State) : (s.closeWindows).draws = s.draws := rfl

/-! `State.hostAt` -/

@[simp] theorem State.hostAt_cfg (s : State) (n : Nat) : (s.hostAt n).cfg = s.cfg := rfl
@[simp] theorem State.hostAt_ie (s : State) (n : Nat) : (s.hostAt n).ie = s.ie := rfl
@[simp] theorem State.hostAt_status (s : State) (n : Nat) : (s.hostAt n).status = s.status := rfl
@[simp] theorem State.hostAt_cmd (s : State) (n : Nat) : (s.hostAt n).cmd = s.cmd := rfl
@[simp] theorem State.hostAt_dst (s : State) (n : Nat) : (s.hostAt n).dst = s.dst := rfl
@[simp] theorem State.hostAt_src (s : State) (n : Nat) : (s.hostAt n).src = s.src := rfl
@[simp] theorem State.hostAt_ctl (s : State) (n : Nat) : (s.hostAt n).ctl = s.ctl := rfl
@[simp] theorem State.hostAt_opa (s : State) (n : Nat) : (s.hostAt n).opa = s.opa := rfl
@[simp] theorem State.hostAt_opb (s : State) (n : Nat) : (s.hostAt n).opb = s.opb := rfl
@[simp] theorem State.hostAt_opc (s : State) (n : Nat) : (s.hostAt n).opc = s.opc := rfl
@[simp] theorem State.hostAt_res (s : State) (n : Nat) : (s.hostAt n).res = s.res := rfl
@[simp] theorem State.hostAt_latch (s : State) (n : Nat) : (s.hostAt n).latch = s.latch := rfl
@[simp] theorem State.hostAt_progress (s : State) (n : Nat) : (s.hostAt n).progress = s.progress := rfl
@[simp] theorem State.hostAt_fetched (s : State) (n : Nat) : (s.hostAt n).fetched = s.fetched := rfl
@[simp] theorem State.hostAt_unseen (s : State) (n : Nat) : (s.hostAt n).unseen = s.unseen := rfl
@[simp] theorem State.hostAt_mem (s : State) (n : Nat) : (s.hostAt n).mem = s.mem := rfl
@[simp] theorem State.hostAt_windows (s : State) (n : Nat) : (s.hostAt n).windows = s.windows := rfl
@[simp] theorem State.hostAt_host (s : State) (n : Nat) : (s.hostAt n).host = { s.host with pc := n } := rfl
@[simp] theorem State.hostAt_turns (s : State) (n : Nat) : (s.hostAt n).turns = s.turns := rfl
@[simp] theorem State.hostAt_draws (s : State) (n : Nat) : (s.hostAt n).draws = s.draws := rfl

/-! `State.hostNext` -/

@[simp] theorem State.hostNext_cfg (s : State) : (s.hostNext).cfg = s.cfg := rfl
@[simp] theorem State.hostNext_ie (s : State) : (s.hostNext).ie = s.ie := rfl
@[simp] theorem State.hostNext_status (s : State) : (s.hostNext).status = s.status := rfl
@[simp] theorem State.hostNext_cmd (s : State) : (s.hostNext).cmd = s.cmd := rfl
@[simp] theorem State.hostNext_dst (s : State) : (s.hostNext).dst = s.dst := rfl
@[simp] theorem State.hostNext_src (s : State) : (s.hostNext).src = s.src := rfl
@[simp] theorem State.hostNext_ctl (s : State) : (s.hostNext).ctl = s.ctl := rfl
@[simp] theorem State.hostNext_opa (s : State) : (s.hostNext).opa = s.opa := rfl
@[simp] theorem State.hostNext_opb (s : State) : (s.hostNext).opb = s.opb := rfl
@[simp] theorem State.hostNext_opc (s : State) : (s.hostNext).opc = s.opc := rfl
@[simp] theorem State.hostNext_res (s : State) : (s.hostNext).res = s.res := rfl
@[simp] theorem State.hostNext_latch (s : State) : (s.hostNext).latch = s.latch := rfl
@[simp] theorem State.hostNext_progress (s : State) : (s.hostNext).progress = s.progress := rfl
@[simp] theorem State.hostNext_fetched (s : State) : (s.hostNext).fetched = s.fetched := rfl
@[simp] theorem State.hostNext_unseen (s : State) : (s.hostNext).unseen = s.unseen := rfl
@[simp] theorem State.hostNext_mem (s : State) : (s.hostNext).mem = s.mem := rfl
@[simp] theorem State.hostNext_windows (s : State) : (s.hostNext).windows = s.windows := rfl
@[simp] theorem State.hostNext_host (s : State) : (s.hostNext).host = { s.host with pc := s.host.pc + 1 } := rfl
@[simp] theorem State.hostNext_turns (s : State) : (s.hostNext).turns = s.turns := rfl
@[simp] theorem State.hostNext_draws (s : State) : (s.hostNext).draws = s.draws := rfl

/-! `State.hostSet` -/

@[simp] theorem State.hostSet_cfg (s : State) (t : Nat) (v : Word) : (s.hostSet t v).cfg = s.cfg := rfl
@[simp] theorem State.hostSet_ie (s : State) (t : Nat) (v : Word) : (s.hostSet t v).ie = s.ie := rfl
@[simp] theorem State.hostSet_status (s : State) (t : Nat) (v : Word) : (s.hostSet t v).status = s.status := rfl
@[simp] theorem State.hostSet_cmd (s : State) (t : Nat) (v : Word) : (s.hostSet t v).cmd = s.cmd := rfl
@[simp] theorem State.hostSet_dst (s : State) (t : Nat) (v : Word) : (s.hostSet t v).dst = s.dst := rfl
@[simp] theorem State.hostSet_src (s : State) (t : Nat) (v : Word) : (s.hostSet t v).src = s.src := rfl
@[simp] theorem State.hostSet_ctl (s : State) (t : Nat) (v : Word) : (s.hostSet t v).ctl = s.ctl := rfl
@[simp] theorem State.hostSet_opa (s : State) (t : Nat) (v : Word) : (s.hostSet t v).opa = s.opa := rfl
@[simp] theorem State.hostSet_opb (s : State) (t : Nat) (v : Word) : (s.hostSet t v).opb = s.opb := rfl
@[simp] theorem State.hostSet_opc (s : State) (t : Nat) (v : Word) : (s.hostSet t v).opc = s.opc := rfl
@[simp] theorem State.hostSet_res (s : State) (t : Nat) (v : Word) : (s.hostSet t v).res = s.res := rfl
@[simp] theorem State.hostSet_latch (s : State) (t : Nat) (v : Word) : (s.hostSet t v).latch = s.latch := rfl
@[simp] theorem State.hostSet_progress (s : State) (t : Nat) (v : Word) : (s.hostSet t v).progress = s.progress := rfl
@[simp] theorem State.hostSet_fetched (s : State) (t : Nat) (v : Word) : (s.hostSet t v).fetched = s.fetched := rfl
@[simp] theorem State.hostSet_unseen (s : State) (t : Nat) (v : Word) : (s.hostSet t v).unseen = s.unseen := rfl
@[simp] theorem State.hostSet_mem (s : State) (t : Nat) (v : Word) : (s.hostSet t v).mem = s.mem := rfl
@[simp] theorem State.hostSet_windows (s : State) (t : Nat) (v : Word) : (s.hostSet t v).windows = s.windows := rfl
@[simp] theorem State.hostSet_host (s : State) (t : Nat) (v : Word) : (s.hostSet t v).host = { s.host with vars := Assoc.put s.host.vars t v, pc := s.host.pc + 1 } := rfl
@[simp] theorem State.hostSet_turns (s : State) (t : Nat) (v : Word) : (s.hostSet t v).turns = s.turns := rfl
@[simp] theorem State.hostSet_draws (s : State) (t : Nat) (v : Word) : (s.hostSet t v).draws = s.draws := rfl

/-! `State.drainAll` -/

@[simp] theorem State.drainAll_cfg (s : State) : (s.drainAll).cfg = s.cfg := rfl
@[simp] theorem State.drainAll_ie (s : State) : (s.drainAll).ie = s.ie := rfl
@[simp] theorem State.drainAll_status (s : State) : (s.drainAll).status = s.status := rfl
@[simp] theorem State.drainAll_cmd (s : State) : (s.drainAll).cmd = s.cmd := rfl
@[simp] theorem State.drainAll_dst (s : State) : (s.drainAll).dst = s.dst := rfl
@[simp] theorem State.drainAll_src (s : State) : (s.drainAll).src = s.src := rfl
@[simp] theorem State.drainAll_ctl (s : State) : (s.drainAll).ctl = s.ctl := rfl
@[simp] theorem State.drainAll_opa (s : State) : (s.drainAll).opa = s.opa := rfl
@[simp] theorem State.drainAll_opb (s : State) : (s.drainAll).opb = s.opb := rfl
@[simp] theorem State.drainAll_opc (s : State) : (s.drainAll).opc = s.opc := rfl
@[simp] theorem State.drainAll_res (s : State) : (s.drainAll).res = s.res := rfl
@[simp] theorem State.drainAll_latch (s : State) : (s.drainAll).latch = s.latch := rfl
@[simp] theorem State.drainAll_progress (s : State) : (s.drainAll).progress = s.progress := rfl
@[simp] theorem State.drainAll_fetched (s : State) : (s.drainAll).fetched = s.fetched := rfl
@[simp] theorem State.drainAll_unseen (s : State) : (s.drainAll).unseen = s.unseen := rfl
@[simp] theorem State.drainAll_mem (s : State) : (s.drainAll).mem = s.host.pending.foldl applyStore s.mem := rfl
@[simp] theorem State.drainAll_windows (s : State) : (s.drainAll).windows = s.windows := rfl
@[simp] theorem State.drainAll_host (s : State) : (s.drainAll).host = { s.host with pending := [] } := rfl
@[simp] theorem State.drainAll_turns (s : State) : (s.drainAll).turns = s.turns := rfl
@[simp] theorem State.drainAll_draws (s : State) : (s.drainAll).draws = s.draws := rfl

/-! `State.invalidate` -/

@[simp] theorem State.invalidate_cfg (s : State) : (s.invalidate).cfg = s.cfg := rfl
@[simp] theorem State.invalidate_ie (s : State) : (s.invalidate).ie = s.ie := rfl
@[simp] theorem State.invalidate_status (s : State) : (s.invalidate).status = s.status := rfl
@[simp] theorem State.invalidate_cmd (s : State) : (s.invalidate).cmd = s.cmd := rfl
@[simp] theorem State.invalidate_dst (s : State) : (s.invalidate).dst = s.dst := rfl
@[simp] theorem State.invalidate_src (s : State) : (s.invalidate).src = s.src := rfl
@[simp] theorem State.invalidate_ctl (s : State) : (s.invalidate).ctl = s.ctl := rfl
@[simp] theorem State.invalidate_opa (s : State) : (s.invalidate).opa = s.opa := rfl
@[simp] theorem State.invalidate_opb (s : State) : (s.invalidate).opb = s.opb := rfl
@[simp] theorem State.invalidate_opc (s : State) : (s.invalidate).opc = s.opc := rfl
@[simp] theorem State.invalidate_res (s : State) : (s.invalidate).res = s.res := rfl
@[simp] theorem State.invalidate_latch (s : State) : (s.invalidate).latch = s.latch := rfl
@[simp] theorem State.invalidate_progress (s : State) : (s.invalidate).progress = s.progress := rfl
@[simp] theorem State.invalidate_fetched (s : State) : (s.invalidate).fetched = s.fetched := rfl
@[simp] theorem State.invalidate_unseen (s : State) : (s.invalidate).unseen = s.unseen := rfl
@[simp] theorem State.invalidate_mem (s : State) : (s.invalidate).mem = s.mem := rfl
@[simp] theorem State.invalidate_windows (s : State) : (s.invalidate).windows = s.windows := rfl
@[simp] theorem State.invalidate_host (s : State) : (s.invalidate).host = { s.host with stale := [] } := rfl
@[simp] theorem State.invalidate_turns (s : State) : (s.invalidate).turns = s.turns := rfl
@[simp] theorem State.invalidate_draws (s : State) : (s.invalidate).draws = s.draws := rfl

/-! `State.inFlight` -/

@[simp] theorem State.inFlight_cfg (s : State) (w : Word) : (s.inFlight w).cfg = s.cfg := rfl
@[simp] theorem State.inFlight_ie (s : State) (w : Word) : (s.inFlight w).ie = s.ie := rfl
@[simp] theorem State.inFlight_status (s : State) (w : Word) : (s.inFlight w).status = s.status.accepted := rfl
@[simp] theorem State.inFlight_cmd (s : State) (w : Word) : (s.inFlight w).cmd = w := rfl
@[simp] theorem State.inFlight_dst (s : State) (w : Word) : (s.inFlight w).dst = s.dst := rfl
@[simp] theorem State.inFlight_src (s : State) (w : Word) : (s.inFlight w).src = s.src := rfl
@[simp] theorem State.inFlight_ctl (s : State) (w : Word) : (s.inFlight w).ctl = s.ctl := rfl
@[simp] theorem State.inFlight_opa (s : State) (w : Word) : (s.inFlight w).opa = s.opa := rfl
@[simp] theorem State.inFlight_opb (s : State) (w : Word) : (s.inFlight w).opb = s.opb := rfl
@[simp] theorem State.inFlight_opc (s : State) (w : Word) : (s.inFlight w).opc = s.opc := rfl
@[simp] theorem State.inFlight_res (s : State) (w : Word) : (s.inFlight w).res = s.res := rfl
@[simp] theorem State.inFlight_latch (s : State) (w : Word) : (s.inFlight w).latch = s.latchOf w := rfl
@[simp] theorem State.inFlight_progress (s : State) (w : Word) : (s.inFlight w).progress = [] := rfl
@[simp] theorem State.inFlight_fetched (s : State) (w : Word) : (s.inFlight w).fetched = Fetched.empty := rfl
@[simp] theorem State.inFlight_unseen (s : State) (w : Word) : (s.inFlight w).unseen = s.unseenBy w := rfl
@[simp] theorem State.inFlight_mem (s : State) (w : Word) : (s.inFlight w).mem = s.mem := rfl
@[simp] theorem State.inFlight_windows (s : State) (w : Word) : (s.inFlight w).windows = openWindow s.cfg (s.latchOf w) (!s.unordered w) s.mem s.windows := rfl
@[simp] theorem State.inFlight_host (s : State) (w : Word) : (s.inFlight w).host = s.host := rfl
@[simp] theorem State.inFlight_turns (s : State) (w : Word) : (s.inFlight w).turns = .engine :: s.turns := rfl
@[simp] theorem State.inFlight_draws (s : State) (w : Word) : (s.inFlight w).draws = s.draws + 3 * (s.strayStores w).length := rfl

/-! `State.assertReset` -/

@[simp] theorem State.assertReset_ie (s : State) : s.assertReset.ie = false := rfl
@[simp] theorem State.assertReset_status (s : State) : s.assertReset.status = Status.zero := rfl
@[simp] theorem State.assertReset_cmd (s : State) : s.assertReset.cmd = 0#32 := rfl
@[simp] theorem State.assertReset_dst (s : State) : s.assertReset.dst = 0#32 := rfl
@[simp] theorem State.assertReset_src (s : State) : s.assertReset.src = 0#32 := rfl
@[simp] theorem State.assertReset_ctl (s : State) : s.assertReset.ctl = 0#32 := rfl
@[simp] theorem State.assertReset_opa (s : State) : s.assertReset.opa = 0#32 := rfl
@[simp] theorem State.assertReset_opb (s : State) : s.assertReset.opb = 0#32 := rfl
@[simp] theorem State.assertReset_opc (s : State) : s.assertReset.opc = 0#32 := rfl
@[simp] theorem State.assertReset_res (s : State) : s.assertReset.res = 0#32 := rfl
@[simp] theorem State.assertReset_latch (s : State) : s.assertReset.latch = Latch.zero := rfl
@[simp] theorem State.assertReset_progress (s : State) : s.assertReset.progress = [] := rfl
@[simp] theorem State.assertReset_fetched (s : State) : s.assertReset.fetched = Fetched.empty := rfl
@[simp] theorem State.assertReset_unseen (s : State) : s.assertReset.unseen = Unseen.nothing := rfl
@[simp] theorem State.assertReset_windows (s : State) : s.assertReset.windows = [] := rfl
@[simp] theorem State.assertReset_mem (s : State) : s.assertReset.mem = s.abandon.mem := rfl
@[simp] theorem State.assertReset_draws (s : State) : s.assertReset.draws = s.abandon.draws := rfl

@[simp] theorem State.abandon_cfg (s : State) : s.abandon.cfg = s.cfg := by unfold State.abandon; split <;> rfl
@[simp] theorem State.abandon_host (s : State) : s.abandon.host = s.host := by unfold State.abandon; split <;> rfl
@[simp] theorem State.abandon_turns (s : State) : s.abandon.turns = s.turns := by unfold State.abandon; split <;> rfl
@[simp] theorem State.abandon_windows (s : State) : s.abandon.windows = s.windows := by
  unfold State.abandon; split <;> rfl

@[simp] theorem State.assertReset_cfg (s : State) : s.assertReset.cfg = s.cfg := s.abandon_cfg
@[simp] theorem State.assertReset_turns (s : State) : s.assertReset.turns = s.turns := s.abandon_turns
@[simp] theorem State.assertReset_host (s : State) :
    s.assertReset.host = { s.host with stale := staleAfter s.cfg s.windows s.host.stale } := by
  simp [State.assertReset]

/-! `STATUS` -/

@[simp] theorem Status.accepted_busy (t : Status) : (t.accepted).busy = true := rfl
@[simp] theorem Status.accepted_done (t : Status) : (t.accepted).done = false := rfl
@[simp] theorem Status.accepted_err (t : Status) : (t.accepted).err = none := rfl
@[simp] theorem Status.accepted_ovr (t : Status) : (t.accepted).ovr = t.ovr := rfl
@[simp] theorem Status.completed_busy (t : Status) : (t.completed).busy = false := rfl
@[simp] theorem Status.completed_done (t : Status) : (t.completed).done = true := rfl
@[simp] theorem Status.completed_err (t : Status) : (t.completed).err = t.err := rfl
@[simp] theorem Status.completed_ovr (t : Status) : (t.completed).ovr = t.ovr := rfl
@[simp] theorem Status.failed_busy (t : Status) (e : CmdError) : (t.failed e).busy = false := rfl
@[simp] theorem Status.failed_done (t : Status) (e : CmdError) : (t.failed e).done = true := rfl
@[simp] theorem Status.failed_err (t : Status) (e : CmdError) : (t.failed e).err = some e := rfl
@[simp] theorem Status.failed_ovr (t : Status) (e : CmdError) : (t.failed e).ovr = t.ovr := rfl
@[simp] theorem Status.overrun_busy (t : Status) : (t.overrun).busy = t.busy := rfl
@[simp] theorem Status.overrun_done (t : Status) : (t.overrun).done = t.done := rfl
@[simp] theorem Status.overrun_err (t : Status) : (t.overrun).err = t.err := rfl
@[simp] theorem Status.overrun_ovr (t : Status) : (t.overrun).ovr = true := rfl

@[simp] theorem Status.writeOneToClear_busy (t : Status) (v : Word) : (t.writeOneToClear v).busy = t.busy := rfl

/-! The state after reset. -/

@[simp] theorem State.resetOf_cfg (c : Config) : (State.resetOf c).cfg = c := rfl
@[simp] theorem State.resetOf_status (c : Config) : (State.resetOf c).status = Status.zero := rfl
@[simp] theorem State.resetOf_mem (c : Config) : (State.resetOf c).mem = [] := rfl

end Sys2Proof.Machine
end

