-- ==== Sys2Proof/Laws/Ops.lean ====
section
/-!
SUPPORT. One lemma for each shared operation of the engine, saying all it can do: the start checks, acceptance, a block
command, one element, reset.
-/

namespace Sys2Proof.Machine

/-- Two buffers overlap (R151). -/
theorem overlaps_iff (c : Config) (x y : Word) :
    overlaps c x y = true ↔ x.toNat ≤ y.toNat + blockBytes c - 1 ∧ y.toNat ≤ x.toNat + blockBytes c - 1 := by
  simp only [overlaps, Bool.and_eq_true, decide_eq_true_eq]

/-- A base that is null or whose range passes the end of the address space (R154). -/
theorem outOfRange_iff (c : Config) (b : Word) :
    outOfRange c b = true ↔ b.toNat = 0 ∨ b.toNat + blockBytes c - 1 > 0xFFFFFFFF := by
  simp only [outOfRange, Bool.or_eq_true, beq_iff_eq, decide_eq_true_eq]

/-- What a block command that passes its checks is known by (R151, R153 to R155). -/
theorem blockChecks_none {c : Config} {kind : BlockKind} {l : Latch} (h : blockChecks c kind l = none) :
    (∀ b ∈ checkedBases kind l, b.toNat % elementBytes c = 0 ∧ b.toNat ≠ 0 ∧ b.toNat + blockBytes c - 1 ≤ 0xFFFFFFFF) ∧
    overlaps c l.dst l.src = false ∧ (kind = .crossfade → overlaps c l.dst l.ctl = false) := by
  unfold blockChecks at h
  split at h
  · cases h
  split at h
  · cases h
  split at h
  · cases h
  next h1 h2 h3 =>
  refine ⟨fun b hb => ⟨?_, ?_, ?_⟩, ?_, ?_⟩
  · by_contra hc
    exact h1 (List.any_eq_true.mpr ⟨b, hb, by simpa using hc⟩)
  · intro hc
    exact h2 (List.any_eq_true.mpr ⟨b, hb, by simp [outOfRange, hc]⟩)
  · by_contra hc
    exact h2 (List.any_eq_true.mpr ⟨b, hb, by simp only [outOfRange, Bool.or_eq_true, decide_eq_true_eq]; right; omega⟩)
  · simp only [Bool.or_eq_true, not_or] at h3
    simpa using h3.1
  · intro hk
    simp only [Bool.or_eq_true, not_or, Bool.and_eq_true] at h3
    simpa [hk] using h3.2

/-- Buffers that do not overlap share no byte (R155). -/
theorem overlaps_false {c : Config} {x y : Word} (h : overlaps c x y = false) {a : Nat}
    (ha : inBuffer c x a = true) : inBuffer c y a = false := by
  simp only [overlaps, Bool.and_eq_false_iff, decide_eq_false_iff_not] at h
  simp only [inBuffer, Bool.and_eq_true, decide_eq_true_eq] at ha
  simp only [inBuffer, Bool.and_eq_false_iff, decide_eq_false_iff_not]
  omega

/-- A command that passes its checks has its destination apart from what it reads (R155). -/
theorem blockChecks_apart {c : Config} {kind : BlockKind} {l : Latch} (h : blockChecks c kind l = none) :
    destinationApart c kind l :=
  ⟨fun _ => overlaps_false (blockChecks_none h).2.1, fun hk _ => overlaps_false ((blockChecks_none h).2.2 hk)⟩

/-- The destination of a command that passes its checks lies inside the address space (R154, R67). -/
theorem blockChecks_inside {c : Config} {kind : BlockKind} {l : Latch} (h : blockChecks c kind l = none) :
    l.dst.toNat + blockBytes c ≤ addressSpace := by
  have hm : l.dst ∈ checkedBases kind l := by cases kind <;> simp [checkedBases]
  have := (blockChecks_none h).1 _ hm
  unfold addressSpace
  omega

/-- A word that decodes to a block command is checked as one (R151). -/
theorem startChecks_block {c : Config} {l : Latch} {i : Instr} {kind : BlockKind} (h : decode c.variant l.cmd = .ok i)
    (hk : blockKindOf i = some kind) : startChecks c l = blockChecks c kind l := by
  simp only [startChecks, h, hk]

/-- The engine runs a block command exactly in `RUN`, with a latched block command that passed its checks. -/
theorem blockInFlight_iff (s : State) (kind : BlockKind) :
    s.blockInFlight = some kind ↔
      s.status.busy = true ∧ (∃ i, decode s.cfg.variant s.latch.cmd = .ok i ∧ blockKindOf i = some kind) ∧
      blockChecks s.cfg kind s.latch = none := by
  unfold State.blockInFlight
  cases hb : s.status.busy with
  | false => simp
  | true =>
    cases hd : decode s.cfg.variant s.latch.cmd with
    | error e => simp
    | ok i =>
      cases hk : blockKindOf i with
      | none => simp [hk]
      | some k =>
        simp only [if_true, hk]
        by_cases hkk : k = kind
        · subst hkk
          cases hc : blockChecks s.cfg k s.latch with
          | some e => simp
          | none => simp [hk]
        · have hne : ¬ ∃ i', (Except.ok i : Except DecodeError Instr) = .ok i' ∧ blockKindOf i' = some kind := by
            rintro ⟨i', hi', hk'⟩
            cases hi'
            rw [hk] at hk'
            exact hkk (Option.some.inj hk')
          constructor
          · intro h
            split at h
            · exact absurd (Option.some.inj h) hkk
            · cases h
          · rintro ⟨-, h, -⟩
            exact absurd h hne

/-- Nothing runs in `IDLE`. -/
theorem blockInFlight_idle {s : State} (h : s.status.busy = false) : s.blockInFlight = none := by
  unfold State.blockInFlight; simp [h]

/-- Whether a block command runs depends on `BUSY`, the build and the latch alone. -/
theorem blockInFlight_congr {s t : State} (hb : t.status.busy = s.status.busy) (hc : t.cfg = s.cfg)
    (hl : t.latch = s.latch) : t.blockInFlight = s.blockInFlight := by
  unfold State.blockInFlight
  rw [hb, hc, hl]

theorem mem_remaining {s : State} {j : Nat} : j ∈ s.remaining ↔ j < elementCount s.cfg ∧ j ∉ s.progress := by
  simp [State.remaining]

theorem remaining_nodup (s : State) : s.remaining.Nodup := List.Nodup.filter _ List.nodup_range

/-- All a block command can do: fail a check, meet a bus error, or complete with its remaining elements mixed. -/
theorem runBlock_cases (s : State) (kind : BlockKind) :
    (∃ e, blockChecks s.cfg kind s.latch = some e ∧ s.runBlock kind = s.raise e) ∨
    (blockChecks s.cfg kind s.latch = none ∧ (∃ j ∈ s.remaining, elementOk s.cfg kind s.latch j = false) ∧
      s.runBlock kind = s.busError) ∨
    (blockChecks s.cfg kind s.latch = none ∧ (∀ j ∈ s.remaining, elementOk s.cfg kind s.latch j = true) ∧
      s.runBlock kind = State.complete
        { s with
          mem := s.remaining.foldl (finishElement s.cfg kind s.latch s.unseen s.fetched) s.mem
          progress := List.range (elementCount s.cfg)
          fetched := Fetched.empty }) := by
  unfold State.runBlock
  cases hc : blockChecks s.cfg kind s.latch with
  | some e => exact .inl ⟨e, rfl, rfl⟩
  | none =>
    right
    rw [runElements_eq]
    by_cases h : s.remaining.all (elementOk s.cfg kind s.latch) = true
    · right
      rw [if_pos h]
      exact ⟨rfl, fun j hj => List.all_eq_true.mp h j hj, rfl⟩
    · left
      rw [if_neg h]
      refine ⟨rfl, ?_, rfl⟩
      by_contra hn
      exact h (List.all_eq_true.mpr fun j hj => Bool.of_not_eq_false fun hf => hn ⟨j, hj, hf⟩)

/-- All one access can do: nothing, a bus error, a read of an operand not read yet, or the write of an element whose operands
have been read. -/
theorem runAccess_cases (s : State) (a : Access) (j : Nat) :
    s.runAccess a j = s ∨
    (∃ kind, s.blockInFlight = some kind ∧ j < elementCount s.cfg ∧ j ∉ s.progress ∧
      (∃ o, usesOperand kind o = true ∧ operandOk s.cfg s.latch o j = false) ∧ s.runAccess a j = s.busError) ∨
    (∃ kind o, s.blockInFlight = some kind ∧ j < elementCount s.cfg ∧ j ∉ s.progress ∧
      a = .read o ∧ usesOperand kind o = true ∧ Assoc.find? (s.fetched.of o) j = none ∧
      s.runAccess a j = { s with fetched := s.fetched.put o j (readElement s.cfg s.latch s.unseen s.mem o j) }) ∨
    (∃ kind, s.blockInFlight = some kind ∧ j < elementCount s.cfg ∧ j ∉ s.progress ∧
      a = .write ∧ s.operandsRead kind j = true ∧
      s.runAccess a j =
        { s with
          mem := finishElement s.cfg kind s.latch s.unseen s.fetched s.mem j
          progress := Assoc.insert s.progress j }) := by
  unfold State.runAccess
  cases hf : s.blockInFlight with
  | none => exact .inl rfl
  | some kind =>
    by_cases hj : (decide (j < elementCount s.cfg) && !s.progress.contains j) = true
    · simp only [hj, if_true]
      simp only [Bool.and_eq_true, decide_eq_true_eq, Bool.not_eq_true', List.contains_eq_mem,
        decide_eq_false_iff_not] at hj
      cases a with
      | read o =>
        simp only [State.readOperand]
        by_cases h1 : (usesOperand kind o && (Assoc.find? (s.fetched.of o) j).isNone) = true
        · rw [if_pos h1]
          simp only [Bool.and_eq_true, Option.isNone_iff_eq_none] at h1
          right
          by_cases h2 : operandOk s.cfg s.latch o j = true
          · right; left
            exact ⟨kind, o, rfl, hj.1, hj.2, by simp, h1.1, h1.2, by rw [if_pos h2]⟩
          · left
            exact ⟨kind, rfl, hj.1, hj.2, ⟨o, h1.1, Bool.of_not_eq_true h2⟩, by rw [if_neg h2]⟩
        · left
          rw [if_neg h1]
      | write =>
        simp only [State.writeResult]
        by_cases h1 : s.operandsRead kind j = true
        · rw [if_pos h1]
          right
          by_cases h2 : operandOk s.cfg s.latch .input0 j = true
          · right; right
            exact ⟨kind, rfl, hj.1, hj.2, by simp, h1, by rw [if_pos h2]⟩
          · left
            exact ⟨kind, rfl, hj.1, hj.2, ⟨.input0, rfl, Bool.of_not_eq_true h2⟩, by rw [if_neg h2]⟩
        · left
          rw [if_neg h1]
    · left
      simp only [hj]
      rfl

/-- Every operand an element needs has been read (R58). -/
theorem operandsRead_iff (s : State) (kind : BlockKind) (j : Nat) :
    s.operandsRead kind j = true ↔
      ∀ o, usesOperand kind o = true → (Assoc.find? (s.fetched.of o) j).isSome = true := by
  simp only [State.operandsRead, List.all_eq_true, Bool.or_eq_true, Bool.not_eq_true']
  constructor
  · intro h o ho
    have := h o (by cases o <;> simp)
    rcases this with h1 | h1
    · rw [ho] at h1
      exact Bool.noConfusion h1
    · exact h1
  · intro h o _
    cases ho : usesOperand kind o
    · exact .inl rfl
    · exact .inr (h o ho)

/-- An operand just read, and the others as they were. -/
theorem Fetched.find?_put (f : Fetched) (o q : Operand) (j i : Nat) (v : Word) :
    Assoc.find? ((f.put o j v).of q) i = if q = o ∧ i = j then some v else Assoc.find? (f.of q) i := by
  cases o <;> cases q <;> simp [Fetched.put, Fetched.of, Assoc.find?_put]

/-- With every host store to the buffers completed, the command's reads see all of memory, and nothing is drawn. -/
theorem unordered_false {s : State} {w : Word} (h : s.unordered w = false) :
    s.strayStores w = [] ∧ s.unseenBy w = Unseen.nothing := by
  unfold State.unseenBy
  rw [h]
  unfold State.unordered at h
  exact ⟨by simpa using h, rfl⟩

/-- A word that fails its checks, and so starts no block command, finds no store outstanding. -/
theorem unordered_failed {s : State} {w : Word} {e : CmdError} (h : startChecks s.cfg (s.latchOf w) = some e) :
    s.unordered w = false := by
  unfold State.unordered State.strayStores
  rw [h]
  rfl

/-- What a read of the command that accepting `w` starts gets: any value of a byte a host store has not reached, whatever
memory has become since, and memory's otherwise (R62, I21). -/
theorem engineByte_unseenBy (s : State) (w : Word) (m : Memory) (o : Operand) (a : Nat) :
    engineByte m (s.unseenBy w) o a =
      if ∃ p ∈ s.strayStores w, p.addr ≤ a ∧ a < p.addr + p.width.bytes then Config.freeByte (s.draws + o.index) a
      else m.byte a := by
  have hw : ∀ x : Width, 0 < x.bytes := by intro x; cases x <;> decide
  unfold State.unseenBy
  cases hu : s.unordered w
  · have hs : s.strayStores w = [] := by
      unfold State.unordered at hu
      simpa using hu
    rw [hs]
    simp [engineByte, Unseen.nothing]
  · have hiff : ((s.strayStores w).map PendingStore.range).any
          (fun r => decide (r.first ≤ a) && decide (a ≤ r.last)) = true ↔
        ∃ p ∈ s.strayStores w, p.addr ≤ a ∧ a < p.addr + p.width.bytes := by
      simp only [List.any_map, List.any_eq_true, Function.comp_apply, Bool.and_eq_true,
        PendingStore.range]
      constructor
      · rintro ⟨p, hp, h1, h2⟩
        have := hw p.width
        have h3 := of_decide_eq_true h2
        exact ⟨p, hp, of_decide_eq_true h1, by omega⟩
      · rintro ⟨p, hp, h1, h2⟩
        exact ⟨p, hp, decide_eq_true h1, decide_eq_true (by omega)⟩
    simp only [if_true, engineByte]
    by_cases h : ∃ p ∈ s.strayStores w, p.addr ≤ a ∧ a < p.addr + p.width.bytes
    · rw [if_pos h, if_pos (hiff.mpr h)]
    · rw [if_neg h, if_neg (fun hc => h (hiff.mp hc))]

/-- All acceptance can do: start the command, or complete it with the error of the check it fails (R157, R161). -/
theorem accept_cases (s : State) (w : Word) :
    (startChecks s.cfg (s.latchOf w) = none ∧ s.accept w = s.latchCommand w) ∨
    (∃ e, startChecks s.cfg (s.latchOf w) = some e ∧ s.accept w = (s.latchCommand w).raise e) := by
  unfold State.accept
  cases h : startChecks s.cfg (s.latchOf w) with
  | none => exact .inl ⟨rfl, rfl⟩
  | some e => exact .inr ⟨e, rfl, rfl⟩

/-- The byte at `a` after a bus error (R156). -/
theorem busError_byte (s : State) (a : Nat) :
    s.busError.mem.byte a =
      if s.latch.dst.toNat ≤ a ∧ a < s.latch.dst.toNat + blockBytes s.cfg then Config.freeByte s.draws a
      else s.mem.byte a := by
  rw [State.busError_mem, Memory.byte_forget]

/-- A bus error keeps memory in canonical form. -/
theorem busError_wf {s : State} (h : s.mem.wf = true) (hl : s.latch.dst.toNat + blockBytes s.cfg ≤ addressSpace) :
    s.busError.mem.wf = true := by
  rw [State.busError_mem]
  exact Memory.wf_forget _ _ _ h hl

/-- A block command keeps memory in canonical form. -/
theorem runBlock_wf {s : State} (kind : BlockKind) (h : s.mem.wf = true) : (s.runBlock kind).mem.wf = true := by
  rcases runBlock_cases s kind with ⟨e, -, he⟩ | ⟨hc, -, he⟩ | ⟨hc, -, he⟩ <;> rw [he]
  · exact h
  · exact busError_wf h (blockChecks_inside hc)
  · exact foldl_finishElement_wf _ _ _ _ _ _ h (fun j hj => (mem_remaining.mp hj).1) (blockChecks_inside hc)

/-- One access keeps memory in canonical form. -/
theorem runAccess_wf {s : State} (a : Access) (j : Nat) (h : s.mem.wf = true) : (s.runAccess a j).mem.wf = true := by
  rcases runAccess_cases s a j with he | ⟨kind, hf, -, -, -, he⟩ | ⟨kind, o, -, -, -, -, -, -, he⟩ |
    ⟨kind, hf, hj, -, -, -, he⟩ <;> rw [he]
  · exact h
  · exact busError_wf h (blockChecks_inside ((blockInFlight_iff s kind).mp hf).2.2)
  · exact h
  · have hin := blockChecks_inside ((blockInFlight_iff s kind).mp hf).2.2
    have := element_inside hj
    exact finishElement_wf _ _ _ _ _ h (by unfold elementAddr; omega)

/-- What reset leaves of memory (R181, R182). -/
theorem abandon_mem (s : State) :
    s.abandon.mem = match s.blockInFlight with
      | none => s.mem
      | some _ => s.mem.forget s.draws s.latch.dst.toNat (blockBytes s.cfg) := by
  unfold State.abandon
  cases s.blockInFlight <;> rfl

/-- Reset keeps memory in canonical form. -/
theorem assertReset_wf {s : State} (h : s.mem.wf = true) : s.assertReset.mem.wf = true := by
  rw [State.assertReset_mem, abandon_mem]
  split
  · exact h
  · next kind hf =>
    exact Memory.wf_forget _ _ _ h (blockChecks_inside ((blockInFlight_iff s kind).mp hf).2.2)

/-- Memory after reset is in canonical form. -/
theorem reset_mem_wf : State.reset.mem.wf = true := rfl

end Sys2Proof.Machine
end

