-- ==== Sys2Proof/Laws/PerInstr.lean ====
section
/-!
SUPPORT. The family RoundTrip: decoding undoes encoding, one lemma for each command (R71, R72).
-/

namespace Sys2Proof.Laws.RoundTrip

/-- On every variant that has the command, its word decodes to it. -/
def Statement (i : Instr) : Prop := ∀ v : Variant, i.wf v = true → decode v (encode i) = .ok i

theorem nop : Statement .nop := by intro v _; cases v <;> decide
theorem cmix : Statement .cmix := by intro v _; cases v <;> decide
theorem xmix : Statement .xmix := by intro v _; cases v <;> decide
theorem cmix1 : Statement .cmix1 := by intro v _; cases v <;> decide
theorem xmix1 : Statement .xmix1 := by intro v _; cases v <;> decide
theorem pcmix2 : Statement .pcmix2 := by
  intro v h
  cases v
  · exact absurd h (by decide)
  · decide
theorem pxmix2 : Statement .pxmix2 := by
  intro v h
  cases v
  · exact absurd h (by decide)
  · decide

end Sys2Proof.Laws.RoundTrip
end

