-- ==== Sys2Proof/Laws/Step.lean ====
section
/-!
SUPPORT. What the engine's and the host's moves can do, each said once, for the invariants.
-/

namespace Sys2Proof.Machine

/-- All a command can do, from any state: it completes with or without a new `RES`, with `E_ILLEGAL`, or as a block
command. -/
theorem exec_cases (i : Instr) (s : State) :
    ∃ t, exec i s = .next t ∧
      ((blockKindOf i = none ∧
          (t = s.complete ∨ (∃ r, t = s.completeWith r) ∨ (i.wf s.cfg.variant = false ∧ t = s.raise .illegal))) ∨
        ∃ kind, blockKindOf i = some kind ∧ t = s.runBlock kind) := by
  cases i
  · exact ⟨_, rfl, .inl ⟨rfl, .inl rfl⟩⟩
  · exact ⟨_, rfl, .inr ⟨_, rfl, rfl⟩⟩
  · exact ⟨_, rfl, .inr ⟨_, rfl, rfl⟩⟩
  · exact ⟨_, rfl, .inl ⟨rfl, .inr (.inl ⟨_, rfl⟩)⟩⟩
  · exact ⟨_, rfl, .inl ⟨rfl, .inr (.inl ⟨_, rfl⟩)⟩⟩
  · refine ⟨_, rfl, .inl ⟨rfl, .inr ?_⟩⟩
    unfold State.runPacked
    cases hv : s.cfg.variant
    · exact .inr ⟨by simp [Instr.wf], rfl⟩
    · exact .inl ⟨_, rfl⟩
  · refine ⟨_, rfl, .inl ⟨rfl, .inr ?_⟩⟩
    unfold State.runPacked
    cases hv : s.cfg.variant
    · exact .inr ⟨by simp [Instr.wf], rfl⟩
    · exact .inl ⟨_, rfl⟩

/-- All the engine's move can do: nothing in `IDLE`; in `RUN` it runs the latched command, or completes an illegal word. -/
theorem engineTurn_cases (s : State) :
    (s.status.busy = false ∧ s.engineTurn = .next s) ∨
    (s.status.busy = true ∧ (∃ i, decode s.cfg.variant s.latch.cmd = .ok i ∧ s.engineTurn = exec i s)) ∨
    (s.status.busy = true ∧ (∃ e, decode s.cfg.variant s.latch.cmd = .error e) ∧
      s.engineTurn = .next (s.raise .illegal)) := by
  unfold State.engineTurn
  cases hb : s.status.busy
  · left; simp
  · right
    cases hd : decode s.cfg.variant s.latch.cmd with
    | ok i => left; exact ⟨rfl, i, rfl, by simp⟩
    | error e => right; exact ⟨rfl, ⟨e, rfl⟩, by simp⟩

/-- A host access that touches the register window (R20). -/
theorem inWindow_iff (c : Config) (a n : Nat) :
    inWindow c a n = true ↔ a < c.base.toNat + 64 ∧ c.base.toNat < a + n := by
  simp only [inWindow, Bool.and_eq_true, decide_eq_true_eq]

/-- A command that failed its start checks leaves a host load no choice (R157, R185). -/
theorem raceByte_failed {c : Config} {w : Window} (h : w.passed c = false) (running : Bool) (draw : Nat)
    (ws : List Window) (m : Memory) (a : Nat) :
    raceByte c running draw (w :: ws) m a = raceByte c false draw ws m a := by
  rw [raceByte, h]
  rfl

/-- All a host write to `CMD` can do: an overrun, or acceptance. -/
theorem writeCmd_cases (s : State) (w : Word) :
    (s.status.busy = true ∧ s.writeCmd w = .next { s with status := s.status.overrun }) ∨
    (s.status.busy = false ∧ s.writeCmd w = .next (s.accept w)) := by
  unfold State.writeCmd
  cases hb : s.status.busy
  · right; simp
  · left; simp

/-- All a host store can do when it answers a next state: a register write, or a store to memory that meets no held buffer. -/
theorem busStore_next {s t : State} {w : Width} {a : Nat} {v : Word} (h : s.busStore w a v = .next t) :
    (∃ r, s.writeReg r v = .next t) ∨
    (a + w.bytes ≤ addressSpace ∧ s.hazard a w.bytes = false ∧ t = s.storeMem w a v) := by
  unfold State.busStore at h
  split at h
  · split at h
    · exact .inl ⟨_, h⟩
    · cases h
  · split at h
    · cases h
    · split at h
      · cases h
      · split at h
        · cases h
        · next h1 h2 h3 h4 =>
          right
          refine ⟨by omega, by simpa using h4, ?_⟩
          cases h
          rfl

/-- All a host load can do when it answers: a register read, or a load that draws one free value. -/
theorem busLoad_ok {s t : State} {w : Width} {a : Nat} {v : Word} (h : s.busLoad w a = .ok (v, t)) :
    (∃ r, v = s.readReg r ∧ t = s.afterRead r) ∨ (v = s.hostLoad w a ∧ t = { s with draws := s.draws + 1 }) := by
  unfold State.busLoad at h
  split at h
  · split at h
    · cases h; exact .inl ⟨_, rfl, rfl⟩
    · cases h
  · split at h
    · cases h
    · split at h
      · cases h
      · cases h; exact .inr ⟨rfl, rfl⟩

/-- A host read closes the hazard windows, when `STATUS` is read with `DONE = 1`, or changes nothing. -/
theorem afterRead_cases (s : State) (r : Reg) :
    s.afterRead r = s ∨ (r = .status ∧ s.status.done = true ∧ s.afterRead r = s.closeWindows) := by
  cases r <;> first | exact .inl rfl | skip
  unfold State.afterRead
  cases hd : s.status.done
  · left; simp
  · right; simp

theorem thenHostNext_next {o : Host.Outcome State Fault Refusal} {t : State} (h : thenHostNext o = .next t) :
    ∃ u, o = .next u ∧ t = u.hostNext := by
  cases o with
  | next u => cases h; exact ⟨u, rfl, rfl⟩
  | fault f => cases h
  | refused r => cases h

/-- All one host statement can do when it answers a next state: a store, a load, the host's barrier or invalidate, or a change
of the host's own place alone. -/
theorem hostStmt_next {s t : State} {st : HostStmt} (h : s.hostStmt st = .next t) :
    (∃ w a v u, s.busStore w a v = .next u ∧ t = u.hostNext) ∨
    (∃ w a x v u, s.busLoad w a = .ok (v, u) ∧ t = u.hostSet x v) ∨
    t = s.drainAll.hostNext ∨ t = s.invalidate.hostNext ∨ t = s ∨ ∃ n, t = s.hostAt n := by
  have goto_case : ∀ l, s.hostGoto l = .next t → ∃ n, t = s.hostAt n := by
    intro l hl
    unfold State.hostGoto at hl
    split at hl
    · cases hl; exact ⟨_, rfl⟩
    · cases hl
  have load_case : ∀ w a x, s.hostLoadTo w a x = .next t →
      ∃ w a x v u, s.busLoad w a = .ok (v, u) ∧ t = u.hostSet x v := by
    intro w a x hl
    unfold State.hostLoadTo at hl
    split at hl
    · next v u hu => cases hl; exact ⟨w, a, x, v, u, hu, rfl⟩
    · cases hl
  have store_case : ∀ w a v, thenHostNext (s.busStore w a v) = .next t →
      ∃ w a v u, s.busStore w a v = .next u ∧ t = u.hostNext := by
    intro w a v hl
    obtain ⟨u, hu, ht⟩ := thenHostNext_next hl
    exact ⟨w, a, v, u, hu, ht⟩
  cases st <;> simp only [State.hostStmt] at h
  · split at h
    · exact .inl (store_case _ _ _ h)
    · cases h
  · exact .inr (.inl (load_case _ _ _ h))
  · unfold State.hostStore at h
    split at h
    · exact .inl (store_case _ _ _ h)
    · cases h
  · split at h
    · exact .inr (.inl (load_case _ _ _ h))
    · cases h
  · exact .inl (store_case _ _ _ h)
  · cases h; exact .inr (.inr (.inr (.inr (.inr ⟨_, rfl⟩))))
  · split at h
    · exact .inr (.inr (.inr (.inr (.inr (goto_case _ h)))))
    · cases h; exact .inr (.inr (.inr (.inr (.inr ⟨_, rfl⟩))))
    · cases h
  · exact .inr (.inr (.inr (.inr (.inr (goto_case _ h)))))
  · cases h; exact .inr (.inr (.inr (.inr (.inl rfl))))
  · cases h; exact .inr (.inr (.inl rfl))
  · cases h; exact .inr (.inr (.inr (.inl rfl)))

/-- All the host's move can do when it answers a next state: its next statement, or nothing. -/
theorem hostTurn_next {s t : State} (h : s.hostTurn = .next t) :
    t = s ∨ ∃ st, s.host.prog[s.host.pc]? = some st ∧ s.hostStmt st = .next t := by
  unfold State.hostTurn at h
  split at h
  · next st hst => exact .inr ⟨st, hst, h⟩
  · cases h; exact .inl rfl

/-- All a step can do: one move, from the list of moves or the machine's own. -/
theorem step_cases (s : State) :
    (s.turns = [] ∧ step s = s.move s.ownTurn) ∨
    (∃ m ts, s.turns = m :: ts ∧ step s = State.move { s with turns := ts } m) := by
  unfold step State.advance
  cases h : s.turns with
  | nil => exact .inl ⟨rfl, rfl⟩
  | cons m ts => exact .inr ⟨m, ts, rfl, rfl⟩

end Sys2Proof.Machine
end

