-- ==== Sys2Proof/Tests/Slice0.lean ====
section
/-!
SUPPORT. The model's own tests: the checks of WellFormed, words written out from the encoding of R70 and R71, the test
vectors V1 to V7 of spec/95_test_vectors.md, and for every obligation with hypotheses a witness that meets them. Every
expected value is the spec's.
-/

namespace Sys2Proof.Tests

open Sys2Proof Sys2Proof.Machine

/-! ### Builds and states -/

/-- `WIDE`, `HALF_DOWN`, with `n` samples a block. -/
def wideHD (n : Nat) : Config where
  variant := .wide
  gNarrow := 8
  blockN := n
  roundMode := .halfDown
  base := 0x40000000#32
  failing := []
  platform := .ordered

/-- `WIDE`, `FLOOR`. -/
def wideFL (n : Nat) : Config := { wideHD n with roundMode := .floor }

/-- `NARROW` with `G = 8`, `HALF_DOWN`. -/
def narrowHD (n : Nat) : Config := { wideHD n with variant := .narrow }

/-- `NARROW` with `G = 8`, `FLOOR`. -/
def narrowFL (n : Nat) : Config := { wideHD n with variant := .narrow, roundMode := .floor }

/-- `WIDE`, one word a block, an access at the source buffer's only word failing. -/
def failingBuild : Config :=
  { wideHD 2 with failing := [{ first := 0x20000010, last := 0x20000010, width := 4 }] }

/-- `NARROW` on a `weak` platform. -/
def weakBuild : Config := { narrowHD 1 with platform := .weak }

/-- The latch of a command with these bases and zero operands. -/
def bases (w dst src ctl : Word) : Latch where
  cmd := w
  dst := dst
  src := src
  ctl := ctl
  opa := 0#32
  opb := 0#32
  opc := 0#32

/-- A latch with these operands. -/
def operands (w a b k : Word) : Latch where
  cmd := w
  dst := 0#32
  src := 0#32
  ctl := 0#32
  opa := a
  opb := b
  opc := k

/-- The engine in `RUN` with the latch `l`, nothing done yet. -/
def running (c : Config) (l : Latch) : State :=
  { State.resetOf c with
    cmd := l.cmd
    latch := l
    status := { busy := true, done := false, err := none, ovr := false } }

/-- The bytes of one halfword. -/
def halfAt (a : Nat) (v : Half) (m : Memory) : Memory := m.write16 a v

/-- Memory with a destination, a source and a control sample at 0x20000000, 0x20000010 and 0x20000020. -/
def oneSample (a b k : Half) : Memory :=
  halfAt 0x20000000 a (halfAt 0x20000010 b (halfAt 0x20000020 k []))

/-- The same for one word of two samples. -/
def oneWord (a b k : Word) : Memory :=
  Memory.write32 (Memory.write32 (Memory.write32 [] 0x20000000 a) 0x20000010 b) 0x20000020 k

/-- The state of a next outcome. -/
def after (o : Host.Outcome State Fault Refusal) : Option State :=
  match o with
  | .next s => some s
  | .fault _ => none
  | .refused _ => none

/-- The fault of an outcome. -/
def faultOf (o : Host.Outcome State Fault Refusal) : Option Fault :=
  match o with
  | .next _ => none
  | .fault f => some f
  | .refused _ => none

/-- `RES` after a register command on these operands. -/
def resOf (c : Config) (i : Instr) (a b k : Word) : Option Word :=
  (after (exec i (running c (operands (encode i) a b k)))).map State.res

/-- The bases of V6, and a latch over them. -/
def v6 (w : Word) : Latch := bases w 0x20000000#32 0x20000010#32 0x20000020#32

/-- `STATUS` as read after a word is accepted from reset over these bases (V6: a failed check completes it). -/
def statusAfter (c : Config) (l : Latch) : Word :=
  (State.accept { State.resetOf c with dst := l.dst, src := l.src, ctl := l.ctl } l.cmd).readReg .status

/-! ### WellFormed: each check refuses an ill-formed term -/

theorem test_wf_gain_zero : Config.wf { narrowHD 4 with gNarrow := 0 } = false := by decide
theorem test_wf_gain_high : Config.wf { narrowHD 4 with gNarrow := 16 } = false := by decide
theorem test_wf_block_empty : (narrowHD 0).wf = false := by decide
theorem test_wf_block_long : (narrowHD 65536).wf = false := by decide
theorem test_wf_wide_odd : (wideHD 3).wf = false ∧ (narrowHD 3).wf = true := by decide
theorem test_wf_base : Config.wf { wideHD 4 with base := 0x40000020#32 } = false := by decide
theorem test_wf_packed_narrow : Instr.wf .narrow .pcmix2 = false ∧ Instr.wf .narrow .pxmix2 = false := by decide
theorem test_wf_legal : (wideHD 128).wf = true ∧ (wideFL 4).wf = true ∧ (narrowHD 1).wf = true ∧
    (narrowFL 65535).wf = true ∧ Config.default.wf = true := by decide

/-! ### Decoding: `RSVD` in [31:4], `OP` in [3:0] (R70, R71, R72) -/

theorem test_decode_nop : decode .narrow 0b0000_0000_0000_0000_0000_0000_0000_0000#32 = .ok .nop := by decide
theorem test_decode_cmix : decode .narrow 0b0000_0000_0000_0000_0000_0000_0000_0001#32 = .ok .cmix := by decide
theorem test_decode_xmix : decode .narrow 0b0000_0000_0000_0000_0000_0000_0000_0010#32 = .ok .xmix := by decide
theorem test_decode_cmix1 : decode .narrow 0b0000_0000_0000_0000_0000_0000_0000_0011#32 = .ok .cmix1 := by decide
theorem test_decode_xmix1 : decode .narrow 0b0000_0000_0000_0000_0000_0000_0000_0100#32 = .ok .xmix1 := by decide
theorem test_decode_pcmix2 : decode .wide 0b0000_0000_0000_0000_0000_0000_0000_0101#32 = .ok .pcmix2 := by decide
theorem test_decode_pxmix2 : decode .wide 0b0000_0000_0000_0000_0000_0000_0000_0110#32 = .ok .pxmix2 := by decide
theorem test_decode_illegal :
    decode .wide 0x00000007#32 = .error .reservedOp ∧ decode .wide 0x0000000F#32 = .error .reservedOp ∧
    decode .wide 0x00000011#32 = .error .reservedBits ∧ decode .wide 0xFFFFFFF1#32 = .error .reservedBits ∧
    decode .narrow 0x00000005#32 = .error .packedOnNarrow ∧ decode .narrow 0x00000006#32 = .error .packedOnNarrow ∧
    decode .wide 0x80000000#32 = .error .reservedBits := by decide
theorem test_decode_bytes :
    decodeBytes .wide [0x06#8, 0x00#8, 0x00#8, 0x00#8, 0x12#8] = .ok (.pxmix2, [0x12#8]) ∧
    decodeBytes .wide [0x00#8, 0x00#8, 0x00#8, 0x06#8] = .error .reservedBits ∧
    decodeBytes .wide [0x00#8, 0x00#8, 0x00#8] = .error .truncated := by decide
theorem test_decode_table :
    decodeTableWord 32 0 = some .nop ∧ decodeTableWord 32 3 = some .cmix1 ∧ decodeTableWord 32 6 = some .pxmix2 ∧
    decodeTableWord 32 7 = none ∧ decodeTableWord 32 0x100 = none := by decide

/-! ### The numeric core (V1, V2) -/

theorem test_rshift_wide_half_down :
    rshift (wideHD 4) 32767 = 0 ∧ rshift (wideHD 4) 32768 = 0 ∧ rshift (wideHD 4) 32769 = 1 ∧
    rshift (wideHD 4) 98304 = 1 ∧ rshift (wideHD 4) (-1) = 0 ∧ rshift (wideHD 4) (-32768) = -1 ∧
    rshift (wideHD 4) (-98304) = -2 := by decide
theorem test_rshift_wide_floor :
    rshift (wideFL 4) 32769 = 0 ∧ rshift (wideFL 4) 98304 = 1 ∧ rshift (wideFL 4) (-1) = -1 ∧
    rshift (wideFL 4) (-32769) = -1 ∧ rshift (wideFL 4) (-98304) = -2 := by decide
theorem test_rshift_narrow :
    rshift (narrowHD 4) 128 = 0 ∧ rshift (narrowHD 4) 129 = 1 ∧ rshift (narrowHD 4) (-128) = -1 ∧
    rshift (narrowFL 4) 129 = 0 ∧ rshift (narrowFL 4) (-1) = -1 ∧ rshift (narrowFL 4) 384 = 1 := by decide
theorem test_scale :
    sat16 32768 = 32767 ∧ sat16 (-32769) = -32768 ∧ sadd16 32767 1 = 32767 ∧ sadd16 (-32768) (-1) = -32768 ∧
    scale (wideHD 4) 32767 98304 = 32767 ∧ scale (wideHD 4) (-32768) 98304 = -32768 ∧
    scale (wideHD 4) (-32768) 65535 = -32768 ∧ scale (wideHD 4) (-32768) 1 = -1 ∧
    scale (narrowHD 4) 32767 (-256) = -32767 := by decide

/-! ### One command each, two vectors at most (V3, V4, V5, W1, R121) -/

theorem test_nop : (after (exec .nop (running (wideHD 4) (operands 0 0 0 0)))).map (fun s => s.readReg .status) =
    some 0x00000002#32 := by decide
theorem test_cmix1_source_example : resOf (wideHD 4) .cmix1 0x00007FFF#32 0x00008000#32 0#32 = some 0xFFFFFFFF#32 := by
  decide
theorem test_cmix1_high_half_ignored : resOf (narrowFL 4) .cmix1 0xABCD0064#32 0#32 0#32 = some 0x00000032#32 := by
  decide
theorem test_xmix1_modes :
    resOf (narrowHD 4) .xmix1 1#32 0xFF#32 1#32 = some 2#32 ∧ resOf (narrowFL 4) .xmix1 1#32 0xFF#32 1#32 = some 0#32 ∧
    resOf (wideHD 4) .xmix1 1#32 0xFF#32 1#32 = some 1#32 ∧ resOf (wideFL 4) .xmix1 1000#32 3000#32 32767#32 = some 1999#32 := by
  decide
theorem test_xmix1_saturates :
    resOf (wideHD 4) .xmix1 0x7FFF#32 0x8000#32 0x8000#32 = some 0x00007FFF#32 ∧
    resOf (wideHD 4) .xmix1 0x8000#32 0x8000#32 1#32 = some 0xFFFF8000#32 ∧
    resOf (wideHD 4) .xmix1 0x7FFF#32 0x7FFF#32 0x8000#32 = some 16383#32 ∧
    resOf (narrowHD 4) .xmix1 0x8000#32 0x8000#32 512#32 = some 0xFFFFFFFF#32 := by decide
theorem test_pcmix2 :
    resOf (wideHD 4) .pcmix2 0x7FFF0064#32 0x80000000#32 0#32 = some 0xFFFF0032#32 ∧
    resOf (wideFL 4) .pcmix2 0x7FFF8000#32 0x7FFF8000#32 0#32 = some 0x7FFE8000#32 := by decide
theorem test_pxmix2 :
    resOf (wideHD 4) .pxmix2 0x800003E8#32 0x80000BB8#32 0x00014000#32 = some 0x800005DC#32 ∧
    resOf (wideFL 4) .pxmix2 0x0001FFFF#32 0x00FFFFFF#32 0x00010001#32 = some 0x0000FFFE#32 ∧
    resOf (wideHD 4) .pxmix2 0x7FFF8000#32 0x7FFF8000#32 0x7FFF8000#32 = some 0x7FFFC000#32 := by decide
theorem test_packed_narrow :
    (after (exec .pxmix2 (running (narrowHD 4) (operands 6#32 1#32 2#32 3#32)))).map
      (fun s => (s.readReg .status, s.res)) = some (0x00000106#32, 0#32) := by decide

/-- The words of W1, the low-addressed sample in the low half. -/
theorem test_cmix_words :
    mixWord (wideHD 4) .constant 0xFF9C0064#32 0x00640000#32 0#32 = 0x00000032#32 ∧
    mixWord (wideFL 4) .constant 0x7FFF0000#32 0x80000000#32 0#32 = 0xFFFF0000#32 := by decide
theorem test_cmix_block :
    (after (exec .cmix { running (narrowHD 1) (v6 1#32) with mem := oneSample 0x7FFF#16 0x8000#16 0#16 })).map
      (fun s => (s.mem.read16 0x20000000, s.mem.read16 0x20000010, s.status.done, s.progress)) =
    some (0xFFFF#16, 0x8000#16, true, [0]) := by decide

/-- The halfwords of P2 on `NARROW`. -/
theorem test_xmix_halves :
    mixHalf (narrowHD 4) .crossfade 0x03E8#16 0x0BB8#16 0x0100#16 = 0x0BB8#16 ∧
    mixHalf (narrowHD 4) .crossfade 0x0001#16 0x00FF#16 0x0001#16 = 0x0002#16 ∧
    mixHalf (narrowFL 4) .crossfade 0x0001#16 0x00FF#16 0x0001#16 = 0x0000#16 ∧
    mixHalf (narrowHD 4) .crossfade 0x7FFF#16 0x7FFF#16 0x0200#16 = 0x0000#16 := by decide

/-- The example of R121: the order of the lanes in memory. -/
theorem test_xmix_block :
    (after (exec .xmix { running (wideHD 2) (v6 2#32) with
      mem := oneWord 0x800003E8#32 0x80000BB8#32 0x00014000#32 })).map
      (fun s => (s.mem.read32 0x20000000, s.mem.read16 0x20000000, s.res)) =
    some (0x800005DC#32, 0x05DC#16, 0#32) := by decide

/-! ### Errors at acceptance (V6) -/

theorem test_errors_illegal :
    statusAfter (wideHD 4) (v6 0x00000007#32) = 0x00000106#32 ∧ statusAfter (wideHD 4) (v6 0xFFFFFFF1#32) = 0x00000106#32 ∧
    statusAfter (narrowHD 4) (v6 0x00000005#32) = 0x00000106#32 ∧
    statusAfter (wideHD 4) (bases 0x00000011#32 0 0x20000010#32 0) = 0x00000106#32 := by decide
theorem test_errors_align :
    statusAfter (wideHD 4) (bases 1#32 0x20000002#32 0x20000010#32 0) = 0x00000206#32 ∧
    statusAfter (narrowHD 4) (bases 1#32 0x20000002#32 0x20000010#32 0) = 0x00000001#32 ∧
    statusAfter (narrowHD 4) (bases 2#32 0x20000000#32 0x20000010#32 0x20000021#32) = 0x00000206#32 ∧
    statusAfter (wideHD 4) (bases 1#32 0 0x20000001#32 0) = 0x00000206#32 := by decide
theorem test_errors_range :
    statusAfter (wideHD 4) (bases 1#32 0 0x20000010#32 0) = 0x00000306#32 ∧
    statusAfter (wideHD 4) (bases 1#32 0x20000000#32 0xFFFFFFFC#32 0) = 0x00000306#32 ∧
    statusAfter (wideHD 4) (bases 1#32 0x20000000#32 0xFFFFFFF8#32 0) = 0x00000001#32 := by decide
theorem test_errors_overlap :
    statusAfter (wideHD 4) (bases 1#32 0x20000000#32 0x20000004#32 0) = 0x00000406#32 ∧
    statusAfter (wideHD 4) (bases 1#32 0x20000000#32 0x20000008#32 1#32) = 0x00000001#32 ∧
    statusAfter (wideHD 4) (bases 1#32 0x20000000#32 0x20000000#32 0) = 0x00000406#32 ∧
    statusAfter (wideHD 4) (bases 2#32 0x20000000#32 0x20000010#32 0x20000010#32) = 0x00000001#32 ∧
    statusAfter (wideHD 4) (bases 2#32 0x20000000#32 0x20000010#32 0x20000004#32) = 0x00000406#32 := by decide
theorem test_error_bus :
    (after (exec .cmix { running failingBuild (v6 1#32) with mem := oneWord 1#32 2#32 0#32 })).map
      (fun s => (s.readReg .status, s.mem.read32 0x20000010)) = some (0x00000506#32, 2#32) := by decide

/-! ### Registers (V7) -/

theorem test_id :
    (State.resetOf (wideHD 128)).readReg .id = 0x00801003#32 ∧ (State.resetOf (wideFL 4)).readReg .id = 0x00041001#32 ∧
    (State.resetOf (narrowHD 4)).readReg .id = 0x00040802#32 := by decide
theorem test_ctrl : (after ((State.resetOf (wideHD 4)).writeReg .ctrl 0xFFFFFFFF#32)).map (fun s => s.readReg .ctrl) =
    some 1#32 := by decide
theorem test_status_clears_error :
    ((Status.mk false true (some .align) false).writeOneToClear 0x00000004#32).toWord = 0x00000002#32 ∧
    ((Status.mk false true none false).writeOneToClear 0x00000001#32).toWord = 0x00000002#32 ∧
    ((Status.mk false true none true).writeOneToClear 0x00000008#32).toWord = 0x00000002#32 := by decide
theorem test_overrun :
    (after ((running (wideHD 4) (v6 1#32)).writeReg .cmd 2#32)).map
      (fun s => (s.readReg .status, s.readReg .cmd, s.latch.cmd)) = some (0x00000009#32, 1#32, 1#32) := by decide
theorem test_nop_clears_error :
    (State.accept { State.resetOf (wideHD 4) with status := Status.mk false true (some .align) false } 0#32).readReg .status =
      0x00000001#32 := by decide
theorem test_port_offsets :
    Reg.atOffset 0x28 = some .res ∧ Reg.atOffset 0x0C = some .cmd ∧ Reg.atOffset 0x3C = some (.reserved 4) ∧
    Reg.atOffset 0x40 = none ∧ Reg.atOffset 0x02 = none := by decide
theorem test_fetch_word_runs :
    (after (step (State.reset.withFetchWord 32 0))).map (fun s => s.readReg .status) = some 2#32 ∧
    (after (step (State.reset.withFetchWord 32 1))).map (fun s => s.readReg .status) = some 0x00000306#32 := by decide

/-! ### Witnesses: a state and operands that meet the hypotheses of each obligation, clause by clause -/

theorem witness_ShiftRoundsAsNamed :
    (wideHD 4).wf = true ∧ (wideHD 4).roundMode = .halfDown ∧ rshift (wideHD 4) 98304 = 1 ∧
    (narrowFL 4).wf = true ∧ (narrowFL 4).roundMode = .floor ∧ rshift (narrowFL 4) (-1) = -1 := by decide

theorem witness_ProductRanges :
    (wideHD 4).wf = true ∧ (wideHD 4).variant = .wide ∧ (wideHD 4).unity - 32767 ≤ (98304 : Int) ∧
    (98304 : Int) ≤ (wideHD 4).unity + 32768 ∧ (-32768 : Int) * 98304 = -3221225472 ∧
    (narrowHD 4).wf = true ∧ (narrowHD 4).variant = .narrow ∧ (33024 : Int) ≤ (narrowHD 4).unity + 32768 := by decide

theorem witness_ConstantMixIsSumOfFloors :
    (wideHD 4).wf = true ∧ (-32768 : Int) ≤ -32768 ∧ (32767 : Int) ≤ 32767 ∧
    cmix (wideHD 4) (-32768) (-32768) = -32768 ∧ cmix (wideHD 4) 32767 32767 = 32766 := by decide

theorem witness_CrossfadeIdentities :
    (narrowHD 4).wf = true ∧ (narrowHD 4).unity ≤ 32767 ∧ mix (narrowHD 4) 1000 3000 0 = 1000 ∧
    mix (narrowHD 4) 1000 3000 256 = 3000 ∧ (wideHD 4).wf = true ∧ ¬ (wideHD 4).unity ≤ 32767 := by decide

theorem witness_CrossfadeErrorBound :
    (wideHD 4).wf = true ∧ (wideHD 4).roundMode = .halfDown ∧ (0 : Int) ≤ 65536 ∧ (65536 : Int) ≤ (wideHD 4).unity ∧
    (narrowFL 4).wf = true ∧ (narrowFL 4).roundMode = .floor ∧ (1 : Int) ≤ (narrowFL 4).unity ∧
    mix (narrowFL 4) 1 255 1 = 0 := by decide

theorem witness_SaturationPlaces :
    (wideHD 4).wf = true ∧ -(wideHD 4).unity < (65536 : Int) ∧ (65536 : Int) ≤ (wideHD 4).unity ∧
    scale (narrowHD 4) (-32768) (-256) = 32767 ∧ rshift (narrowHD 4) (-32768 * -256) = 32768 := by decide

theorem witness_Cmix1Result : (running (wideHD 4) (operands 3#32 0x7FFF#32 0x8000#32 0#32)).cfg.wf = true := by decide

theorem witness_Xmix1Result :
    ∃ (sat sh : Int → Int) (u : Int), u = 2 ^ (narrowHD 4).gainBits ∧
      (∀ x, sat x = if x < -32768 then -32768 else if 32767 < x then 32767 else x) ∧
      (∀ p, sh p =
        if (narrowHD 4).roundMode = .halfDown then (p + 2 ^ ((narrowHD 4).gainBits - 1) - 1) / u else p / u) :=
  ⟨_, _, _, rfl, fun _ => rfl, fun _ => rfl⟩

theorem witness_PackedIsTwoScalars :
    ∃ lane0 lane1 : Latch, (wideHD 4).variant = .wide ∧ lane0 = operands 5#32 0x7FFF0064#32 0x80000000#32 0#32 ∧
      lane1 = { operands 5#32 0x7FFF0064#32 0x80000000#32 0#32 with
        opa := 0x7FFF0064#32 >>> 16, opb := 0x80000000#32 >>> 16, opc := 0#32 >>> 16 } :=
  ⟨_, _, rfl, rfl, rfl⟩

theorem witness_PackedResult : (wideHD 4).wf = true ∧ (wideHD 4).variant = .wide := by decide

theorem witness_PackedIllegalOnNarrow : (running (narrowHD 4) (operands 5#32 0 0 0)).cfg.variant = .narrow := rfl

/-- Adjacent buffers, the upper one ending at 0xFFFF_FFFF. -/
theorem witness_CmixResult :
    (running (wideHD 4) (bases 1#32 0xFFFFFFF8#32 0xFFFFFFF0#32 1#32)).cfg.wf = true ∧
    (running (wideHD 4) (bases 1#32 0xFFFFFFF8#32 0xFFFFFFF0#32 1#32)).progress = [] ∧
    (running (wideHD 4) (bases 1#32 0xFFFFFFF8#32 0xFFFFFFF0#32 1#32)).fetched = Fetched.empty ∧
    (running (wideHD 4) (bases 1#32 0xFFFFFFF8#32 0xFFFFFFF0#32 1#32)).unseen.ranges = [] ∧
    cleanCmix (wideHD 4) (bases 1#32 0xFFFFFFF8#32 0xFFFFFFF0#32 1#32) := by
  unfold cleanCmix goodBase apart reachable
  decide

/-- The source and control buffers may be the same. -/
theorem witness_XmixResult :
    (running (narrowHD 3) (bases 2#32 0x20000000#32 0x20000006#32 0x20000006#32)).cfg.wf = true ∧
    (running (narrowHD 3) (bases 2#32 0x20000000#32 0x20000006#32 0x20000006#32)).progress = [] ∧
    (running (narrowHD 3) (bases 2#32 0x20000000#32 0x20000006#32 0x20000006#32)).fetched = Fetched.empty ∧
    (running (narrowHD 3) (bases 2#32 0x20000000#32 0x20000006#32 0x20000006#32)).unseen.ranges = [] ∧
    cleanXmix (narrowHD 3) (bases 2#32 0x20000000#32 0x20000006#32 0x20000006#32) := by
  unfold cleanXmix goodBase apart reachable
  decide

theorem witness_ElementOrderDoesNotShow :
    (running (wideHD 4) (v6 2#32)).cfg.wf = true ∧ (running (wideHD 4) (v6 2#32)).mem.wf = true ∧
    (running (wideHD 4) (v6 2#32)).status.busy = true ∧ (running (wideHD 4) (v6 2#32)).progress = [] ∧
    (running (wideHD 4) (v6 2#32)).fetched = Fetched.empty ∧ (running (wideHD 4) (v6 2#32)).turns = [] ∧ decode .wide 2#32 = .ok .xmix ∧
    blockKindOf .xmix = some .crossfade ∧ cleanXmix (wideHD 4) (v6 2#32) := by
  unfold cleanXmix goodBase apart reachable
  decide

/-- `CMIX` on one halfword whose operands 100 and 50 have been read, the destination having become 0 since. -/
def operandsHeld : State :=
  { running (narrowHD 1) (v6 1#32) with
    mem := oneSample 0#16 50#16 0#16
    fetched := { input0 := [(0, 100#32)], input1 := [(0, 50#32)], control := [] } }

/-- R57: a store may come between the reads of an element and its write, which then stores the mix of what was read. -/
theorem test_write_stores_what_was_read :
    (after (step { operandsHeld with turns := [.access .write 0] })).map
      (fun s => (s.mem.read16 0x20000000, s.progress, s.status.busy)) = some (75#16, [0], true) := by decide

theorem witness_AccessesAreSeparate :
    (running (wideHD 2) (v6 1#32)).blockInFlight = some .constant ∧ 0 < elementCount (wideHD 2) ∧
    0 ∉ (running (wideHD 2) (v6 1#32)).progress ∧ elementOk (wideHD 2) .constant (v6 1#32) 0 = true ∧
    Assoc.find? ((running (wideHD 2) (v6 1#32)).fetched.of .input1) 0 = none ∧
    operandsHeld.blockInFlight = some .constant ∧ 0 < elementCount (narrowHD 1) ∧
    elementOk (narrowHD 1) .constant (v6 1#32) 0 = true ∧
    Assoc.find? operandsHeld.fetched.input0 0 = some 100#32 ∧ Assoc.find? operandsHeld.fetched.input1 0 = some 50#32 ∧
    State.blockInFlight { operandsHeld with progress := [0] } = some .constant := by decide

/-- `CMIX` whose destination does not answer, with its operands held. -/
def heldFailing : State :=
  { running failingBuild (bases 1#32 0x20000010#32 0x20000000#32 0#32) with fetched := operandsHeld.fetched }

/-- The two accesses that meet a bus error: a read, and (from a state no run reaches) a write whose operands are held. -/
theorem witness_AccessesAreSeparate_bus :
    (running failingBuild (v6 1#32)).blockInFlight = some .constant ∧ 0 < elementCount failingBuild ∧
    0 ∉ (running failingBuild (v6 1#32)).progress ∧ operandOk failingBuild (v6 1#32) .input1 0 = false ∧
    Assoc.find? ((running failingBuild (v6 1#32)).fetched.of .input1) 0 = none ∧
    heldFailing.blockInFlight = some .constant ∧ 0 ∉ heldFailing.progress ∧
    operandOk heldFailing.cfg heldFailing.latch .input0 0 = false ∧
    (Assoc.find? (heldFailing.fetched.of .input0) 0).isSome = true ∧
    (Assoc.find? (heldFailing.fetched.of .input1) 0).isSome = true := by decide

theorem witness_StepMakesTheMoveListed :
    State.turns { operandsHeld with turns := [.access .write 0, .host] } = Turn.access .write 0 :: [.host] ∧
    (State.resetOf (wideHD 4)).turns = [] ∧ (State.resetOf (wideHD 4)).status.busy = false := by decide

theorem witness_AccessesHappenOnce :
    operandsHeld.status.busy = true ∧ Assoc.find? (operandsHeld.fetched.of .input0) 0 = some 100#32 ∧
    (after (step { operandsHeld with turns := [.access .write 0] })).map (fun t => t.status.busy) = some true := by decide

theorem witness_BusErrorCompletes :
    blockKindOf .cmix = some .constant ∧ blockChecks failingBuild .constant (v6 1#32) = none ∧
    0 < elementCount failingBuild ∧ 0 ∉ (running failingBuild (v6 1#32)).progress ∧
    elementOk failingBuild .constant (v6 1#32) 0 = false := by decide

theorem witness_CommandsKeepHostRegisters (i : Instr) :
    ∃ t, exec i (running (wideHD 2) (v6 (encode i))) = .next t := by
  cases i <;> exact ⟨_, rfl⟩

theorem witness_ResWrittenOnlyByRegisterMixes :
    (running (wideHD 4) (operands 3#32 100#32 0 0)).status.err = none ∧
    (after (exec .cmix1 (running (wideHD 4) (operands 3#32 100#32 0 0)))).map
      (fun t => decide (t.res ≠ (running (wideHD 4) (operands 3#32 100#32 0 0)).res)) = some true := by decide

/-- A running `CMIX1` meets the invariant, and the step that completes it changes `RES`. -/
theorem witness_ResWrittenOnlyByRegisterMixes_inv : (running (wideHD 4) (operands 3#32 100#32 0 0)).Inv where
  legal := by decide
  memory := by decide
  snapshots := by decide
  progress := by decide
  fetched := by
    intro o
    cases o <;> decide
  stores := by decide
  vars := ⟨0, by decide⟩
  command := by decide
  running := by decide
  window := by
    intro kind h
    have : (running (wideHD 4) (operands 3#32 100#32 0 0)).blockInFlight = none := by decide
    rw [this] at h
    cases h

theorem witness_ResWrittenOnlyByRegisterMixes_step :
    (after (step (running (wideHD 4) (operands 3#32 100#32 0 0)))).map (fun t => t.res) = some 50#32 ∧
    (after (step { running (wideHD 4) (operands 3#32 0 0 0) with res := 1#32, turns := [.reset] })).map
      (fun t => t.res) = some 0#32 := by decide

theorem witness_RegisterCommandsTouchNoMemory :
    blockKindOf .cmix1 = none ∧ ∃ t, exec .cmix1 (running (wideHD 4) (operands 3#32 100#32 0 0)) = .next t :=
  ⟨rfl, _, rfl⟩

theorem witness_RunningCommandReadsOnlyLatch :
    ∃ t, (running (wideHD 4) (v6 1#32)).writeReg .dst 0x30000000#32 = .next t := ⟨_, rfl⟩

/-- The word and bases of a command, as the host's registers hold them before its `CMD` write. -/
def programmed (c : Config) (l : Latch) : State :=
  { State.resetOf c with dst := l.dst, src := l.src, ctl := l.ctl, opa := l.opa, opb := l.opb, opc := l.opc }

theorem witness_AcceptanceLatches :
    (programmed (wideHD 4) (v6 2#32)).status.busy = false ∧ (programmed (wideHD 4) (v6 2#32)).unordered 2#32 = false ∧
    startChecks (wideHD 4) (v6 2#32) = none ∧ startChecks (wideHD 4) (operands 0#32 0 0 0) = none ∧
    decode .wide 2#32 = .ok .xmix ∧ blockKindOf .xmix = some .crossfade ∧ decode .wide 0#32 = .ok .nop ∧
    blockKindOf .nop = none := by decide

theorem witness_FailedCheckCompletes :
    (programmed (wideHD 4) (v6 7#32)).status.busy = false ∧ startChecks (wideHD 4) (v6 7#32) = some .illegal ∧
    startChecks (wideHD 4) (bases 1#32 0x20000002#32 0x20000010#32 0) = some .align ∧
    startChecks (wideHD 4) (bases 1#32 0 0x20000010#32 0) = some .range ∧
    startChecks (wideHD 4) (bases 1#32 0x20000000#32 0x20000004#32 0) = some .overlap ∧
    decode .wide 1#32 = .ok .cmix ∧ blockKindOf .cmix = some .constant ∧ decode .wide 7#32 = .error .reservedOp := by decide

theorem witness_IllegalWordsReported :
    (programmed (narrowHD 4) (v6 5#32)).status.busy = false ∧
    startChecks (narrowHD 4) (v6 5#32) = some .illegal ∧ startChecks (wideHD 4) (v6 0xFFFFFFF1#32) = some .illegal ∧
    startChecks (wideHD 4) (v6 5#32) = none := by decide

/-- Each clause at its edge: 1 byte off; base 0 and a range one element past 0xFFFF_FFFF; one shared word; adjacent, and
ending at 0xFFFF_FFFF. -/
theorem witness_CmixStartChecks :
    (wideHD 4).wf = true ∧
    startChecks (wideHD 4) (bases 1#32 0x20000001#32 0x20000010#32 0) = some .align ∧
    startChecks (wideHD 4) (bases 1#32 0 0x20000011#32 0) = some .align ∧
    startChecks (wideHD 4) (bases 1#32 0x20000000#32 0 0) = some .range ∧
    startChecks (wideHD 4) (bases 1#32 0x20000000#32 0xFFFFFFFC#32 0) = some .range ∧
    startChecks (wideHD 4) (bases 1#32 0x20000004#32 0x20000000#32 0) = some .overlap ∧
    startChecks (wideHD 4) (bases 1#32 0x20000008#32 0x20000000#32 1#32) = none ∧
    startChecks (wideHD 4) (bases 1#32 0x20000000#32 0xFFFFFFF8#32 1#32) = none := by decide

theorem witness_XmixStartChecks :
    (narrowHD 4).wf = true ∧
    startChecks (narrowHD 4) (bases 2#32 0x20000000#32 0x20000010#32 0x20000021#32) = some .align ∧
    startChecks (narrowHD 4) (bases 2#32 0x20000000#32 0x20000010#32 0) = some .range ∧
    startChecks (narrowHD 4) (bases 2#32 0x20000000#32 0x20000010#32 0xFFFFFFFA#32) = some .range ∧
    startChecks (narrowHD 4) (bases 2#32 0x20000000#32 0x20000010#32 0x20000006#32) = some .overlap ∧
    startChecks (narrowHD 4) (bases 2#32 0x20000000#32 0x20000006#32 0x20000020#32) = some .overlap ∧
    startChecks (narrowHD 4) (bases 2#32 0x20000000#32 0x20000010#32 0x20000010#32) = none ∧
    startChecks (narrowHD 4) (bases 2#32 0x20000000#32 0x20000008#32 0xFFFFFFF8#32) = none := by decide

theorem witness_OverrunDropsWord : (running (wideHD 4) (v6 1#32)).status.busy = true := rfl

theorem witness_IdReportsBuildForever :
    (State.resetOf (narrowFL 65535)).cfg.wf = true ∧ ∃ t, step (running (wideHD 4) (operands 0 0 0 0)) = .next t :=
  ⟨by decide, _, rfl⟩

theorem witness_PortReachesRegisters :
    (State.resetOf (wideHD 4)).cfg.wf = true ∧
    faultOf ((State.resetOf (wideHD 4)).busStore .half 0x4000000C 0#32) = some .portAccess ∧
    faultOf ((State.resetOf (wideHD 4)).busStore .word 0x3FFFFFFE 0#32) = some .portAccess ∧
    faultOf ((State.resetOf (wideHD 4)).busStore .word 0x4000003E 0#32) = some .portAccess := by decide

theorem witness_InterruptFollowsDone :
    State.irq { State.resetOf (wideHD 4) with ie := true, status := Status.mk false true none false } = true ∧
    (after (State.writeReg { State.resetOf (wideHD 4) with ie := true, status := Status.mk false true none false } .cmd 0#32)).map
      (fun t => (t.status.busy, t.irq)) = some (true, false) ∧ (0xFFFFFFFE#32 : Word).getLsbD 0 = false ∧
    (after (State.writeReg { State.resetOf (wideHD 4) with ie := true, status := Status.mk false true none false } .ctrl
      0xFFFFFFFE#32)).map (fun t => (t.status.done, t.irq)) = some (true, false) := by decide

theorem witness_ResetKeepsMemory :
    (State.resetOf (wideHD 4)).blockInFlight = none ∧
    (running (wideHD 4) (v6 1#32)).blockInFlight = some .constant := by decide

theorem witness_StepRunsLatchedCommand :
    (running (wideHD 4) (v6 1#32)).status.busy = true ∧ decode .wide (v6 1#32).cmd = .ok .cmix ∧
    (running (wideHD 4) (v6 1#32)).turns = [] ∧
    State.turns { running (wideHD 4) (v6 1#32) with turns := [.engine, .host] } = Turn.engine :: [.host] ∧
    Instr.wf .wide .pxmix2 = true := by decide

/-- A host about to write `CMIX` to `CMD`, a running `NOP`, an access that meets a bus error, and reset. -/
theorem witness_PhaseChangesOnlyAsNamed :
    (after (step { programmed (wideHD 4) (v6 1#32) with
      host := { HostAgent.idle with prog := [.command .cmix] } })).map (fun t => t.status.busy) = some true ∧
    (after (step (running (wideHD 4) (operands 0 0 0 0)))).map (fun t => t.status.busy) = some false ∧
    (after (step { running failingBuild (v6 1#32) with turns := [.access (.read .input1) 0] })).map
      (fun t => (t.status.busy, t.status.err)) = some (false, some .bus) ∧
    (after (step { running (wideHD 4) (v6 1#32) with turns := [.reset] })).map (fun t => t.status.busy) =
      some false := by decide

/-- `CMIX` accepted over the buffers of V6. -/
def accepted : State := (programmed (wideHD 4) (v6 1#32)).accept 1#32

theorem accepted_blockInFlight : accepted.blockInFlight = some .constant := by decide

theorem accepted_fetched : accepted.fetched = Fetched.empty := by decide

theorem witness_StepKeepsInvariant_inv : accepted.Inv where
  legal := by decide
  memory := by decide
  snapshots := by decide
  progress := by decide
  fetched := by
    intro o
    cases o <;> decide
  stores := by decide
  vars := ⟨0, by decide⟩
  command := by decide
  running := by decide
  window := by
    intro kind h
    rw [accepted_blockInFlight] at h
    cases h
    exact ⟨_, _, rfl, rfl, rfl⟩

theorem witness_StepKeepsBuffersTracked_inFlight : accepted.InFlight := by
  intro kind h
  rw [accepted_blockInFlight] at h
  cases h
  refine ⟨_, _, rfl, rfl, rfl, fun _ => ⟨fun _ _ => rfl, ?_, fun j k _ _ => rfl, ?_, rfl, ?_⟩⟩
  · intro h
    cases h
  · intro p h
    exact absurd h List.not_mem_nil
  · intro o j v _ _ h
    rw [accepted_fetched] at h
    cases o <;> cases h

theorem witness_StepKeepsInvariant : accepted.Inv ∧ accepted.InFlight ∧ ∃ t, step accepted = .next t :=
  ⟨witness_StepKeepsInvariant_inv, witness_StepKeepsBuffersTracked_inFlight, _, rfl⟩

/-- An operand is read, and an element whose operands have been read is written: something is recorded after the step. -/
theorem witness_StepKeepsBuffersTracked :
    (after (step { accepted with turns := [.access (.read .input1) 1] })).map
      (fun t => (t.fetched.input1.map Prod.fst, t.status.busy)) = some ([1], true) ∧
    (after (step { operandsHeld with turns := [.access .write 0] })).map (fun t => (t.progress, t.status.busy)) =
      some ([0], true) := by decide

theorem witness_ResetMeetsInvariant : (narrowHD 1).wf = true ∧ (wideFL 65534).wf = true := by decide

theorem witness_CompletionDependsOnAcceptanceOnly :
    accepted.blockInFlight = some .constant ∧ (∃ w ws, accepted.windows = w :: ws ∧ w.ordered = true) ∧
    (∀ j, j < elementCount accepted.cfg → elementOk accepted.cfg .constant accepted.latch j = true) :=
  ⟨accepted_blockInFlight, ⟨_, _, rfl, rfl⟩, by decide⟩

/-- A load at the top of the address space, `ld16` and `ld32`; an address in a variable that is set. -/
theorem witness_HostAccessesAsNotated :
    (State.resetOf (wideHD 4)).cfg.wf = true ∧ Assoc.find? [(7, 0xFFFFFFFE#32)] 7 = some 0xFFFFFFFE#32 ∧
    inWindow (wideHD 4) 0xFFFFFFFE 2 = false ∧ 0xFFFFFFFE + 2 ≤ addressSpace ∧ (wideHD 4).memOk 0xFFFFFFFE 2 = true ∧
    inWindow (wideHD 4) 0xFFFFFFFC 4 = false ∧ 0xFFFFFFFC + 4 ≤ addressSpace ∧ (wideHD 4).memOk 0xFFFFFFFC 4 = true := by
  decide

/-- A store of one word that ends in the first byte pair of the source, one of a halfword into the destination's last; one into
the control buffer alone, which `XMIX` holds and `CMIX` does not; and one that touches no buffer. -/
theorem witness_HostStoreIntoHeldBufferFaults :
    accepted.cfg.wf = true ∧ accepted.windows.map Window.kind = [.constant] ∧ inBuffer accepted.cfg (v6 1#32).src 0x20000010 = true ∧
    inBuffer accepted.cfg (v6 1#32).dst 0x20000007 = true ∧ inWindow accepted.cfg 0x2000000E 4 = false ∧
    accepted.cfg.memOk 0x2000000E 4 = true ∧
    faultOf (accepted.busStore .word 0x2000000E 0#32) = some .bufferHazard ∧
    faultOf (accepted.busStore .half 0x20000006 0#32) = some .bufferHazard ∧
    faultOf (((programmed (wideHD 4) (v6 2#32)).accept 2#32).busStore .half 0x20000026 0#32) = some .bufferHazard ∧
    inBuffer accepted.cfg (v6 1#32).ctl 0x20000020 = true ∧ inBuffer accepted.cfg (v6 1#32).ctl 0x20000021 = true ∧
    inWindow accepted.cfg 0x20000020 2 = false ∧ accepted.cfg.memOk 0x20000020 2 = true ∧
    faultOf (accepted.busStore .half 0x20000020 0#32) = none ∧
    faultOf (accepted.busStore .word 0x20000008 0#32) = none := by decide

/-- A `CMIX` over the buffers of V6 whose destination is off the grid of elements by a halfword, and so failed with `E_ALIGN`:
the destination in memory since then has changed. -/
def misaligned : State :=
  { (programmed (wideHD 2) (bases 1#32 0x20000002#32 0x20000010#32 0#32)).accept 1#32 with
    mem := oneWord 0x11223344#32 0#32 0#32 }

/-- R57, R157: a load over it sees memory whole. -/
theorem test_failed_window_leaves_no_choice :
    misaligned.status.err = some .align ∧ misaligned.windows.length = 1 ∧
    misaligned.hostLoad .word 0x20000000 = 0x11223344#32 := by decide

theorem witness_HostLoadsDoNotTear :
    accepted.cfg.wf = true ∧ (∀ w ∈ accepted.windows, w.ordered = true) ∧ accepted.windows.length = 1 ∧
    accepted.host.pending = [] ∧ accepted.host.stale = [] ∧ 0x20000004 % elementBytes accepted.cfg = 0 ∧
    (∀ w ∈ misaligned.windows, w.ordered = true) ∧ misaligned.cfg.wf = true := by decide

theorem witness_HostLoadRacesPerElement_failed :
    (∃ w, misaligned.windows = [w] ∧ w.ordered = true ∧ blockChecks misaligned.cfg w.kind w.latch ≠ none) ∧
    misaligned.host.pending = [] ∧ misaligned.host.stale = [] :=
  ⟨⟨_, rfl, rfl, by decide⟩, rfl, rfl⟩

theorem witness_HostLoadRacesPerElement :
    (∃ w, accepted.windows = [w] ∧ w.ordered = true ∧ blockChecks accepted.cfg w.kind w.latch = none) ∧ accepted.host.pending = [] ∧ accepted.host.stale = [] ∧
    0 < elementCount accepted.cfg ∧ accepted.cfg.wf = true :=
  ⟨⟨_, rfl, rfl, by decide⟩, rfl, rfl, by decide, by decide⟩

theorem witness_DoneReadMakesMemoryVisible :
    (accepted.complete).status.done = true ∧ (accepted.complete).cfg.platform = .ordered ∧
    (accepted.complete).host.pending = [] ∧ (accepted.complete).host.stale = [] ∧
    (accepted.complete).windows.length = 1 := by decide

/-- The same on a `weak` platform, with a byte of the destination buffer and one of none. -/
theorem witness_DoneReadMakesMemoryVisible_weak :
    ((programmed weakBuild (v6 1#32)).accept 1#32).complete.status.done = true ∧ weakBuild.platform = .weak ∧
    weakBuild.wf = true ∧ ((programmed weakBuild (v6 1#32)).accept 1#32).complete.host.pending = [] ∧
    ((programmed weakBuild (v6 1#32)).accept 1#32).complete.host.stale = [] ∧
    ((programmed weakBuild (v6 1#32)).accept 1#32).complete.windows.map (fun w => w.latch.dst) = [0x20000000#32] ∧
    inBuffer weakBuild 0x20000000#32 0x20000001 = true ∧ inBuffer weakBuild 0x20000000#32 0x20000002 = false := by decide

theorem witness_HostStoresComplete :
    inWindow (wideHD 4) 0xFFFFFFFC 4 = false ∧ (wideHD 4).memOk 0xFFFFFFFC 4 = true ∧
    accepted.hazard 0xFFFFFFFC 4 = false ∧ (wideHD 4).platform = .ordered ∧ weakBuild.platform = .weak ∧
    inWindow weakBuild 0x20000008 2 = false ∧ weakBuild.memOk 0x20000008 2 = true ∧
    (State.resetOf weakBuild).hazard 0x20000008 2 = false ∧ (State.resetOf weakBuild).host.pending = [] ∧
    ((State.resetOf weakBuild).storeMem .half 0x20000008 5#32).host.pending =
      [{ addr := 0x20000008, width := .half, value := 5#32 }] := by decide

/-- An uncompleted host store to the source buffer of a `CMIX` on a `weak` platform. -/
theorem witness_UnorderedStartReadsFree :
    startChecks weakBuild ((programmed weakBuild (v6 1#32)).latchOf (encode .cmix)) = none ∧
    meetsBuffers weakBuild .constant ((programmed weakBuild (v6 1#32)).latchOf (encode .cmix)) 0x20000010 2 = true ∧
    (after (State.writeReg
      { programmed weakBuild (v6 1#32) with
        host := { HostAgent.idle with
          pending := [{ addr := 0x20000010, width := .half, value := 5#32 }] } } .cmd 1#32)).map
      (fun t => (t.status.busy, t.draws, t.host.pending.length)) = some (true, 3, 1) := by decide

theorem witness_MnemonicWritesCmd : (State.resetOf (wideHD 4)).cfg.wf = true := by decide

/-- The wait loop of `mix.c` with a statement after it, `DONE` set and not set. -/
theorem witness_WaitEndsOnDone :
    ∃ (s : State) (before after : List HostStmt), s.cfg.wf = true ∧ s.host.prog = before ++ pseudoWait 0 0 ++ after ∧
      HostStmt.label 0 ∉ before ∧ before.length = 3 ∧ after.length = 1 ∧ s.host.pc = before.length + 1 ∧
      s.status.done = true ∧ State.status { s with status := Status.zero } = Status.zero :=
  ⟨{ State.resetOf (wideHD 4) with
      host := { HostAgent.idle with prog := pseudoMixC (.lit 0x20000000#32) (.lit 0x20000010#32) 0 0 ++ [.halt], pc := 4 }
      status := Status.mk false true none false },
    [.wr .dst (.lit 0x20000000#32), .wr .src (.lit 0x20000010#32), .command .cmix], [.halt],
    by decide, rfl, by decide, rfl, rfl, rfl, rfl, rfl⟩

end Sys2Proof.Tests
end

section
/-!
PROOFS. Scope (`00_scope.md`): little-endian memory, and what a step does for each move.
-/

namespace Sys2Proof.Machine

/-! ### Memory -/

/-- A halfword store takes the low half of its value (R52). -/
theorem Memory.store_half (m : Memory) (a : Nat) (v : Word) :
    m.store .half a v = m.write16 a (v.extractLsb' 0 16) := rfl

theorem Memory.store_word (m : Memory) (a : Nat) (v : Word) : m.store .word a v = m.write32 a v := rfl

/-- R13: the low byte of a halfword lies at the lower address. -/
theorem Memory.bytes_write16 (m : Memory) (a : Nat) (v : Half) :
    (m.write16 a v).byte a = v.extractLsb' 0 8 ∧ (m.write16 a v).byte (a + 1) = v.extractLsb' 8 8 := by
  simp [Memory.byte_write16]

/-- R13: the bytes of a word lie in order of significance, the low byte at the lowest address. -/
theorem Memory.bytes_write32 (m : Memory) (a : Nat) (v : Word) :
    (m.write32 a v).byte a = v.extractLsb' 0 8 ∧ (m.write32 a v).byte (a + 1) = v.extractLsb' 8 8 ∧
      (m.write32 a v).byte (a + 2) = v.extractLsb' 16 8 ∧ (m.write32 a v).byte (a + 3) = v.extractLsb' 24 8 := by
  simp [Memory.byte_write32]

/-- Settles O50: each clause is a law of memory, one for the bytes written, one for the read back and one for the frame. -/
theorem littleEndianMemory : Obligations.LittleEndianMemory := by
  refine ⟨fun m a v => ⟨m.store_half a v, m.store_word a v⟩, fun m a v => ?half, fun m a v => ?word⟩
  case half =>
    obtain ⟨h0, h1⟩ := m.bytes_write16 a v
    exact ⟨m.read16_write16_same a v, h0, h1, fun _ hb => m.byte_write16_outside v hb⟩
  case word =>
    obtain ⟨h0, h1, h2, h3⟩ := m.bytes_write32 a v
    exact ⟨m.read32_write32_same a v, h0, h1, h2, h3, fun _ hb => m.byte_write32_outside v hb⟩

/-! ### One step -/

/-- With a move listed, a step uses it up and makes it. -/
theorem step_of_turns_cons {s : State} {m : Turn} {ts : List Turn} (h : s.turns = m :: ts) :
    step s = State.move { s with turns := ts } m := by
  rw [step, State.advance, h]

/-- With no move listed, a step is the machine's own move. -/
theorem step_of_turns_nil {s : State} (h : s.turns = []) : step s = s.move s.ownTurn := by
  rw [step, State.advance, h]

/-- In `IDLE` the engine does nothing (R183). -/
theorem engineTurn_of_idle {s : State} (h : s.status.busy = false) : s.engineTurn = .next s := by
  simp [State.engineTurn, h]

/-- In `IDLE` the host moves when nothing outside says who does. -/
theorem ownTurn_of_idle {s : State} (h : s.status.busy = false) : s.ownTurn = .host := by
  simp [State.ownTurn, h]

/-- Settles O44, move by move: the step is the move at the head of the list, or in `IDLE` the host's. -/
theorem stepMakesTheMoveListed : Obligations.StepMakesTheMoveListed := by
  intro s ts
  refine ⟨?host, ?access, ?drain, ?reset, ?engine, ?own⟩
  case host => exact step_of_turns_cons
  case access => exact fun _ _ => step_of_turns_cons
  case drain => exact step_of_turns_cons
  case reset => exact step_of_turns_cons
  case engine =>
    intro h idle
    calc step s = State.engineTurn { s with turns := ts } := step_of_turns_cons h
      _ = .next { s with turns := ts } := engineTurn_of_idle idle
  case own =>
    intro h idle
    rw [step_of_turns_nil h, ownTurn_of_idle idle, State.move]

end Sys2Proof.Machine
end

section
/-!
PROOFS. State (`10_state.md`): the registers, and the invariants every step keeps.
-/

namespace Sys2Proof.Machine

/-! ### What a step can do, for the invariants -/

/-- `t` is `s` up to fields that no invariant depends on: the registers the host writes, the host's place, variables and stale
ranges, the moves to come, the draws. Flags of `STATUS` may have been cleared, and `OVR` set. -/
structure State.KeepsRun (s t : State) : Prop where
  cfg      : t.cfg = s.cfg
  res      : t.res = s.res
  busy     : t.status.busy = s.status.busy
  done     : s.status.done = false → t.status.done = false
  err      : s.status.err = none → t.status.err = none
  cmd      : t.cmd = s.cmd
  latch    : t.latch = s.latch
  progress : t.progress = s.progress
  fetched  : t.fetched = s.fetched
  unseen   : t.unseen = s.unseen
  mem      : t.mem = s.mem
  windows  : t.windows = s.windows
  pending  : t.host.pending = s.host.pending
  vars     : (∃ high, Assoc.rising high 0 s.host.vars = true) → ∃ high, Assoc.rising high 0 t.host.vars = true

theorem State.KeepsRun.refl (s : State) : s.KeepsRun s :=
  ⟨rfl, rfl, rfl, id, id, rfl, rfl, rfl, rfl, rfl, rfl, rfl, rfl, id⟩

theorem State.KeepsRun.hostAt {s t : State} (h : s.KeepsRun t) (n : Nat) : s.KeepsRun (t.hostAt n) := { h with }

/-- The host variables stay in canonical form when one is set (log entry 12). -/
theorem rising_vars_put {vars : List (Nat × Word)} (x : Nat) (v : Word) (h : ∃ high, Assoc.rising high 0 vars = true) :
    ∃ high, Assoc.rising high 0 (Assoc.put vars x v) = true := by
  obtain ⟨high, h⟩ := h
  exact ⟨max high (x + 1), Assoc.rising_put v (Assoc.rising_high h (le_max_left _ _)) (Nat.zero_le _) (by omega)⟩

theorem State.KeepsRun.hostSet {s t : State} (h : s.KeepsRun t) (x : Nat) (v : Word) : s.KeepsRun (t.hostSet x v) :=
  { h with vars := fun hv => rising_vars_put x v (h.vars hv) }

/-- A list of moves is an input, and no invariant depends on it (log entry 5). -/
theorem State.KeepsRun.turns (s : State) (ts : List Turn) : s.KeepsRun { s with turns := ts } :=
  { State.KeepsRun.refl s with }

/-- What the host's move does beyond the fields no invariant depends on: nothing, an acceptance, a store to memory, the end of
the hazard windows, or its barrier. -/
inductive State.HostEffect (s : State) : State → Prop
  | none : s.HostEffect s
  | accept (w : Word) (idle : s.status.busy = false) : s.HostEffect (s.accept w)
  | store (w : Width) (a : Nat) (v : Word) (inside : a + w.bytes ≤ addressSpace)
      (free : s.hazard a w.bytes = false) : s.HostEffect (s.storeMem w a v)
  | close (done : s.status.done = true) : s.HostEffect s.closeWindows
  | drainAll : s.HostEffect s.drainAll

/-- A host write to `STATUS` sets no flag (R24 to R27). -/
theorem State.KeepsRun.writeStatus (s : State) (v : Word) :
    s.KeepsRun { s with status := s.status.writeOneToClear v } :=
  { State.KeepsRun.refl s with
    done := fun h => by simp [Status.writeOneToClear, h]
    err := fun h => by simp [Status.writeOneToClear, h] }

/-- A register write starts a command, or changes nothing an invariant depends on (R20 to R36). -/
theorem writeReg_effect {s t : State} {r : Reg} {v : Word} (h : s.writeReg r v = .next t) :
    ∃ u, s.HostEffect u ∧ u.KeepsRun t := by
  have kept : s.KeepsRun t → ∃ u, s.HostEffect u ∧ u.KeepsRun t := fun hk => ⟨s, .none, hk⟩
  cases r
  case cmd =>
    rcases writeCmd_cases s v with ⟨-, hw⟩ | ⟨idle, hw⟩ <;> cases hw.symm.trans h
    · exact kept { State.KeepsRun.refl s with }
    · exact ⟨_, .accept v idle, .refl _⟩
  case status => cases h; exact kept (.writeStatus s v)
  all_goals cases h; exact kept { State.KeepsRun.refl s with }

theorem busStore_effect {s t : State} {w : Width} {a : Nat} {v : Word} (h : s.busStore w a v = .next t) :
    ∃ u, s.HostEffect u ∧ u.KeepsRun t := by
  rcases busStore_next h with ⟨r, hr⟩ | ⟨inside, free, rfl⟩
  · exact writeReg_effect hr
  · exact ⟨_, .store w a v inside free, .refl _⟩

theorem busLoad_effect {s t : State} {w : Width} {a : Nat} {v : Word} (h : s.busLoad w a = .ok (v, t)) :
    ∃ u, s.HostEffect u ∧ u.KeepsRun t := by
  rcases busLoad_ok h with ⟨r, -, rfl⟩ | ⟨-, rfl⟩
  · rcases afterRead_cases s r with hr | ⟨-, done, hr⟩ <;> rw [hr]
    · exact ⟨s, .none, .refl s⟩
    · exact ⟨_, .close done, .refl _⟩
  · exact ⟨s, .none, { State.KeepsRun.refl s with }⟩

/-- All the host's move can do to what the invariants speak of. -/
theorem hostTurn_effect {s t : State} (h : s.hostTurn = .next t) : ∃ u, s.HostEffect u ∧ u.KeepsRun t := by
  obtain rfl | ⟨st, -, hst⟩ := hostTurn_next h
  · exact ⟨t, .none, .refl t⟩
  rcases hostStmt_next hst with ⟨w, a, v, x, hx, rfl⟩ | ⟨w, a, y, v, x, hx, rfl⟩ | rfl | rfl | rfl | ⟨n, rfl⟩
  · obtain ⟨u, hu, hk⟩ := busStore_effect hx
    exact ⟨u, hu, hk.hostAt _⟩
  · obtain ⟨u, hu, hk⟩ := busLoad_effect hx
    exact ⟨u, hu, hk.hostSet y v⟩
  · exact ⟨_, .drainAll, (State.KeepsRun.refl _).hostAt _⟩
  · exact ⟨s, .none, { State.KeepsRun.refl s with }⟩
  · exact ⟨t, .none, .refl t⟩
  · exact ⟨s, .none, (State.KeepsRun.refl s).hostAt n⟩

/-- A step is one move, the first listed or the machine's own, from the state without it. -/
theorem step_next {s t : State} (h : step s = .next t) :
    ∃ m ts, (s.turns = m :: ts ∨ s.turns = [] ∧ m = s.ownTurn) ∧ State.move { s with turns := ts } m = .next t := by
  rcases step_cases s with ⟨hs, e⟩ | ⟨m, ts, hs, e⟩
  · exact ⟨s.ownTurn, [], .inr ⟨hs, rfl⟩, by rw [← h, e, ← hs]⟩
  · exact ⟨m, ts, .inl hs, e ▸ h⟩

/-- `t` is `s` but for `RES`, `STATUS`, memory and the engine's own records: what the host writes or owns is as it was. -/
structure State.KeepsHostSide (s t : State) : Prop where
  cfg     : t.cfg = s.cfg
  ie      : t.ie = s.ie
  cmd     : t.cmd = s.cmd
  dst     : t.dst = s.dst
  src     : t.src = s.src
  ctl     : t.ctl = s.ctl
  opa     : t.opa = s.opa
  opb     : t.opb = s.opb
  opc     : t.opc = s.opc
  latch   : t.latch = s.latch
  windows : t.windows = s.windows
  unseen  : t.unseen = s.unseen
  host    : t.host = s.host
  turns   : t.turns = s.turns

theorem runBlock_keepsHostSide (s : State) (kind : BlockKind) : s.KeepsHostSide (s.runBlock kind) := by
  rcases runBlock_cases s kind with ⟨e, -, he⟩ | ⟨-, -, he⟩ | ⟨-, -, he⟩ <;> rw [he] <;> constructor <;> rfl

/-- The four ways a command can end. -/
theorem exec_next {i : Instr} {s t : State} (h : exec i s = .next t) :
    t = s.complete ∨ (∃ r, t = s.completeWith r) ∨ t = s.raise .illegal ∨ ∃ kind, t = s.runBlock kind := by
  obtain ⟨u, hu, outcome⟩ := exec_cases i s
  cases hu.symm.trans h
  rcases outcome with ⟨-, hc | hr | ⟨-, hi⟩⟩ | ⟨kind, -, hb⟩
  · exact .inl hc
  · exact .inr (.inl hr)
  · exact .inr (.inr (.inl hi))
  · exact .inr (.inr (.inr ⟨kind, hb⟩))

theorem exec_keepsHostSide {i : Instr} {s t : State} (h : exec i s = .next t) : s.KeepsHostSide t := by
  rcases exec_next h with rfl | ⟨r, rfl⟩ | rfl | ⟨kind, rfl⟩
  · constructor <;> rfl
  · constructor <;> rfl
  · constructor <;> rfl
  · exact runBlock_keepsHostSide s kind

theorem runBlock_res (s : State) (kind : BlockKind) : (s.runBlock kind).res = s.res := by
  rcases runBlock_cases s kind with ⟨e, -, he⟩ | ⟨-, -, he⟩ | ⟨-, -, he⟩ <;> rw [he] <;> rfl

theorem runBlock_idle (s : State) (kind : BlockKind) : (s.runBlock kind).status.busy = false := by
  rcases runBlock_cases s kind with ⟨e, -, he⟩ | ⟨-, -, he⟩ | ⟨-, -, he⟩ <;> rw [he] <;> rfl

theorem exec_idle {i : Instr} {s t : State} (h : exec i s = .next t) : t.status.busy = false := by
  rcases exec_next h with rfl | ⟨r, rfl⟩ | rfl | ⟨kind, rfl⟩
  · rfl
  · rfl
  · rfl
  · exact runBlock_idle s kind

/-- The engine's move ends in `IDLE` (R162). -/
theorem engineTurn_idle {s t : State} (h : s.engineTurn = .next t) : t.status.busy = false := by
  rcases engineTurn_cases s with ⟨idle, hs⟩ | ⟨-, i, -, hs⟩ | ⟨-, -, hs⟩ <;> rw [hs] at h
  · cases h; exact idle
  · exact exec_idle h
  · cases h; rfl

/-! ### The invariant of the machine -/

theorem Memory.byte_store_outside (m : Memory) (w : Width) (v : Word) {a i : Nat} (h : i < a ∨ a + w.bytes ≤ i) :
    (m.store w a v).byte i = m.byte i := by
  cases w
  · exact Memory.byte_write16_outside m _ h
  · exact Memory.byte_write32_outside m _ h

theorem Memory.wf_store {m : Memory} {w : Width} {a : Nat} (v : Word) (h : m.wf = true)
    (ha : a + w.bytes ≤ addressSpace) : (m.store w a v).wf = true := by
  cases w
  · exact Memory.wf_write16 _ h ha
  · exact Memory.wf_write32 _ h ha

theorem foldl_applyStore_wf (ps : List PendingStore) {m : Memory} (h : m.wf = true)
    (hps : ∀ p ∈ ps, p.addr + p.width.bytes ≤ addressSpace) : (ps.foldl applyStore m).wf = true := by
  induction ps generalizing m with
  | nil => exact h
  | cons p ps ih =>
    obtain ⟨hp, hps⟩ := List.forall_mem_cons.mp hps
    exact ih (Memory.wf_store _ h hp) hps

/-- Recording an operand changes the record of its own kind alone. -/
theorem Fetched.of_put (f : Fetched) (o q : Operand) (j : Nat) (v : Word) :
    (f.put o j v).of q = if q = o then Assoc.put (f.of o) j v else f.of q := by
  cases o <;> cases q <;> rfl

theorem rising_fetched_put {n j : Nat} {f : Fetched} (h : ∀ o, Assoc.rising n 0 (f.of o) = true) (hj : j < n)
    (o : Operand) (v : Word) (q : Operand) : Assoc.rising n 0 ((f.put o j v).of q) = true := by
  rw [Fetched.of_put]
  split
  · exact Assoc.rising_put v (h o) (Nat.zero_le j) hj
  · exact h q

theorem rising_fetched_empty (n : Nat) (o : Operand) : Assoc.rising n 0 (Fetched.empty.of o) = true := by
  cases o <;> rfl

/-- A block command's acceptance opens its window (R185). -/
theorem openWindow_block {c : Config} {l : Latch} {i : Instr} {kind : BlockKind} (hd : decode c.variant l.cmd = .ok i)
    (hk : blockKindOf i = some kind) (ordered : Bool) (m : Memory) (ws : List Window) :
    openWindow c l ordered m ws = { kind := kind, latch := l, before := m, ordered := ordered } :: ws := by
  simp only [openWindow, hd, hk]

/-- A window that is open after an acceptance was open before, or is the new one, over memory as it is. -/
theorem mem_openWindow {c : Config} {l : Latch} {ordered : Bool} {m : Memory} {ws : List Window} {w : Window}
    (h : w ∈ openWindow c l ordered m ws) : w.before = m ∨ w ∈ ws := by
  unfold openWindow at h
  split at h
  · exact .inr h
  split at h
  · exact .inr h
  · obtain rfl | h := List.mem_cons.mp h
    · exact .inl rfl
    · exact .inr h

/-- Acceptance latches the command, and leaves it in `RUN` only if it passes its checks (R161). -/
theorem accept_eq (s : State) (w : Word) :
    ∃ st, s.accept w = { s.latchCommand w with status := st } ∧
      (st.busy = true → st = s.status.accepted ∧ startChecks s.cfg (s.latchOf w) = none) := by
  rcases accept_cases s w with ⟨hc, he⟩ | ⟨e, -, he⟩
  · exact ⟨s.status.accepted, he, fun _ => ⟨rfl, hc⟩⟩
  · exact ⟨s.status.accepted.failed e, he, fun h => by simp at h⟩

theorem storeMem_cases (s : State) (w : Width) (a : Nat) (v : Word) :
    s.storeMem w a v = { s with mem := s.mem.store w a v } ∨
    s.storeMem w a v =
      { s with host := { s.host with pending := s.host.pending ++ [{ addr := a, width := w, value := v }] } } := by
  unfold State.storeMem
  cases s.cfg.platform
  · exact .inl rfl
  · exact .inr rfl

namespace State.Inv

theorem of_keepsRun {s t : State} (h : s.Inv) (k : s.KeepsRun t) : t.Inv where
  legal := by rw [k.cfg]; exact h.legal
  memory := by rw [k.mem]; exact h.memory
  snapshots := by rw [k.windows]; exact h.snapshots
  progress := by rw [k.cfg, k.progress]; exact h.progress
  fetched := by rw [k.cfg, k.fetched]; exact h.fetched
  stores := by rw [k.pending]; exact h.stores
  vars := k.vars h.vars
  command := by rw [k.cmd, k.latch]; exact h.command
  running := by
    rw [k.busy, k.cfg, k.latch]
    intro hb
    obtain ⟨hd, he, hc⟩ := h.running hb
    exact ⟨k.done hd, k.err he, hc⟩
  window := by
    rw [blockInFlight_congr k.busy k.cfg k.latch, k.windows, k.latch]
    exact h.window

/-- A completion keeps the invariant if it keeps the records of the engine in canonical form. -/
theorem of_completion {s t : State} (h : s.Inv) (k : s.KeepsHostSide t) (idle : t.status.busy = false)
    (memory : t.mem.wf = true) (progress : Assoc.risingSet (elementCount s.cfg) 0 t.progress = true)
    (fetched : ∀ o, Assoc.rising (elementCount s.cfg) 0 (t.fetched.of o) = true) : t.Inv where
  legal := by rw [k.cfg]; exact h.legal
  memory := memory
  snapshots := by rw [k.windows]; exact h.snapshots
  progress := by rw [k.cfg]; exact progress
  fetched := by rw [k.cfg]; exact fetched
  stores := by rw [k.host]; exact h.stores
  vars := by rw [k.host]; exact h.vars
  command := by rw [k.cmd, k.latch]; exact h.command
  running := by simp [idle]
  window := by simp [blockInFlight_idle idle]

theorem busError {s : State} (h : s.Inv) (inside : s.latch.dst.toNat + blockBytes s.cfg ≤ addressSpace) :
    s.busError.Inv :=
  h.of_completion (by constructor <;> rfl) rfl (busError_wf h.memory inside) h.progress (rising_fetched_empty _)

theorem runBlock {s : State} (h : s.Inv) (kind : BlockKind) : (s.runBlock kind).Inv := by
  refine h.of_completion (runBlock_keepsHostSide s kind) (runBlock_idle s kind) (runBlock_wf kind h.memory) ?_ ?_
  all_goals rcases runBlock_cases s kind with ⟨e, -, he⟩ | ⟨-, -, he⟩ | ⟨-, -, he⟩ <;> rw [he]
  · exact h.progress
  · exact h.progress
  · exact Assoc.risingSet_range _
  · exact h.fetched
  · exact rising_fetched_empty _
  · exact rising_fetched_empty _

/-- The invariant holds after every command, run from a state that meets it. -/
theorem exec {i : Instr} {s t : State} (h : s.Inv) (e : exec i s = .next t) : t.Inv := by
  have k := exec_keepsHostSide e
  rcases exec_next e with rfl | ⟨r, rfl⟩ | rfl | ⟨kind, rfl⟩
  · exact h.of_completion k rfl h.memory h.progress h.fetched
  · exact h.of_completion k rfl h.memory h.progress h.fetched
  · exact h.of_completion k rfl h.memory h.progress h.fetched
  · exact h.runBlock kind

theorem engineTurn {s t : State} (h : s.Inv) (e : s.engineTurn = .next t) : t.Inv := by
  rcases engineTurn_cases s with ⟨-, hs⟩ | ⟨-, i, -, hs⟩ | ⟨-, -, hs⟩ <;> rw [hs] at e
  · cases e; exact h
  · exact h.exec e
  · cases e; exact h.of_completion (by constructor <;> rfl) rfl h.memory h.progress h.fetched

theorem runAccess {s : State} (h : s.Inv) (a : Access) (j : Nat) : (s.runAccess a j).Inv := by
  have memory := runAccess_wf a j h.memory
  rcases runAccess_cases s a j with he | ⟨kind, hf, -, -, -, he⟩ | ⟨kind, o, -, hj, -, -, -, -, he⟩ |
    ⟨kind, -, hj, -, -, -, he⟩ <;> rw [he] at memory ⊢
  · exact h
  · exact h.busError (blockChecks_inside ((blockInFlight_iff s kind).mp hf).2.2)
  · exact { h with fetched := rising_fetched_put h.fetched hj o _ }
  · exact { h with memory, progress := Assoc.risingSet_insert h.progress (Nat.zero_le j) hj }

theorem accept {s : State} (h : s.Inv) (w : Word) : (s.accept w).Inv := by
  obtain ⟨st, he, hst⟩ := accept_eq s w
  rw [he]
  exact
    { legal := h.legal
      memory := h.memory
      snapshots := fun x hx => (mem_openWindow hx).elim (fun hb => hb ▸ h.memory) (h.snapshots x)
      progress := rfl
      fetched := rising_fetched_empty _
      stores := h.stores
      vars := h.vars
      command := rfl
      running := fun busy => by
        obtain ⟨hs, hc⟩ := hst busy
        exact ⟨by simp [hs], by simp [hs], hc⟩
      window := fun kind hf => by
        obtain ⟨-, ⟨i, hd, hk⟩, -⟩ := (blockInFlight_iff _ kind).mp hf
        exact ⟨_, _, openWindow_block hd hk _ _ _, rfl, rfl⟩ }

theorem storeMem {s : State} (h : s.Inv) (w : Width) {a : Nat} (v : Word) (ha : a + w.bytes ≤ addressSpace) :
    (s.storeMem w a v).Inv := by
  rcases storeMem_cases s w a v with he | he <;> rw [he]
  · exact { h with memory := Memory.wf_store v h.memory ha }
  · refine { h with stores := fun p hp => ?_ }
    rcases List.mem_append.mp hp with hp | hp
    · exact h.stores p hp
    · rw [List.mem_singleton.mp hp]; exact ha

/-- While a command runs `DONE` is clear. -/
theorem idle_of_done {s : State} (h : s.Inv) (done : s.status.done = true) : s.status.busy = false := by
  by_contra hb
  have clear := (h.running (Bool.of_not_eq_false hb)).1
  rw [done] at clear
  cases clear

theorem closeWindows {s : State} (h : s.Inv) (idle : s.status.busy = false) : s.closeWindows.Inv :=
  { h with
    snapshots := fun _ hw => absurd hw List.not_mem_nil
    window := by simp [blockInFlight_idle (s := s.closeWindows) idle] }

theorem drainAll {s : State} (h : s.Inv) : s.drainAll.Inv :=
  { h with
    memory := foldl_applyStore_wf _ h.memory h.stores
    stores := fun _ hp => absurd hp List.not_mem_nil }

theorem drainOne {s : State} (h : s.Inv) : s.drainOne.Inv := by
  unfold State.drainOne
  split
  · exact h
  · next p ps hps =>
    obtain ⟨hp, hrest⟩ := List.forall_mem_cons.mp (hps ▸ h.stores)
    exact { h with memory := Memory.wf_store _ h.memory hp, stores := hrest }

theorem assertReset {s : State} (h : s.Inv) : s.assertReset.Inv where
  legal := by simpa using h.legal
  memory := assertReset_wf h.memory
  snapshots := by simp
  progress := rfl
  fetched := rising_fetched_empty _
  stores := by simpa using h.stores
  vars := by simpa using h.vars
  command := rfl
  running := by simp [Status.zero]
  window := by simp [blockInFlight_idle (s := s.assertReset) rfl]

theorem hostEffect {s t : State} (h : s.Inv) (e : s.HostEffect t) : t.Inv := by
  cases e with
  | none => exact h
  | accept w _ => exact h.accept w
  | store w a v inside _ => exact h.storeMem w v inside
  | close done => exact h.closeWindows (h.idle_of_done done)
  | drainAll => exact h.drainAll

end State.Inv

/-- Settles O46, move by move: each move's own lemma keeps the invariant, and the list of moves plays no part in it. -/
theorem stepKeepsInvariant : Obligations.StepKeepsInvariant := by
  intro s t h hstep
  obtain ⟨m, ts, -, hm⟩ := step_next hstep
  replace h := h.of_keepsRun (.turns s ts)
  cases m with
  | host =>
    obtain ⟨u, hu, hk⟩ := hostTurn_effect hm
    exact (h.hostEffect hu).of_keepsRun hk
  | access a j => cases hm; exact h.runAccess a j
  | engine => exact h.engineTurn hm
  | drain => cases hm; exact h.drainOne
  | reset => cases hm; exact h.assertReset

/-! ### The buffers of a running block command -/

/-- The byte at `a` lies in a buffer the command holds: destination, source, or for `XMIX` control (R51, R185). -/
def holdsByte (c : Config) (kind : BlockKind) (l : Latch) (a : Nat) : Prop :=
  inBuffer c l.dst a = true ∨ inBuffer c l.src a = true ∨ kind = .crossfade ∧ inBuffer c l.ctl a = true

/-- An access that meets no buffer of the command misses every byte the command holds. -/
theorem holdsByte_outside {c : Config} {kind : BlockKind} {l : Latch} {a p n : Nat} (ha : holdsByte c kind l a)
    (h : meetsBuffers c kind l p n = false) : a < p ∨ p + n ≤ a := by
  have miss : ∀ {b : Word}, meetsBuffer c b p n = false → inBuffer c b a = true → a < p ∨ p + n ≤ a := by
    intro b hb hin
    rw [← Bool.not_eq_true, meetsBuffer_iff] at hb
    rw [inBuffer_iff] at hin
    omega
  simp only [meetsBuffers, Bool.or_eq_false_iff] at h
  obtain ⟨⟨hdst, hsrc⟩, hctl⟩ := h
  rcases ha with ha | ha | ⟨rfl, ha⟩
  · exact miss hdst ha
  · exact miss hsrc ha
  · exact miss hctl ha

theorem foldl_applyStore_outside (ps : List PendingStore) (m : Memory) {a : Nat}
    (h : ∀ p ∈ ps, a < p.addr ∨ p.addr + p.width.bytes ≤ a) : (ps.foldl applyStore m).byte a = m.byte a := by
  induction ps generalizing m with
  | nil => rfl
  | cons p ps ih =>
    obtain ⟨hp, hps⟩ := List.forall_mem_cons.mp h
    rw [List.foldl_cons, ih _ hps]
    exact Memory.byte_store_outside m _ _ hp

/-- A window of an acceptance is ordered only if no uncompleted store meets the command's buffers (R62). -/
theorem pending_apart_of_ordered {s : State} {w : Word} {i : Instr} {kind : BlockKind}
    (hc : startChecks s.cfg (s.latchOf w) = none) (hd : decode s.cfg.variant w = .ok i) (hk : blockKindOf i = some kind)
    (h : s.unordered w = false) :
    ∀ p ∈ s.host.pending, meetsBuffers s.cfg kind (s.latchOf w) p.addr p.width.bytes = false := by
  have stray := (unordered_false h).1
  simp only [State.strayStores, hc, hd, hk, List.filter_eq_nil_iff] at stray
  exact fun p hp => Bool.of_not_eq_true (stray p hp)

namespace State.Tracks

variable {s : State} {kind : BlockKind} {w : Window}

theorem of_keepsRun {t : State} (h : s.Tracks kind w) (k : s.KeepsRun t) : t.Tracks kind w := by
  unfold State.Tracks
  rw [k.cfg, k.latch, k.mem, k.progress, k.pending, k.unseen, k.fetched]
  exact h

theorem pending (h : s.Tracks kind w) :
    ∀ p ∈ s.host.pending, meetsBuffers s.cfg kind s.latch p.addr p.width.bytes = false := by
  obtain ⟨-, -, -, pending, -, -⟩ := h
  exact pending

theorem operand {o : Operand} {j : Nat} {v : Word} (h : s.Tracks kind w) (ho : usesOperand kind o = true)
    (hj : j < elementCount s.cfg) (hv : Assoc.find? (s.fetched.of o) j = some v) :
    v = readElement s.cfg s.latch Unseen.nothing w.before o j := by
  obtain ⟨-, -, -, -, -, operands⟩ := h
  exact operands o j v ho hj hv

/-- Changes of memory outside the buffers, and of the stores that wait there, do not disturb the command (R185). -/
theorem of_outside (h : s.Tracks kind w) {m : Memory} {host : HostAgent}
    (mem : ∀ a, holdsByte s.cfg kind s.latch a → m.byte a = s.mem.byte a)
    (waiting : ∀ p ∈ host.pending, meetsBuffers s.cfg kind s.latch p.addr p.width.bytes = false) :
    State.Tracks { s with mem := m, host := host } kind w := by
  obtain ⟨src, ctl, dst, -, unseen, operands⟩ := h
  refine ⟨fun a ha => ?_, fun hx a ha => ?_, fun j k hj hk => ?_, waiting, unseen, operands⟩
  · exact (mem a (.inr (.inl ha))).trans (src a ha)
  · exact (mem a (.inr (.inr ⟨hx, ha⟩))).trans (ctl hx a ha)
  · exact (mem _ (.inl (element_inBuffer _ hj hk))).trans (dst j k hj hk)

theorem storeMem (h : s.Tracks kind w) (x : Width) {a : Nat} (v : Word)
    (ha : meetsBuffers s.cfg kind s.latch a x.bytes = false) : (s.storeMem x a v).Tracks kind w := by
  rcases storeMem_cases s x a v with he | he <;> rw [he]
  · exact h.of_outside (fun b hb => Memory.byte_store_outside _ _ _ (holdsByte_outside hb ha)) h.pending
  · refine h.of_outside (fun _ _ => rfl) fun p hp => ?_
    rcases List.mem_append.mp hp with hp | hp
    · exact h.pending p hp
    · rw [List.mem_singleton.mp hp]; exact ha

theorem drainAll (h : s.Tracks kind w) : s.drainAll.Tracks kind w :=
  h.of_outside
    (fun _ hb => foldl_applyStore_outside _ _ fun p hp => holdsByte_outside hb (h.pending p hp))
    fun _ hp => absurd hp List.not_mem_nil

theorem drainOne (h : s.Tracks kind w) : s.drainOne.Tracks kind w := by
  unfold State.drainOne
  split
  · exact h
  · next p ps hps =>
    obtain ⟨hp, hrest⟩ := List.forall_mem_cons.mp (hps ▸ h.pending)
    exact h.of_outside (fun b hb => Memory.byte_store_outside _ _ _ (holdsByte_outside hb hp)) hrest

/-- What an element not yet written has to read is still what it was at acceptance (R122). -/
theorem readElement (h : s.Tracks kind w) {o : Operand} {j : Nat} (ho : usesOperand kind o = true)
    (hj : j < elementCount s.cfg) (hn : j ∉ s.progress) :
    readElement s.cfg s.latch s.unseen s.mem o j = readElement s.cfg s.latch Unseen.nothing w.before o j := by
  obtain ⟨src, ctl, dst, -, unseen, -⟩ := h
  refine readElement_congr fun k hk => ?_
  rw [engineByte_seen unseen, engineByte_seen rfl]
  cases o with
  | input0 => exact (dst j k hj hk).trans (if_neg hn)
  | input1 => exact src _ (element_inBuffer _ hj hk)
  | control =>
    cases kind with
    | constant => cases ho
    | crossfade => exact ctl rfl _ (element_inBuffer _ hj hk)

/-- An element not yet written is mixed from the operands it had at acceptance (R122). -/
theorem operandOf (h : s.Tracks kind w) {o : Operand} {j : Nat} (ho : usesOperand kind o = true)
    (hj : j < elementCount s.cfg) (hn : j ∉ s.progress) :
    operandOf s.cfg s.latch s.unseen s.fetched s.mem o j =
      operandOf s.cfg s.latch Unseen.nothing Fetched.empty w.before o j := by
  rw [operandOf_empty, Machine.operandOf]
  cases hv : Assoc.find? (s.fetched.of o) j with
  | none => exact h.readElement ho hj hn
  | some v => exact h.operand ho hj hv

theorem read (h : s.Tracks kind w) (o : Operand) {j : Nat} (hn : j ∉ s.progress) :
    State.Tracks { s with fetched := s.fetched.put o j (Machine.readElement s.cfg s.latch s.unseen s.mem o j) } kind w := by
  obtain ⟨src, ctl, dst, waiting, unseen, -⟩ := id h
  refine ⟨src, ctl, dst, waiting, unseen, fun q i v hq hi hv => ?_⟩
  rw [Fetched.find?_put] at hv
  split at hv
  · next same =>
    obtain ⟨rfl, rfl⟩ := same
    rw [← Option.some.inj hv]
    exact h.readElement hq hi hn
  · exact h.operand hq hi hv

theorem write (h : s.Tracks kind w) (apart : destinationApart s.cfg kind s.latch) {j : Nat}
    (hj : j < elementCount s.cfg) (hn : j ∉ s.progress) :
    State.Tracks
      { s with
        mem := finishElement s.cfg kind s.latch s.unseen s.fetched s.mem j
        progress := Assoc.insert s.progress j } kind w := by
  obtain ⟨src, ctl, dst, waiting, unseen, operands⟩ := id h
  have outside : ∀ {b : Word} {a : Nat}, (∀ x, inBuffer s.cfg s.latch.dst x = true → inBuffer s.cfg b x = false) →
      inBuffer s.cfg b a = true →
      (finishElement s.cfg kind s.latch s.unseen s.fetched s.mem j).byte a = s.mem.byte a := by
    intro b a hb ha
    refine foldl_finishElement_outside _ _ _ _ _ [j] _ (by simpa using hj) ?_
    by_contra hc
    rw [hb a (Bool.of_not_eq_false hc)] at ha
    cases ha
  refine ⟨fun a ha => (outside apart.1 ha).trans (src a ha), fun hx a ha => (outside (apart.2 hx) ha).trans (ctl hx a ha),
    fun i k hi hk => ?_, waiting, unseen, operands⟩
  simp only [Assoc.mem_insert]
  by_cases hij : i = j
  · subst hij
    rw [if_pos (.inl rfl)]
    exact finishElement_congr (fun o ho => h.operandOf ho hj hn) hk
  · simp only [hij, false_or]
    exact (foldl_finishElement_other _ _ _ _ _ [j] _ (by simpa using hij) hk).trans (dst i k hi hk)

end State.Tracks

namespace State.InFlight

theorem of_idle {s : State} (idle : s.status.busy = false) : s.InFlight := by
  intro kind hf
  rw [blockInFlight_idle idle] at hf
  cases hf

/-- A move that leaves the command running keeps its window where it keeps its buffers tracked. -/
theorem of_tracks {s t : State} (h : s.InFlight) (same : t.blockInFlight = s.blockInFlight)
    (windows : t.windows = s.windows) (latch : t.latch = s.latch)
    (tracks : ∀ kind, s.blockInFlight = some kind → ∀ w ∈ s.windows, w.kind = kind → w.latch = s.latch →
      s.Tracks kind w → t.Tracks kind w) : t.InFlight := by
  intro kind hf
  rw [same] at hf
  obtain ⟨w, ws, hw, hk, hl, ht⟩ := h kind hf
  exact ⟨w, ws, windows.trans hw, hk, hl.trans latch.symm,
    fun ordered => tracks kind hf w (by rw [hw]; exact List.mem_cons_self) hk hl (ht ordered)⟩

theorem of_keepsRun {s t : State} (h : s.InFlight) (k : s.KeepsRun t) : t.InFlight :=
  h.of_tracks (blockInFlight_congr k.busy k.cfg k.latch) k.windows k.latch fun _ _ _ _ _ _ ht => ht.of_keepsRun k

/-- A block command begins with its buffers at their values at acceptance, if the host's stores to them have completed. -/
theorem accept (s : State) (w : Word) : (s.accept w).InFlight := by
  obtain ⟨st, he, hst⟩ := accept_eq s w
  rw [he]
  intro kind hf
  obtain ⟨busy, ⟨i, hd, hk⟩, -⟩ := (blockInFlight_iff _ kind).mp hf
  obtain ⟨-, hc⟩ := hst busy
  refine ⟨_, _, openWindow_block hd hk _ _ _, rfl, rfl, fun ordered => ?_⟩
  have complete : s.unordered w = false := by simpa using ordered
  refine ⟨fun _ _ => rfl, fun _ _ _ => rfl, fun _ _ _ _ => rfl, pending_apart_of_ordered hc hd hk complete, ?_, ?_⟩
  · exact congrArg Unseen.ranges (unordered_false complete).2
  · intro o j v _ _ hv
    cases o <;> cases hv

theorem hostEffect {s t : State} (h : s.InFlight) (hi : s.Inv) (e : s.HostEffect t) : t.InFlight := by
  cases e with
  | none => exact h
  | accept w _ => exact accept s w
  | store x a v _ free =>
    have apart : ∀ w ∈ s.windows, meetsBuffers s.cfg w.kind w.latch a x.bytes = false := by
      simpa [State.hazard] using free
    obtain ⟨same, windows, latch⟩ : (s.storeMem x a v).blockInFlight = s.blockInFlight ∧
        (s.storeMem x a v).windows = s.windows ∧ (s.storeMem x a v).latch = s.latch := by
      rcases storeMem_cases s x a v with he | he <;> rw [he] <;> exact ⟨rfl, rfl, rfl⟩
    refine h.of_tracks same windows latch fun kind _ w hw hk hl ht => ht.storeMem x v ?_
    rw [← hk, ← hl]
    exact apart w hw
  | close done => exact of_idle (hi.idle_of_done done)
  | drainAll => exact h.of_tracks rfl rfl rfl fun _ _ _ _ _ _ ht => ht.drainAll

theorem drainOne {s : State} (h : s.InFlight) : s.drainOne.InFlight := by
  obtain ⟨same, windows, latch⟩ : s.drainOne.blockInFlight = s.blockInFlight ∧ s.drainOne.windows = s.windows ∧
      s.drainOne.latch = s.latch := by
    unfold State.drainOne
    split <;> exact ⟨rfl, rfl, rfl⟩
  exact h.of_tracks same windows latch fun _ _ _ _ _ _ ht => ht.drainOne

theorem runAccess {s : State} (h : s.InFlight) (a : Access) (j : Nat) : (s.runAccess a j).InFlight := by
  rcases runAccess_cases s a j with he | ⟨kind, -, -, -, -, he⟩ | ⟨kind, o, -, -, hn, -, -, -, he⟩ |
    ⟨kind, hf, hj, hn, -, -, he⟩ <;> rw [he]
  · exact h
  · exact of_idle rfl
  · exact h.of_tracks rfl rfl rfl fun _ _ _ _ _ _ ht => ht.read o hn
  · refine h.of_tracks rfl rfl rfl fun kind' hf' _ _ _ _ ht => ?_
    obtain rfl : kind = kind' := Option.some.inj (hf.symm.trans hf')
    exact ht.write (blockChecks_apart ((blockInFlight_iff s kind).mp hf).2.2) hj hn

end State.InFlight

/-- Settles O48, move by move: no move reaches a byte the running command holds but its own accesses, which read and write what
the operands at acceptance give. -/
theorem stepKeepsBuffersTracked : Obligations.StepKeepsBuffersTracked := by
  intro s t hi h hstep
  obtain ⟨m, ts, -, hm⟩ := step_next hstep
  replace hi := hi.of_keepsRun (.turns s ts)
  replace h := h.of_keepsRun (.turns s ts)
  cases m with
  | host =>
    obtain ⟨u, hu, hk⟩ := hostTurn_effect hm
    exact (h.hostEffect hi hu).of_keepsRun hk
  | access a j => cases hm; exact h.runAccess a j
  | engine => exact .of_idle (engineTurn_idle hm)
  | drain => cases hm; exact h.drainOne
  | reset => cases hm; exact .of_idle rfl

/-! ### What commands and steps leave unchanged -/

/-- Settles O22: the frame of every command, field by field. -/
theorem commandsKeepHostRegisters : Obligations.CommandsKeepHostRegisters := by
  intro i s t h
  have k := exec_keepsHostSide h
  exact ⟨k.cfg, k.ie, k.cmd, k.dst, k.src, k.ctl, k.opa, k.opb, k.opc, k.latch, k.windows, k.unseen, k.host, k.turns⟩

/-- A command changes `RES` only as one of the four register mixes that completes without error (R35). -/
theorem exec_res {i : Instr} {s t : State} (h : exec i s = .next t) (changed : t.res ≠ s.res) :
    (i = .cmix1 ∨ i = .xmix1 ∨ i = .pcmix2 ∨ i = .pxmix2) ∧ t.status = s.status.completed := by
  have packed : ∀ r, (s.runPacked r).res ≠ s.res → (s.runPacked r).status = s.status.completed := by
    intro r
    unfold State.runPacked
    cases s.cfg.variant
    · exact fun hr => absurd rfl hr
    · exact fun _ => rfl
  cases i <;> cases h
  case nop => exact absurd rfl changed
  case cmix => exact absurd (runBlock_res s _) changed
  case xmix => exact absurd (runBlock_res s _) changed
  case cmix1 => exact ⟨by simp, rfl⟩
  case xmix1 => exact ⟨by simp, rfl⟩
  case pcmix2 => exact ⟨by simp, packed _ changed⟩
  case pxmix2 => exact ⟨by simp, packed _ changed⟩

/-- The engine's move changes `RES` only by running a command in `RUN`. -/
theorem engineTurn_res {s t : State} (h : s.engineTurn = .next t) (changed : t.res ≠ s.res) :
    s.status.busy = true ∧ ∃ i, decode s.cfg.variant s.latch.cmd = .ok i ∧ exec i s = .next t := by
  rcases engineTurn_cases s with ⟨-, hs⟩ | ⟨busy, i, hd, hs⟩ | ⟨-, -, hs⟩ <;> rw [hs] at h
  · cases h; exact absurd rfl changed
  · exact ⟨busy, i, hd, h⟩
  · cases h; exact absurd rfl changed

/-- The host's accesses leave `RES` and the build alone. -/
theorem hostTurn_res_cfg {s t : State} (h : s.hostTurn = .next t) : t.res = s.res ∧ t.cfg = s.cfg := by
  obtain ⟨u, hu, hk⟩ := hostTurn_effect h
  rw [hk.res, hk.cfg]
  cases hu with
  | none => exact ⟨rfl, rfl⟩
  | accept w _ => obtain ⟨st, he, -⟩ := accept_eq s w; rw [he]; exact ⟨rfl, rfl⟩
  | store x a v _ _ => rcases storeMem_cases s x a v with he | he <;> rw [he] <;> exact ⟨rfl, rfl⟩
  | close _ => exact ⟨rfl, rfl⟩
  | drainAll => exact ⟨rfl, rfl⟩

theorem drainOne_res_cfg (s : State) : s.drainOne.res = s.res ∧ s.drainOne.cfg = s.cfg := by
  unfold State.drainOne
  split <;> exact ⟨rfl, rfl⟩

theorem runAccess_res_cfg (s : State) (a : Access) (j : Nat) :
    (s.runAccess a j).res = s.res ∧ (s.runAccess a j).cfg = s.cfg := by
  rcases runAccess_cases s a j with he | ⟨_, -, -, -, -, he⟩ | ⟨_, _, -, -, -, -, -, -, he⟩ | ⟨_, -, -, -, -, -, he⟩ <;>
    rw [he] <;> exact ⟨rfl, rfl⟩

theorem engineTurn_cfg {s t : State} (h : s.engineTurn = .next t) : t.cfg = s.cfg := by
  rcases engineTurn_cases s with ⟨-, hs⟩ | ⟨-, i, -, hs⟩ | ⟨-, -, hs⟩ <;> rw [hs] at h
  · cases h; rfl
  · exact (exec_keepsHostSide h).cfg
  · cases h; rfl

/-- No step changes the build (R5, R21). -/
theorem step_cfg {s t : State} (h : step s = .next t) : t.cfg = s.cfg := by
  obtain ⟨m, ts, -, hm⟩ := step_next h
  cases m with
  | host => exact (hostTurn_res_cfg hm).2
  | access a j => cases hm; exact (runAccess_res_cfg _ a j).2
  | engine => exact engineTurn_cfg (s := { s with turns := ts }) hm
  | drain => cases hm; exact (drainOne_res_cfg _).2
  | reset => cases hm; simp

/-- Settles O23: of the moves, only the engine's on a register mix and reset can change `RES`; in `RUN` the invariant has `ERR`
clear, and a completion without error leaves it so. -/
theorem resWrittenOnlyByRegisterMixes : Obligations.ResWrittenOnlyByRegisterMixes := by
  refine ⟨fun i s t h noErr changed => ?_, fun s t hi hstep changed => ?_⟩
  · obtain ⟨mix, status⟩ := exec_res h changed
    exact ⟨mix, by rw [status, Status.completed_err, noErr]⟩
  obtain ⟨m, ts, turn, hm⟩ := step_next hstep
  cases m with
  | host => exact absurd (hostTurn_res_cfg hm).1 changed
  | access a j => cases hm; exact absurd (runAccess_res_cfg _ a j).1 changed
  | engine =>
    obtain ⟨busy, i, hd, he⟩ := engineTurn_res hm changed
    obtain ⟨mix, status⟩ := exec_res he changed
    have noErr := (hi.running busy).2.1
    refine .inr ⟨turn.symm.imp And.left fun hs => ⟨ts, hs⟩, busy, ?_, ?_, ?_, i, hd, mix⟩
    · rw [status, Status.completed_busy]
    · rw [status, Status.completed_done]
    · rw [status, Status.completed_err, noErr]
  | drain => cases hm; exact absurd (drainOne_res_cfg _).1 changed
  | reset =>
    refine .inl ?_
    rcases turn with hs | ⟨-, own⟩
    · exact ⟨ts, hs⟩
    · unfold State.ownTurn at own
      split at own <;> cases own

/-! ### The register window -/

theorem getLsbD_bit (b : Bool) (i : Nat) : (bit b).getLsbD i = (decide (i = 0) && b) := by
  cases i <;> simp [bit]

/-- `G` fits the field of `ID` that reports it (R5, R21). -/
theorem gainBits_lt {c : Config} (h : c.wf = true) : c.gainBits < 256 := by
  have := gainBits_range h
  omega

/-- `N` fits the field of `ID` that reports it (R5, R21). -/
theorem blockN_lt {c : Config} (h : c.wf = true) : c.blockN < 65536 := by
  simp only [Config.wf, Bool.and_eq_true, decide_eq_true_eq] at h
  omega

/-- The fields of `ID` as read (R21). -/
theorem idWord_fields {c : Config} (h : c.wf = true) :
    (idWord c).getLsbD 0 = decide (c.variant = .wide) ∧ (idWord c).getLsbD 1 = decide (c.roundMode = .halfDown) ∧
    (idWord c).extractLsb' 2 6 = 0#6 ∧ ((idWord c).extractLsb' 8 8).toNat = c.gainBits ∧
    ((idWord c).extractLsb' 16 16).toNat = c.blockN := by
  refine ⟨?wide, ?rnd, ?zero, ?gain, ?blockN⟩
  case wide => simp only [idWord, BitVec.getLsbD_append, getLsbD_bit]; simp [beq_eq_decide]
  case rnd => simp only [idWord, BitVec.getLsbD_append, getLsbD_bit]; simp [beq_eq_decide]
  all_goals simp only [idWord, BitVec.extractLsb'_append_eq_ite]
  case zero => simp
  case gain => simpa using gainBits_lt h
  case blockN => simpa using blockN_lt h

/-- Settles O35: the fields of `ID` hold the build in full, and `ID` is a function of the build, which no step changes. -/
theorem idReportsBuildForever : Obligations.IdReportsBuildForever :=
  ⟨fun _ h => idWord_fields h, fun _ _ h => congrArg idWord (step_cfg h), fun _ _ => rfl⟩

/-- Settles O36: `CMD` reads as the word acceptance latches or, on an overrun, as before; each plain register is a field of
its own. -/
theorem plainRegistersReadBack : Obligations.PlainRegistersReadBack := by
  refine ⟨fun s => ⟨rfl, rfl, rfl, rfl, rfl, rfl, rfl, rfl⟩, fun s w => ?cmd, fun s r v hr => ?plain, fun _ _ => rfl,
    fun _ _ _ => ⟨rfl, rfl⟩⟩
  case cmd =>
    rcases writeCmd_cases s w with ⟨busy, hw⟩ | ⟨idle, hw⟩
    · exact ⟨_, hw, by simp [busy, State.readReg]⟩
    · obtain ⟨st, he, -⟩ := accept_eq s w
      exact ⟨_, hw, by simp [idle, he, State.readReg]⟩
  case plain =>
    rcases hr with rfl | rfl | rfl | rfl | rfl | rfl <;>
      exact ⟨_, rfl, rfl, fun q hq => by cases q <;> simp [State.readReg] at hq ⊢, rfl, rfl, rfl⟩

/-- The sixteen offsets name their registers (R20, R36). -/
theorem Reg.atOffset_offset (r : Reg) : Reg.atOffset r.offset = some r := by
  cases r
  case reserved k => fin_cases k <;> rfl
  all_goals rfl

/-- A register's offset is that of a word inside the window (R20). -/
theorem Reg.offset_word (r : Reg) : r.offset % 4 = 0 ∧ r.offset + 4 ≤ 64 := by
  cases r
  case reserved k => simp only [Reg.offset]; omega
  all_goals decide

theorem base_aligned {c : Config} (h : c.wf = true) : c.base.toNat % 64 = 0 := by
  simp only [Config.wf, Bool.and_eq_true, beq_iff_eq] at h
  exact h.2

/-- An aligned 32-bit access at a register's address lies in the window and reaches the register (R20, R56). -/
theorem port_reaches {c : Config} (h : c.wf = true) (r : Reg) :
    inWindow c (c.base.toNat + r.offset) 4 = true ∧ portReg c .word (c.base.toNat + r.offset) = some r := by
  have base := base_aligned h
  obtain ⟨aligned, inside⟩ := r.offset_word
  refine ⟨(inWindow_iff _ _ _).mpr (by omega), ?_⟩
  rw [portReg, if_pos ⟨rfl, by omega, by omega⟩, Nat.add_sub_cancel_left, r.atOffset_offset]

/-- A halfword access and a misaligned one reach no register (R56). -/
theorem port_misses (c : Config) {w : Width} {a : Nat} (h : w = .half ∨ a % 4 ≠ 0) : portReg c w a = none := by
  rw [portReg, if_neg]
  rintro ⟨word, aligned, -⟩
  rcases h with h | h
  · rw [word] at h; cases h
  · exact h aligned

/-- Settles O38: the port reaches the register at an aligned word's offset and none for any other access. -/
theorem portReachesRegisters : Obligations.PortReachesRegisters := by
  refine ⟨fun s r v h => ?reaches, fun s w a v _ low high narrow => ?misses⟩
  case reaches =>
    obtain ⟨window, reg⟩ := port_reaches h r
    constructor
    · rw [State.busStore, Width.bytes, if_pos window, reg]
    · rw [State.busLoad, Width.bytes, if_pos window, reg]
  case misses =>
    have window := (inWindow_iff s.cfg a w.bytes).mpr ⟨high, low⟩
    have reg := port_misses s.cfg narrow
    constructor
    · rw [State.busStore, if_pos window, reg]
    · rw [State.busLoad, if_pos window, reg]

/-- The fields of `STATUS` as read (R23 to R27). -/
theorem Status.toWord_fields (t : Status) :
    t.toWord.getLsbD 0 = t.busy ∧ t.toWord.getLsbD 1 = t.done ∧ t.toWord.getLsbD 2 = t.err.isSome ∧
    t.toWord.getLsbD 3 = t.ovr ∧ t.toWord.extractLsb' 4 4 = 0#4 ∧ t.toWord.extractLsb' 8 4 = t.errcode ∧
    t.toWord.extractLsb' 12 20 = 0#20 := by
  refine ⟨?busy, ?done, ?err, ?ovr, ?low, ?errcode, ?high⟩
  case low | errcode | high => simp only [Status.toWord, BitVec.extractLsb'_append_eq_ite]; simp
  all_goals simp only [Status.toWord, BitVec.getLsbD_append, getLsbD_bit]; simp

/-- Settles O32: the fields of the word, with `ERRCODE` written out code by code (R151). -/
theorem statusLayout : Obligations.StatusLayout := by
  intro s
  obtain ⟨busy, done, err, ovr, low, errcode, high⟩ := s.status.toWord_fields
  refine ⟨busy, done, err, ovr, low, errcode.trans ?_, high⟩
  unfold Status.errcode
  rcases s.status.err with _ | e
  · rfl
  · cases e <;> rfl

/-- Settles O33: clearing a flag by a mask bit is the choice between the flag and 0. -/
theorem statusWriteOneToClear : Obligations.StatusWriteOneToClear := by
  have clear : ∀ flag mask : Bool, (flag && !mask) = if mask then false else flag := by decide
  intro s v
  simp only [State.writeReg, Status.writeOneToClear, clear]

/-- `IE` is bit 0 of `CTRL`, and the rest reads as zero (R22). -/
theorem ctrlWord_getLsbD (v : Word) : ctrlWord (v.getLsbD 0) = v &&& 1#32 := by
  apply BitVec.eq_of_getLsbD_eq
  intro i _
  simp only [ctrlWord, BitVec.getLsbD_append, getLsbD_bit, BitVec.getLsbD_and, BitVec.getLsbD_one]
  cases i <;> simp

/-- Settles O34: a write keeps bit 0 of its value alone, and `irq` is a function of it. -/
theorem ctrlStoresOnlyIE : Obligations.CtrlStoresOnlyIE :=
  fun _ => ⟨(by decide : ctrlWord false = 0#32), fun v => ⟨_, rfl, rfl, ctrlWord_getLsbD v, rfl⟩⟩

/-- Settles O42: a fixed state, read register by register. -/
theorem resetStateIsIdle : Obligations.ResetStateIsIdle := by
  refine ⟨fun r hr => ?_, by decide, rfl, rfl, rfl, rfl⟩
  cases r
  case id => exact absurd rfl hr
  all_goals rfl

end Sys2Proof.Machine
end

section
/-!
PROOFS. System memory (`20_memory.md`): when the engine and the host access it, and what each of them sees there.
-/

namespace Sys2Proof.Machine

/-! ### The register commands -/

/-- Settles O24: the commands that are no block command complete from the latch and the build alone. -/
theorem registerCommandsTouchNoMemory : Obligations.RegisterCommandsTouchNoMemory := by
  intro i s t m register h
  have packed : ∀ r, (s.runPacked r).mem = s.mem ∧
      State.runPacked { s with mem := m } r = { s.runPacked r with mem := m } := by
    intro r
    unfold State.runPacked
    cases s.cfg.variant <;> exact ⟨rfl, rfl⟩
  cases i
  case cmix | xmix => cases register
  case nop | cmix1 | xmix1 => cases h; exact ⟨rfl, rfl⟩
  all_goals
    cases h
    obtain ⟨mem, run⟩ := packed _
    exact ⟨mem, congrArg Host.Outcome.next run⟩

/-! ### The accesses of the engine, one by one -/

theorem operandOf_of_read {c : Config} {l : Latch} {u : Unseen} {f : Fetched} {m : Memory} {o : Operand} {j : Nat}
    {v : Word} (h : Assoc.find? (f.of o) j = some v) : operandOf c l u f m o j = v := by
  rw [operandOf, h, Option.getD_some]

section Access

variable {s : State} {kind : BlockKind} {j : Nat}

/-- An element of the running command that is not yet written can be read (R57). -/
theorem runAccess_read (hf : s.blockInFlight = some kind) (hj : j < elementCount s.cfg) (hn : j ∉ s.progress)
    (o : Operand) : s.runAccess (.read o) j = s.readOperand kind o j := by
  simp [State.runAccess, hf, hj, hn]

/-- An element of the running command that is not yet written can be written, once its reads are made (R57). -/
theorem runAccess_write (hf : s.blockInFlight = some kind) (hj : j < elementCount s.cfg) (hn : j ∉ s.progress) :
    s.runAccess .write j = s.writeResult kind j := by
  simp [State.runAccess, hf, hj, hn]

/-- An element that has been written is not accessed again (R58). -/
theorem runAccess_done (hj : j ∈ s.progress) (x : Access) : s.runAccess x j = s := by
  unfold State.runAccess
  split
  · rfl
  · simp [hj]

/-- A read records its operand, or meets a bus error (R57, R156). -/
theorem readOperand_unread {o : Operand} (ho : usesOperand kind o = true) (hr : Assoc.find? (s.fetched.of o) j = none) :
    s.readOperand kind o j =
      if operandOk s.cfg s.latch o j then
        { s with fetched := s.fetched.put o j (readElement s.cfg s.latch s.unseen s.mem o j) }
      else s.busError := by
  simp [State.readOperand, ho, hr]

/-- An operand is read once (R58). -/
theorem readOperand_read {o : Operand} (hr : (Assoc.find? (s.fetched.of o) j).isSome = true) :
    s.readOperand kind o j = s := by
  simp [State.readOperand, Option.isSome_iff_ne_none.mp hr]

/-- An operand the command does not use is not read (R120). -/
theorem readOperand_unused {o : Operand} (ho : usesOperand kind o = false) : s.readOperand kind o j = s := by
  simp [State.readOperand, ho]

/-- The write of an element waits for its reads (R58). -/
theorem writeResult_early {o : Operand} (ho : usesOperand kind o = true) (hr : Assoc.find? (s.fetched.of o) j = none) :
    s.writeResult kind j = s := by
  have unread : s.operandsRead kind j ≠ true := fun h => by
    have := (operandsRead_iff s kind j).mp h o ho
    rw [hr] at this
    cases this
  rw [State.writeResult, if_neg unread]

/-- The write of an element stores its result, or meets a bus error (R57, R156). -/
theorem writeResult_ready (h : ∀ o, usesOperand kind o = true → (Assoc.find? (s.fetched.of o) j).isSome = true) :
    s.writeResult kind j =
      if operandOk s.cfg s.latch .input0 j then
        { s with
          mem := finishElement s.cfg kind s.latch s.unseen s.fetched s.mem j
          progress := Assoc.insert s.progress j }
      else s.busError := by
  rw [State.writeResult, if_pos ((operandsRead_iff s kind j).mpr h)]

end Access

/-- An element all of whose operands have been read is their result, whatever memory has become (R58). -/
theorem finishElement_of_read {c : Config} {kind : BlockKind} {l : Latch} {u : Unseen} {f : Fetched} {m : Memory}
    {j : Nat} {a b k : Word} (ha : Assoc.find? f.input0 j = some a) (hb : Assoc.find? f.input1 j = some b)
    (hk : kind = .crossfade → Assoc.find? f.control j = some k) :
    finishElement c kind l u f m j = writeElement c l m j (mixElement c kind a b k) := by
  rw [finishElement, operandOf_of_read (o := .input0) ha, operandOf_of_read (o := .input1) hb]
  cases kind with
  | constant => rw [mixElement_constant]
  | crossfade => rw [operandOf_of_read (o := .control) (hk rfl)]

/-- What `E_BUS` leaves: the destination free, everything else as it was (R156, R157). -/
theorem busError_frame (s : State) :
    ∃ m : Memory,
      s.busError =
        { s with
          mem := m
          fetched := Fetched.empty
          draws := s.draws + 1
          status := { s.status with busy := false, done := true, err := some .bus } } ∧
      (∀ a, a < s.latch.dst.toNat ∨ s.latch.dst.toNat + 2 * s.cfg.blockN ≤ a → m.byte a = s.mem.byte a) ∧
      (∀ a, s.latch.dst.toNat ≤ a → a < s.latch.dst.toNat + 2 * s.cfg.blockN → m.byte a = Config.freeByte s.draws a) := by
  refine ⟨s.busError.mem, rfl, fun a ha => ?_, fun a low high => ?_⟩
  · rw [busError_byte, if_neg (by unfold blockBytes; omega)]
  · rw [busError_byte, if_pos ⟨low, high⟩]

/-- Settles O18, access by access: each clause is the equation of a read or of a write at its condition. -/
theorem accessesAreSeparate : Obligations.AccessesAreSeparate := by
  intro s kind j a b k hf hj hn
  have read := runAccess_read hf hj hn
  have write := runAccess_write hf hj hn
  refine ⟨fun o ho hr => ⟨fun ok => ?first, ?early⟩, ?bus, fun o hr => ?again, ?unused, fun ok ha hb hk => ?result,
    fun t x _ hdone => runAccess_done hdone x⟩
  case first => rw [read, readOperand_unread ho hr, if_pos ok]
  case early => rw [write, writeResult_early ho hr]
  case again => rw [read, readOperand_read hr]
  case unused => rintro rfl; rw [read, readOperand_unused rfl]
  case bus =>
    rintro x (⟨o, rfl, ho, hr, fails⟩ | ⟨rfl, ready, fails⟩)
    · rw [read, readOperand_unread ho hr, fails]
      exact busError_frame s
    · rw [write, writeResult_ready ready, fails]
      exact busError_frame s
  case result =>
    have ready : ∀ o, usesOperand kind o = true → (Assoc.find? (s.fetched.of o) j).isSome = true := by
      rintro (_ | _ | _) ho
      · exact Option.isSome_of_eq_some ha
      · exact Option.isSome_of_eq_some hb
      · cases kind with
        | constant => cases ho
        | crossfade => exact Option.isSome_of_eq_some (hk rfl)
    rw [write, writeResult_ready ready, if_pos ok, finishElement_of_read ha hb hk]

/-- `t` has what the running command has done and latched in `s`. -/
structure State.KeepsAccesses (s t : State) : Prop where
  latch    : t.latch = s.latch
  unseen   : t.unseen = s.unseen
  progress : ∀ j ∈ s.progress, j ∈ t.progress
  fetched  : ∀ o j v, Assoc.find? (s.fetched.of o) j = some v → Assoc.find? (t.fetched.of o) j = some v

theorem State.KeepsAccesses.of_eq {s t : State} (latch : t.latch = s.latch) (unseen : t.unseen = s.unseen)
    (progress : t.progress = s.progress) (fetched : t.fetched = s.fetched) : s.KeepsAccesses t :=
  ⟨latch, unseen, fun _ hj => progress ▸ hj, fun _ _ _ hv => fetched ▸ hv⟩

theorem State.KeepsAccesses.of_keepsRun {s t u : State} (h : s.KeepsAccesses u) (k : u.KeepsRun t) : s.KeepsAccesses t where
  latch := k.latch.trans h.latch
  unseen := k.unseen.trans h.unseen
  progress := by rw [k.progress]; exact h.progress
  fetched := by rw [k.fetched]; exact h.fetched

/-- In `RUN` the host's move touches nothing of what the command has done (R37). -/
theorem hostEffect_keepsAccesses {s t : State} (e : s.HostEffect t) (busy : s.status.busy = true) :
    s.KeepsAccesses t := by
  cases e with
  | none => exact .of_eq rfl rfl rfl rfl
  | accept w idle => rw [busy] at idle; cases idle
  | store w a v _ _ => rcases storeMem_cases s w a v with he | he <;> rw [he] <;> exact .of_eq rfl rfl rfl rfl
  | close _ => exact .of_eq rfl rfl rfl rfl
  | drainAll => exact .of_eq rfl rfl rfl rfl

/-- An access that leaves the command running only adds to what it has done (R57, R58). -/
theorem runAccess_keepsAccesses (s : State) (a : Access) (j : Nat) (busy : (s.runAccess a j).status.busy = true) :
    s.KeepsAccesses (s.runAccess a j) := by
  rcases runAccess_cases s a j with he | ⟨_, -, -, -, -, he⟩ | ⟨_, o, -, -, -, -, -, unread, he⟩ |
    ⟨_, -, -, -, -, -, he⟩ <;> rw [he] at busy ⊢
  · exact .of_eq rfl rfl rfl rfl
  · cases busy
  · refine { State.KeepsAccesses.of_eq rfl rfl rfl rfl with fetched := fun q i v hv => ?_ }
    rw [Fetched.find?_put, if_neg]
    · exact hv
    · rintro ⟨rfl, rfl⟩
      rw [unread] at hv
      cases hv
  · exact { State.KeepsAccesses.of_eq rfl rfl rfl rfl with
      progress := fun i hi => (Assoc.mem_insert _ _ _).mpr (.inr hi) }

/-- Settles O19, move by move: a step that leaves the command running is the host's, a store's or an access, and each of these
keeps what has been done. -/
theorem accessesHappenOnce : Obligations.AccessesHappenOnce := by
  intro s t hstep busy running
  obtain ⟨m, ts, -, hm⟩ := step_next hstep
  have keeps : State.KeepsAccesses { s with turns := ts } t := by
    cases m with
    | host =>
      obtain ⟨u, hu, hk⟩ := hostTurn_effect hm
      exact (hostEffect_keepsAccesses hu busy).of_keepsRun hk
    | access a j => cases hm; exact runAccess_keepsAccesses _ a j running
    | engine => rw [engineTurn_idle hm] at running; cases running
    | drain =>
      cases hm
      unfold State.drainOne
      split <;> exact .of_eq rfl rfl rfl rfl
    | reset => cases hm; cases running
  exact ⟨keeps.latch, keeps.unseen, keeps.progress, keeps.fetched⟩

end Sys2Proof.Machine
end

section
/-!
PROOFS. System memory (`20_memory.md`): what a block command leaves does not depend on the order of its accesses.
-/

namespace Sys2Proof.Machine

/-! ### Memories that hold the same bytes -/

/-- Something has written the byte at `a`: memory lists it (log entry 2). -/
def Memory.listed (m : Memory) (a : Nat) : Prop := (Assoc.find? m a).isSome = true

theorem Memory.listed_put (m : Memory) (a i : Nat) (v : Byte) : (m.put a v).listed i ↔ i = a ∨ m.listed i := by
  rw [Memory.listed, Memory.put, Assoc.find?_put]
  split
  · next h => simp [h]
  · next h => simp [h, Memory.listed]

/-- Canonical memories that list the same addresses and hold the same bytes are the same data (log entry 2). -/
theorem Memory.ext_of_listed {m m' : Memory} (h : m.wf = true) (h' : m'.wf = true)
    (listed : ∀ a, m.listed a ↔ m'.listed a) (bytes : ∀ a, m.byte a = m'.byte a) : m = m' := by
  refine Memory.wf_ext h h' fun a => ?_
  have hl := listed a
  have hb := bytes a
  unfold Memory.listed at hl
  unfold Memory.byte at hb
  cases hm : Assoc.find? m a <;> cases hm' : Assoc.find? m' a <;> simp_all

/-- The address `a` lies in element `j` of the destination (R55, R58). -/
def inElement (c : Config) (l : Latch) (j a : Nat) : Prop :=
  elementAddr c l.dst j ≤ a ∧ a < elementAddr c l.dst j + elementBytes c

theorem listed_writeElement (c : Config) (l : Latch) (m : Memory) (j : Nat) (v : Word) (a : Nat) :
    (writeElement c l m j v).listed a ↔ inElement c l j a ∨ m.listed a := by
  unfold writeElement inElement elementBytes
  cases c.variant
  · simp only [Memory.write16, Memory.listed_put, ← or_assoc]
    exact or_congr_left (by omega)
  · simp only [Memory.write32, Memory.listed_put, ← or_assoc]
    exact or_congr_left (by omega)

/-- The elements write their own bytes and no other. -/
theorem listed_foldl_finishElement (c : Config) (kind : BlockKind) (l : Latch) (u : Unseen) (f : Fetched)
    (js : List Nat) (m : Memory) (a : Nat) :
    (js.foldl (finishElement c kind l u f) m).listed a ↔ (∃ j ∈ js, inElement c l j a) ∨ m.listed a := by
  induction js generalizing m with
  | nil => simp
  | cons j js ih =>
    rw [List.foldl_cons, ih, finishElement, listed_writeElement, List.exists_mem_cons_iff, or_left_comm, or_assoc]

/-- The elements leave the same memory in whatever order they are mixed, if each has the same operands (R58, R122). -/
theorem foldl_finishElement_perm {c : Config} {kind : BlockKind} {l : Latch} (legal : c.wf = true)
    (checks : blockChecks c kind l = none) {u : Unseen} {f f' : Fetched} {js js' : List Nat} {m : Memory}
    (hm : m.wf = true) (perm : js.Perm js') (inside : ∀ j ∈ js, j < elementCount c) (once : js.Nodup)
    (same : ∀ j ∈ js, ∀ o, usesOperand kind o = true → operandOf c l u f m o j = operandOf c l u f' m o j) :
    js.foldl (finishElement c kind l u f) m = js'.foldl (finishElement c kind l u f') m := by
  have apart := blockChecks_apart checks
  have inside' : ∀ j ∈ js', j < elementCount c := fun j hj => inside j (perm.mem_iff.mpr hj)
  refine Memory.ext_of_listed (foldl_finishElement_wf _ _ _ _ _ _ hm inside (blockChecks_inside checks))
    (foldl_finishElement_wf _ _ _ _ _ _ hm inside' (blockChecks_inside checks)) (fun a => ?listed) (fun a => ?byte)
  case listed => simp only [listed_foldl_finishElement, perm.mem_iff]
  case byte =>
    cases ha : inBuffer c l.dst a with
    | false => rw [foldl_finishElement_outside _ _ _ _ _ _ _ inside ha, foldl_finishElement_outside _ _ _ _ _ _ _ inside' ha]
    | true =>
      obtain ⟨j, k, -, hk, rfl⟩ := byte_of_element legal ha
      by_cases hj : j ∈ js
      · rw [foldl_finishElement_element apart u f js m inside once hj hk,
          foldl_finishElement_element apart u f' js' m inside' (perm.nodup_iff.mp once) (perm.mem_iff.mp hj) hk]
        exact finishElement_congr (same j hj) hk
      · rw [foldl_finishElement_other _ _ _ _ _ _ _ hj hk,
          foldl_finishElement_other _ _ _ _ _ _ _ (fun h => hj (perm.mem_iff.mpr h)) hk]

/-! ### An access, then completion -/

/-- The destination elements of a command that passes its checks lie inside the address space (R154). -/
theorem element_inside_space {c : Config} {kind : BlockKind} {l : Latch} (checks : blockChecks c kind l = none) {j : Nat}
    (hj : j < elementCount c) : elementAddr c l.dst j + elementBytes c ≤ addressSpace := by
  have := element_inside hj
  have := blockChecks_inside checks
  unfold elementAddr
  omega

/-- Writing an element takes it, and no other, from those left to do (R37). -/
theorem remaining_perm {s : State} {j : Nat} (hj : j < elementCount s.cfg) (hn : j ∉ s.progress) :
    s.remaining.Perm (j :: State.remaining { s with progress := Assoc.insert s.progress j }) := by
  refine (List.perm_ext_iff_of_nodup (remaining_nodup s) (List.nodup_cons.mpr ⟨?_, remaining_nodup _⟩)).mpr fun i => ?_
  · simp [mem_remaining, Assoc.mem_insert]
  · simp only [List.mem_cons, mem_remaining, Assoc.mem_insert]
    by_cases hij : i = j
    · simp [hij, hj, hn]
    · simp [hij]

/-- A block command runs in a legal build, on memory in canonical form, and none of its accesses meets a bus error. -/
structure State.RunsClean (s : State) (kind : BlockKind) : Prop where
  legal   : s.cfg.wf = true
  memory  : s.mem.wf = true
  running : s.blockInFlight = some kind
  answers : ∀ o j, usesOperand kind o = true → j < elementCount s.cfg → operandOk s.cfg s.latch o j = true

namespace State.RunsClean

variable {s : State} {kind : BlockKind}

theorem checks (h : s.RunsClean kind) : blockChecks s.cfg kind s.latch = none :=
  ((blockInFlight_iff s kind).mp h.running).2.2

theorem elementAnswers (h : s.RunsClean kind) {j : Nat} (hj : j < elementCount s.cfg) :
    elementOk s.cfg kind s.latch j = true := by
  unfold elementOk
  rw [h.answers .input1 j rfl hj, h.answers .input0 j rfl hj]
  cases kind with
  | constant => rfl
  | crossfade => exact h.answers .control j rfl hj

/-- A command that meets no bus error completes with its remaining elements mixed (R162). -/
theorem runBlock_eq (h : s.RunsClean kind) :
    s.runBlock kind = State.complete
      { s with
        mem := s.remaining.foldl (finishElement s.cfg kind s.latch s.unseen s.fetched) s.mem
        progress := List.range (elementCount s.cfg)
        fetched := Fetched.empty } := by
  rcases runBlock_cases s kind with ⟨e, he, -⟩ | ⟨-, ⟨j, hj, fails⟩, -⟩ | ⟨-, -, he⟩
  · rw [h.checks] at he; cases he
  · rw [h.elementAnswers (mem_remaining.mp hj).1] at fails; cases fails
  · exact he

/-- All an access to a command that runs clean can do: nothing, a read of an operand not read yet, or the write of an element
not written yet. -/
theorem runAccess_cases (h : s.RunsClean kind) (a : Access) (j : Nat) :
    s.runAccess a j = s ∨
    (∃ o, Assoc.find? (s.fetched.of o) j = none ∧
      s.runAccess a j = { s with fetched := s.fetched.put o j (readElement s.cfg s.latch s.unseen s.mem o j) }) ∨
    (j < elementCount s.cfg ∧ j ∉ s.progress ∧
      s.runAccess a j =
        { s with
          mem := finishElement s.cfg kind s.latch s.unseen s.fetched s.mem j
          progress := Assoc.insert s.progress j }) := by
  have same : ∀ {kind'}, s.blockInFlight = some kind' → kind' = kind := fun hf =>
    Option.some.inj (hf.symm.trans h.running)
  rcases Machine.runAccess_cases s a j with he | ⟨kind', hf, hj, -, ⟨o, ho, fails⟩, -⟩ |
    ⟨_, o, -, -, -, -, -, unread, he⟩ | ⟨kind', hf, hj, hn, -, -, he⟩
  · exact .inl he
  · cases same hf
    rw [h.answers o j ho hj] at fails
    cases fails
  · exact .inr (.inl ⟨o, unread, he⟩)
  · cases same hf
    exact .inr (.inr ⟨hj, hn, he⟩)

theorem runAccess (h : s.RunsClean kind) (a : Access) (j : Nat) : (s.runAccess a j).RunsClean kind := by
  have memory := runAccess_wf a j h.memory
  rcases h.runAccess_cases a j with he | ⟨_, -, he⟩ | ⟨-, -, he⟩ <;> rw [he] at memory ⊢
  · exact h
  · exact { h with }
  · exact { h with memory }

/-- Reading an operand early does not show after completion: nothing else writes where it is read (R122, R155). -/
theorem runBlock_read (h : s.RunsClean kind) {o : Operand} {j : Nat} (unread : Assoc.find? (s.fetched.of o) j = none) :
    State.runBlock { s with fetched := s.fetched.put o j (readElement s.cfg s.latch s.unseen s.mem o j) } kind =
      s.runBlock kind := by
  have h' : State.RunsClean { s with fetched := s.fetched.put o j (readElement s.cfg s.latch s.unseen s.mem o j) } kind :=
    { h with }
  rw [h.runBlock_eq, h'.runBlock_eq]
  have mem := foldl_finishElement_perm h.legal h.checks (u := s.unseen) (f := s.fetched)
    (f' := s.fetched.put o j (readElement s.cfg s.latch s.unseen s.mem o j)) h.memory (.refl s.remaining)
    (fun i hi => (mem_remaining.mp hi).1) (remaining_nodup s) fun i _ q _ => ?same
  case same =>
    unfold operandOf
    rw [Fetched.find?_put]
    split
    · next hq => rw [hq.1, hq.2, unread]; rfl
    · rfl
  exact congrArg (fun m => State.complete
    { s with mem := m, progress := List.range (elementCount s.cfg), fetched := Fetched.empty }) mem.symm

/-- Writing an element first does not show after completion: no other element reads or writes there (R122, R155). -/
theorem runBlock_write (h : s.RunsClean kind) {j : Nat} (hj : j < elementCount s.cfg) (hn : j ∉ s.progress) :
    State.runBlock
        { s with
          mem := finishElement s.cfg kind s.latch s.unseen s.fetched s.mem j
          progress := Assoc.insert s.progress j } kind =
      s.runBlock kind := by
  have memory := finishElement_wf s.cfg kind s.latch s.unseen s.fetched h.memory (element_inside_space h.checks hj)
  have h' : State.RunsClean
      { s with
        mem := finishElement s.cfg kind s.latch s.unseen s.fetched s.mem j
        progress := Assoc.insert s.progress j } kind := { h with memory }
  rw [h.runBlock_eq, h'.runBlock_eq]
  have mem := foldl_finishElement_perm h.legal h.checks (u := s.unseen) (f := s.fetched) h.memory (remaining_perm hj hn)
    (fun i hi => (mem_remaining.mp hi).1) (remaining_nodup s) fun _ _ _ _ => rfl
  exact congrArg (fun m => State.complete
    { s with mem := m, progress := List.range (elementCount s.cfg), fetched := Fetched.empty }) mem.symm

/-- An access does not show after completion (R122). -/
theorem runBlock_runAccess (h : s.RunsClean kind) (a : Access) (j : Nat) :
    (s.runAccess a j).runBlock kind = s.runBlock kind := by
  rcases h.runAccess_cases a j with he | ⟨o, unread, he⟩ | ⟨hj, hn, he⟩ <;> rw [he]
  · exact h.runBlock_read unread
  · exact h.runBlock_write hj hn

end State.RunsClean

/-! ### A run of accesses -/

theorem exec_block {i : Instr} {kind : BlockKind} (hk : blockKindOf i = some kind) (s : State) :
    exec i s = .next (s.runBlock kind) := by
  obtain ⟨t, ht, ⟨register, -⟩ | ⟨kind', hk', rfl⟩⟩ := exec_cases i s
  · rw [hk] at register; cases register
  · rw [ht, Option.some.inj (hk.symm.trans hk')]

/-- The engine's move completes the block command in flight (R162). -/
theorem engineTurn_block {s : State} {kind : BlockKind} (hf : s.blockInFlight = some kind) :
    s.engineTurn = .next (s.runBlock kind) := by
  obtain ⟨busy, ⟨i, hd, hk⟩, -⟩ := (blockInFlight_iff s kind).mp hf
  rw [← exec_block hk s]
  simp [State.engineTurn, busy, hd]

/-- A command's completion does not look at the moves to come (log entry 5). -/
theorem runBlock_turns (s : State) (kind : BlockKind) (ts : List Turn) :
    State.runBlock { s with turns := ts } kind = { s.runBlock kind with turns := ts } := by
  unfold State.runBlock
  cases blockChecks s.cfg kind s.latch with
  | some e => rfl
  | none =>
    have remaining : State.remaining { s with turns := ts } = s.remaining := rfl
    simp only [remaining]
    cases runElements s.cfg kind s.latch s.unseen s.fetched s.remaining s.mem <;> rfl

theorem runAccess_turns (s : State) (a : Access) (j : Nat) : (s.runAccess a j).turns = s.turns := by
  rcases runAccess_cases s a j with he | ⟨_, -, -, -, -, he⟩ | ⟨_, _, -, -, -, -, -, -, he⟩ | ⟨_, -, -, -, -, -, he⟩ <;>
    simp [he]

/-- A run goes on from the state its first step leads to. -/
theorem run_of_step {s t : State} (h : step s = .next t) (k : Nat) :
    Sys2Proof.core.run (k + 1) s = Sys2Proof.core.run k t := by
  have first : Sys2Proof.core.step s = .next t := h
  simp only [Host.Core.run, first]

/-- The moves of these accesses, one by one, then the engine's to completion. -/
def accessesThenRun (js : List (Access × Nat)) : List Turn :=
  js.map (fun x => Turn.access x.1 x.2) ++ [Turn.engine]

/-- A run of any accesses, then completion, ends as completion at once does. -/
theorem run_accesses {s : State} {kind : BlockKind} (h : s.RunsClean kind) (js : List (Access × Nat))
    (turns : s.turns = accessesThenRun js) :
    Sys2Proof.core.run (js.length + 1) s = .next { s.runBlock kind with turns := [] } := by
  induction js generalizing s with
  | nil =>
    have last : step s = .next (State.runBlock { s with turns := [] } kind) :=
      (step_of_turns_cons turns).trans (engineTurn_block (s := { s with turns := [] }) h.running)
    rw [List.length_nil, run_of_step last, runBlock_turns]
    rfl
  | cons x js ih =>
    obtain ⟨a, j⟩ := x
    have rest : State.RunsClean { s with turns := accessesThenRun js } kind :=
      { h with }
    have first : step s = .next (State.runAccess { s with turns := accessesThenRun js } a j) :=
      step_of_turns_cons turns
    rw [List.length_cons, run_of_step first, ih (rest.runAccess a j) (runAccess_turns _ a j), rest.runBlock_runAccess,
      runBlock_turns]

/-! ### Clean operands -/

/-- A block is not empty (R5). -/
theorem blockN_pos {c : Config} (legal : c.wf = true) : 1 ≤ c.blockN := by
  simp only [Config.wf, Bool.and_eq_true, decide_eq_true_eq] at legal
  omega

theorem apart_iff {c : Config} (legal : c.wf = true) (x y : Word) : apart c x y ↔ overlaps c x y = false := by
  have := blockN_pos legal
  rw [← Bool.not_eq_true, overlaps_iff, apart, blockBytes]
  omega

theorem goodBase_iff {c : Config} (legal : c.wf = true) (b : Word) :
    goodBase c b ↔ b.toNat % elementBytes c = 0 ∧ outOfRange c b = false := by
  have := blockN_pos legal
  rw [← Bool.not_eq_true, outOfRange_iff, goodBase, blockBytes]
  omega

/-- Good bases, with the destination apart from what is read, pass the start checks (R151). -/
theorem blockChecks_of_good {c : Config} {kind : BlockKind} {l : Latch} (legal : c.wf = true)
    (bases : ∀ b ∈ checkedBases kind l, goodBase c b) (src : apart c l.dst l.src)
    (ctl : kind = .crossfade → apart c l.dst l.ctl) : blockChecks c kind l = none := by
  have good := fun b hb => (goodBase_iff legal b).mp (bases b hb)
  rw [apart_iff legal] at src
  simp only [apart_iff legal] at ctl
  have aligned : ((checkedBases kind l).any fun b => b.toNat % elementBytes c != 0) = false :=
    List.any_eq_false.mpr fun b hb => by simp [(good b hb).1]
  have range : (checkedBases kind l).any (outOfRange c) = false :=
    List.any_eq_false.mpr fun b hb => by simp [(good b hb).2]
  cases kind with
  | constant => simp [blockChecks, aligned, range, src]
  | crossfade => simp [blockChecks, aligned, range, src, ctl rfl]

/-- A command with clean operands passes its checks and meets no bus error. -/
theorem clean_runs {c : Config} {kind : BlockKind} {l : Latch} (legal : c.wf = true)
    (constant : kind = .constant → cleanCmix c l) (crossfade : kind = .crossfade → cleanXmix c l) :
    blockChecks c kind l = none ∧
      ∀ o j, usesOperand kind o = true → j < elementCount c → operandOk c l o j = true := by
  cases kind with
  | constant =>
    obtain ⟨dst, src, apart, reachDst, reachSrc⟩ := constant rfl
    refine ⟨blockChecks_of_good legal (by simp [checkedBases, dst, src]) apart nofun, fun o j ho hj => ?_⟩
    cases o with
    | input0 => exact reachDst j hj
    | input1 => exact reachSrc j hj
    | control => cases ho
  | crossfade =>
    obtain ⟨dst, src, ctl, apartSrc, apartCtl, reachDst, reachSrc, reachCtl⟩ := crossfade rfl
    refine ⟨blockChecks_of_good legal (by simp [checkedBases, dst, src, ctl]) apartSrc fun _ => apartCtl,
      fun o j _ hj => ?_⟩
    cases o with
    | input0 => exact reachDst j hj
    | input1 => exact reachSrc j hj
    | control => exact reachCtl j hj

/-- Settles O17: no access shows after completion, so none of the list does. -/
theorem elementOrderDoesNotShow : Obligations.ElementOrderDoesNotShow := by
  intro s i kind js legal memory busy _ _ turns hd hk constant crossfade
  obtain ⟨checks, answers⟩ := clean_runs legal constant crossfade
  have running := (blockInFlight_iff s kind).mpr ⟨busy, ⟨i, hd, hk⟩, checks⟩
  have start : State.RunsClean { s with turns := accessesThenRun js } kind :=
    { legal, memory, running, answers }
  have own : { s.runBlock kind with turns := [] } = s.runBlock kind := by
    rw [← turns, ← (runBlock_keepsHostSide s kind).turns]
  have atOnce : exec i s = .next { s.runBlock kind with turns := [] } := by rw [own, exec_block hk]
  have byAccesses := run_accesses start js rfl
  rw [runBlock_turns] at byAccesses
  exact byAccesses.trans atOnce.symm

/-! ### Completion -/

/-- Settles O49: an element in `PROGRESS` already holds its final value, and every other is mixed from its operands at
acceptance. -/
theorem completionDependsOnAcceptanceOnly : Obligations.CompletionDependsOnAcceptanceOnly := by
  intro s kind w ws hi h hf hw ordered answers
  obtain ⟨w', ws', hw', -, -, tracks⟩ := h kind hf
  obtain ⟨rfl, rfl⟩ := List.cons.inj (hw.symm.trans hw')
  replace tracks := tracks ordered
  obtain ⟨busy, -, checks⟩ := (blockInFlight_iff s kind).mp hf
  have apart := blockChecks_apart checks
  have inside : ∀ i ∈ s.remaining, i < elementCount s.cfg := fun i hi => (mem_remaining.mp hi).1
  rcases runBlock_cases s kind with ⟨e, he, -⟩ | ⟨-, ⟨j, hj, fails⟩, -⟩ | ⟨-, -, he⟩
  · rw [checks] at he; cases he
  · rw [answers j (inside j hj)] at fails; cases fails
  refine ⟨s.runBlock kind, engineTurn_block hf, ?_, ?_, fun j k hj hk => ?_, fun a ha => ?_⟩ <;> rw [he]
  · rfl
  · exact (hi.running busy).2.1
  · by_cases hp : j ∈ s.progress
    · obtain ⟨-, -, dst, -⟩ := tracks
      have kept : j ∉ s.remaining := fun hr => (mem_remaining.mp hr).2 hp
      exact (foldl_finishElement_other _ _ _ _ _ _ _ kept hk).trans ((dst j k hj hk).trans (if_pos hp))
    · exact (foldl_finishElement_element apart _ _ _ _ inside (remaining_nodup s) (mem_remaining.mpr ⟨hj, hp⟩) hk).trans
        (finishElement_congr (fun o ho => tracks.operandOf ho hj hp) hk)
  · exact foldl_finishElement_outside _ _ _ _ _ _ _ inside ha

end Sys2Proof.Machine
end

section
/-!
PROOFS. System memory (`20_memory.md`): the host's reads of registers, its stores, and what its loads see.
-/

namespace Sys2Proof.Machine

/-- Settles O37: a read at most closes the hazard windows, and no register shows them. -/
theorem readsHaveNoSideEffect : Obligations.ReadsHaveNoSideEffect := by
  intro s r q
  rcases afterRead_cases s r with he | ⟨-, -, he⟩ <;> rw [he]
  · exact ⟨rfl, rfl, rfl, rfl, rfl⟩
  · exact ⟨by cases q <;> rfl, rfl, rfl, rfl, rfl⟩

/-! ### Host stores -/

theorem drainOne_nil {s : State} (h : s.host.pending = []) : s.drainOne = s := by
  simp [State.drainOne, h]

theorem drainOne_cons {s : State} {p : PendingStore} {ps : List PendingStore} (h : s.host.pending = p :: ps) :
    s.drainOne = { s with mem := s.mem.store p.width p.addr p.value, host := { s.host with pending := ps } } := by
  simp [State.drainOne, h, applyStore]

theorem drainAll_nil {s : State} (h : s.host.pending = []) : s.drainAll = s := by
  have host : { s.host with pending := [] } = s.host := by rw [← h]
  rw [State.drainAll, h, host, List.foldl_nil]

/-- The barrier completes the oldest store, then the others (R62, R63). -/
theorem drainAll_cons {s : State} {p : PendingStore} {ps : List PendingStore} (h : s.host.pending = p :: ps) :
    s.drainAll = s.drainOne.drainAll := by
  rw [drainOne_cons h, State.drainAll, h, List.foldl_cons]
  rfl

/-- A store that meets neither the register window nor a held buffer is performed (R62, R185). -/
theorem busStore_free {s : State} {w : Width} {a : Nat} (window : inWindow s.cfg a w.bytes = false)
    (inside : a + w.bytes ≤ addressSpace) (ok : s.cfg.memOk a w.bytes = true) (free : s.hazard a w.bytes = false)
    (v : Word) : s.busStore w a v = .next (s.storeMem w a v) := by
  simp [State.busStore, window, ok, free, Nat.not_lt.mpr inside]

theorem storeMem_ordered {s : State} (h : s.cfg.platform = .ordered) (w : Width) (a : Nat) (v : Word) :
    s.storeMem w a v = { s with mem := s.mem.store w a v } := by
  rw [State.storeMem, h]

theorem storeMem_weak {s : State} (h : s.cfg.platform = .weak) (w : Width) (a : Nat) (v : Word) :
    s.storeMem w a v =
      { s with host := { s.host with pending := s.host.pending ++ [{ addr := a, width := w, value := v }] } } := by
  rw [State.storeMem, h]

/-- Settles O56: stores drain from the front of the buffer, and a new one goes behind the others. -/
theorem hostStoresComplete : Obligations.HostStoresComplete := by
  refine ⟨fun s => ⟨fun h => ⟨drainOne_nil h, drainAll_nil h⟩, fun p ps h => ⟨drainOne_cons h, drainAll_cons h⟩, rfl⟩, ?_⟩
  intro s w a v window inside ok free
  refine ⟨s.storeMem w a v, busStore_free window inside ok free v, fun ordered => ?_, fun weak => ?_⟩
  · rw [storeMem_ordered ordered]
    exact ⟨rfl, rfl⟩
  · rw [storeMem_weak weak]
    exact ⟨rfl, List.foldl_append, rfl, rfl⟩

/-! ### A start before the host's stores complete -/

/-- The words of the block commands decode on either variant (R71). -/
theorem decode_encode_block {i : Instr} {kind : BlockKind} (hk : blockKindOf i = some kind) (v : Variant) :
    decode v (encode i) = .ok i := by
  cases i
  case cmix => exact Laws.RoundTrip.cmix v rfl
  case xmix => exact Laws.RoundTrip.xmix v rfl
  all_goals cases hk

/-- The stores outstanding at a block command's acceptance are those that meet its buffers (R62). -/
theorem mem_strayStores {s : State} {w : Word} {i : Instr} {kind : BlockKind}
    (hc : startChecks s.cfg (s.latchOf w) = none) (hd : decode s.cfg.variant w = .ok i) (hk : blockKindOf i = some kind)
    (p : PendingStore) :
    p ∈ s.strayStores w ↔
      p ∈ s.host.pending ∧ meetsBuffers s.cfg kind (s.latchOf w) p.addr p.width.bytes = true := by
  simp only [State.strayStores, hc, hd, hk, List.mem_filter]

/-- Settles O57: the bytes the command's reads do not see are those of the stores outstanding at its acceptance. -/
theorem unorderedStartReadsFree : Obligations.UnorderedStartReadsFree := by
  intro s i kind idle hk hc
  have accepted : s.writeReg .cmd (encode i) = .next (s.latchCommand (encode i)) := by
    simp [State.writeReg, State.writeCmd, State.accept, idle, hc]
  have stray := mem_strayStores hc (decode_encode_block hk _) hk
  refine ⟨_, accepted, rfl, rfl, rfl, rfl, rfl, rfl, fun p hp meets a low high o m => ?free, fun a far o m => ?seen⟩
  case free =>
    rw [State.latchCommand_unseen, engineByte_unseenBy, if_pos ⟨p, (stray p).mpr ⟨hp, meets⟩, low, high⟩]
  case seen =>
    rw [State.latchCommand_unseen, engineByte_unseenBy, if_neg]
    rintro ⟨p, hp, low, high⟩
    obtain ⟨pending, meets⟩ := (stray p).mp hp
    have := far p pending meets
    omega

/-! ### Host loads -/

/-- With none of its own stores waiting and the byte not stale, the host sees memory under the hazard windows (R66, R185). -/
theorem hostByte_fresh {s : State} {a : Nat} (pending : s.host.pending = [])
    (fresh : ∀ r ∈ s.host.stale, a < r.first ∨ r.last < a) :
    s.hostByte a = raceByte s.cfg s.blockInFlight.isSome s.draws s.windows s.mem a := by
  have notStale : (s.host.stale.any fun r => decide (r.first ≤ a) && decide (a ≤ r.last)) = false := by
    refine List.any_eq_false.mpr fun r hr => ?_
    have := fresh r hr
    simp only [Bool.and_eq_true, decide_eq_true_eq]
    omega
  have view : Assoc.find? (pendingView s.host.pending) a = none := by rw [pending]; rfl
  simp [State.hostByte, view, notStale]

/-- A stale byte is any value (R66). -/
theorem hostByte_stale {s : State} {a : Nat} (pending : s.host.pending = [])
    (stale : ∃ r ∈ s.host.stale, r.first ≤ a ∧ a ≤ r.last) : s.hostByte a = Config.freeByte s.draws a := by
  have isStale : (s.host.stale.any fun r => decide (r.first ≤ a) && decide (a ≤ r.last)) = true := by
    simpa [List.any_eq_true] using stale
  have view : Assoc.find? (pendingView s.host.pending) a = none := by rw [pending]; rfl
  simp [State.hostByte, view, isStale]

/-- With no hazard window and nothing waiting or stale, the host sees memory (R186). -/
theorem hostByte_closed {s : State} {a : Nat} (windows : s.windows = []) (pending : s.host.pending = [])
    (fresh : ∀ r ∈ s.host.stale, a < r.first ∨ r.last < a) : s.hostByte a = s.mem.byte a := by
  rw [hostByte_fresh pending fresh, windows, raceByte]

theorem staleAfter_ordered {c : Config} (h : c.platform = .ordered) (ws : List Window) (old : List AddrRange) :
    staleAfter c ws old = old := by
  rw [staleAfter, h]

/-- On a `weak` platform the destination of every window that closes becomes stale (R66). -/
theorem mem_staleAfter_weak {c : Config} (h : c.platform = .weak) (ws : List Window) (old : List AddrRange)
    (r : AddrRange) :
    r ∈ staleAfter c ws old ↔
      (∃ w ∈ ws, { first := w.latch.dst.toNat, last := w.latch.dst.toNat + blockBytes c - 1 } = r) ∨ r ∈ old := by
  simp only [staleAfter, h, List.mem_append, List.mem_map]

/-- A buffer is the range from its base to its last byte (R51). -/
theorem inBuffer_iff_range {c : Config} (legal : c.wf = true) (b : Word) (a : Nat) :
    inBuffer c b a = true ↔ b.toNat ≤ a ∧ a ≤ b.toNat + blockBytes c - 1 := by
  have := blockN_pos legal
  rw [inBuffer_iff, blockBytes]
  omega

/-- Settles O55: the read closes every window, and leaves stale what it closes on a `weak` platform alone. -/
theorem doneReadMakesMemoryVisible : Obligations.DoneReadMakesMemoryVisible := by
  intro s done pending stale
  have read : s.afterRead .status = s.closeWindows := by rw [State.afterRead, if_pos done]
  have waiting : s.closeWindows.host.pending = [] := pending
  refine ⟨s.closeWindows, read, rfl, rfl, fun ordered a => ?_, fun weak legal => ?_⟩
  · refine hostByte_closed rfl waiting fun r hr => ?_
    rw [State.closeWindows_host, staleAfter_ordered ordered, stale] at hr
    cases hr
  · have stale_iff : ∀ r, r ∈ s.closeWindows.host.stale ↔ ∃ w ∈ s.windows,
        { first := w.latch.dst.toNat, last := w.latch.dst.toNat + blockBytes s.cfg - 1 } = r := fun r => by
      rw [State.closeWindows_host, mem_staleAfter_weak weak, stale]
      simp
    refine ⟨fun a outside => ?outside, fun a inside => ?inside, rfl, rfl, fun a => ?invalidated⟩
    case outside =>
      refine hostByte_closed rfl waiting fun r hr => ?_
      obtain ⟨w, hw, rfl⟩ := (stale_iff r).mp hr
      have := outside w hw
      rw [← Bool.not_eq_true, inBuffer_iff_range legal] at this
      dsimp only
      omega
    case inside =>
      obtain ⟨w, hw, ha⟩ := inside
      exact hostByte_stale waiting ⟨_, (stale_iff _).mpr ⟨w, hw, rfl⟩, (inBuffer_iff_range legal _ _).mp ha⟩
    case invalidated =>
      exact hostByte_closed rfl waiting fun r hr => absurd hr List.not_mem_nil

/-! ### Loads under hazard windows -/

/-- An aligned element is an element of an aligned buffer, or misses it (R55, R153). -/
theorem aligned_element {c : Config} (legal : c.wf = true) {b : Word} {x : Nat} (hb : b.toNat % elementBytes c = 0)
    (hx : x % elementBytes c = 0) :
    (∃ j, j < elementCount c ∧ x = elementAddr c b j) ∨ ∀ k, k < elementBytes c → inBuffer c b (x + k) = false := by
  have fill := elements_fill legal
  cases hin : inBuffer c b x with
  | true =>
    left
    obtain ⟨j, k, hj, hk, rfl⟩ := byte_of_element legal hin
    refine ⟨j, hj, ?_⟩
    unfold elementAddr at hx ⊢
    unfold elementBytes at hb hx hk ⊢
    cases hv : c.variant <;> simp only [hv] at hb hx hk ⊢ <;> omega
  | false =>
    right
    intro k hk
    rw [← Bool.not_eq_true, inBuffer_iff] at hin ⊢
    unfold elementBytes at fill hb hx hk
    cases hv : c.variant <;> simp only [hv] at fill hb hx hk <;> omega

/-- The bytes of element `j` are those the model takes for it (R185: the choice is per element). -/
theorem element_of_byte (c : Config) (b : Word) (j : Nat) {k : Nat} (hk : k < elementBytes c) :
    (elementAddr c b j + k - b.toNat) / elementBytes c = j := by
  rw [elementAddr, Nat.add_assoc, Nat.add_sub_cancel_left, Nat.mul_add_div (elementBytes_pos c), Nat.div_eq_of_lt hk,
    Nat.add_zero]

/-- A window leaves a load outside its destination to the older ones (R185). -/
theorem raceByte_outside {c : Config} {w : Window} {a : Nat} (h : inBuffer c w.latch.dst a = false) (running : Bool)
    (draw : Nat) (ws : List Window) (m : Memory) :
    raceByte c running draw (w :: ws) m a = raceByte c false draw ws m a := by
  simp [raceByte, h]

/-- A load of a destination byte gets the final value, or what it would get before the command, as its element is chosen
(R185). -/
theorem raceByte_element {c : Config} {w : Window} (passed : w.passed c = true) (ordered : w.ordered = true)
    (running : Bool) (draw : Nat) (ws : List Window) (m : Memory) {j k : Nat} (hj : j < elementCount c)
    (hk : k < elementBytes c) :
    raceByte c running draw (w :: ws) m (elementAddr c w.latch.dst j + k) =
      if Config.raceTakesFinal draw ws.length (elementAddr c w.latch.dst j) then
        finalByte c running w m (elementAddr c w.latch.dst j + k)
      else raceByte c false draw ws w.before (elementAddr c w.latch.dst j + k) := by
  simp [raceByte, passed, ordered, element_inBuffer w.latch.dst hj hk, element_of_byte c w.latch.dst j hk]

/-- All a load of an aligned element can get under the newest window: for all its bytes what the older windows give, the
final values, or what the older windows give before the command. -/
theorem raceByte_cases {c : Config} (legal : c.wf = true) {w : Window} (ordered : w.ordered = true) (running : Bool)
    (draw : Nat) (ws : List Window) (m : Memory) {x : Nat} (hx : x % elementBytes c = 0) :
    (∀ k, k < elementBytes c →
      raceByte c running draw (w :: ws) m (x + k) = raceByte c false draw ws m (x + k)) ∨
    (∃ j, x = elementAddr c w.latch.dst j ∧ ∀ k, k < elementBytes c →
      raceByte c running draw (w :: ws) m (x + k) = finalByte c running w m (x + k)) ∨
    (∀ k, k < elementBytes c →
      raceByte c running draw (w :: ws) m (x + k) = raceByte c false draw ws w.before (x + k)) := by
  cases passed : w.passed c with
  | false => exact .inl fun k _ => raceByte_failed passed running draw ws m _
  | true =>
    have aligned : w.latch.dst.toNat % elementBytes c = 0 := by
      refine ((blockChecks_none (Option.isNone_iff_eq_none.mp passed)).1 w.latch.dst ?_).1
      cases w.kind <;> exact List.mem_cons_self
    rcases aligned_element legal aligned hx with ⟨j, hj, rfl⟩ | miss
    · right
      by_cases final : Config.raceTakesFinal draw ws.length (elementAddr c w.latch.dst j) = true
      · exact .inl ⟨j, rfl, fun k hk => by rw [raceByte_element passed ordered _ _ _ _ hj hk, if_pos final]⟩
      · exact .inr fun k hk => by rw [raceByte_element passed ordered _ _ _ _ hj hk, if_neg final]
    · exact .inl fun k hk => raceByte_outside (miss k hk) running draw ws m

/-- While a command runs, the final value of its element is what the element will be (R122). -/
theorem finalByte_running (c : Config) (w : Window) (m : Memory) (j : Nat) {k : Nat} (hk : k < elementBytes c) :
    finalByte c true w m (elementAddr c w.latch.dst j + k) =
      (elementStep c w.kind w.latch w.before j).byte (elementAddr c w.latch.dst j + k) := by
  rw [finalByte, if_pos rfl, element_of_byte c w.latch.dst j hk]

/-- A load of an aligned element gets what memory holds, or held at one of the acceptances, or what the newest command writes if
it is running. -/
theorem raceByte_whole {c : Config} (legal : c.wf = true) (running : Bool) (draw : Nat) {ws : List Window}
    (ordered : ∀ w ∈ ws, w.ordered = true) (m : Memory) {x : Nat} (hx : x % elementBytes c = 0) :
    (∀ k, k < elementBytes c → raceByte c running draw ws m (x + k) = m.byte (x + k)) ∨
    (∃ w ∈ ws, ∀ k, k < elementBytes c → raceByte c running draw ws m (x + k) = w.before.byte (x + k)) ∨
    (∃ w vs j, ws = w :: vs ∧ running = true ∧ x = elementAddr c w.latch.dst j ∧ ∀ k, k < elementBytes c →
      raceByte c running draw ws m (x + k) = (elementStep c w.kind w.latch w.before j).byte (x + k)) := by
  induction ws generalizing running m with
  | nil => exact .inl fun _ _ => rfl
  | cons w ws ih =>
    obtain ⟨newest, older⟩ := List.forall_mem_cons.mp ordered
    have rest : ∀ m : Memory,
        (∀ k, k < elementBytes c → raceByte c false draw ws m (x + k) = m.byte (x + k)) ∨
        ∃ v ∈ ws, ∀ k, k < elementBytes c → raceByte c false draw ws m (x + k) = v.before.byte (x + k) := fun m =>
      (ih false older m).imp_right fun h => h.resolve_right fun ⟨_, _, _, _, idle, _⟩ => Bool.noConfusion idle
    rcases raceByte_cases legal newest running draw ws m hx with same | ⟨j, rfl, final⟩ | before
    · rcases rest m with h | ⟨v, hv, h⟩
      · exact .inl fun k hk => (same k hk).trans (h k hk)
      · exact .inr (.inl ⟨v, List.mem_cons_of_mem w hv, fun k hk => (same k hk).trans (h k hk)⟩)
    · cases running with
      | false => exact .inl final
      | true =>
        exact .inr (.inr ⟨w, ws, j, rfl, rfl, rfl, fun k hk => (final k hk).trans (finalByte_running c w m j hk)⟩)
    · rcases rest w.before with h | ⟨v, hv, h⟩
      · exact .inr (.inl ⟨w, List.mem_cons_self, fun k hk => (before k hk).trans (h k hk)⟩)
      · exact .inr (.inl ⟨v, List.mem_cons_of_mem w hv, fun k hk => (before k hk).trans (h k hk)⟩)

/-- Settles O54: under each window all bytes of an aligned element have one source, and only the newest command can be
running. -/
theorem hostLoadsDoNotTear : Obligations.HostLoadsDoNotTear := by
  intro s x legal ordered pending stale hx
  have byte : ∀ a, s.hostByte a = raceByte s.cfg s.blockInFlight.isSome s.draws s.windows s.mem a :=
    fun a => hostByte_fresh pending (by simp [stale])
  simp only [byte]
  exact raceByte_whole legal _ s.draws ordered s.mem hx

end Sys2Proof.Machine
end

section
/-!
PROOFS. Encoding (`30_encoding.md`): the command words, the command the engine runs, and the statements of host programs.
-/

namespace Sys2Proof.Machine

/-! ### Command words -/

/-- A word with `RSVD` zero and a command's `OP` is that command's word (R70, R71). -/
theorem eq_encode_of_fields {w : Word} {i : Instr} (rsvd : rsvdField w = 0) (op : opField w = (opcodeOf i).toNat) :
    w = encode i := by
  have high : w.extractLsb' 4 28 = 0#28 := BitVec.eq_of_toNat_eq rsvd
  have low : w.extractLsb' 0 4 = opcodeOf i := BitVec.eq_of_toNat_eq op
  calc w = w.extractLsb' 4 28 ++ w.extractLsb' 0 4 :=
        (BitVec.extractLsb'_append_extractLsb' (w := 28) (len := 4)).symm
    _ = encode i := by rw [high, low, encode]

/-- A word decodes only by its fields: `RSVD` is zero, `OP` is the command's, and the variant has the command (R72). -/
theorem fields_of_decode {v : Variant} {w : Word} {i : Instr} (h : decode v w = .ok i) :
    rsvdField w = 0 ∧ opField w = (opcodeOf i).toNat ∧ i.wf v = true := by
  unfold decode at h
  split at h
  case isTrue => cases h
  case isFalse rsvd =>
    refine ⟨not_not.mp rsvd, ?_⟩
    split at h
    case h_6 op | h_7 op =>
      cases v <;> cases h
      exact ⟨op, rfl⟩
    case h_8 => cases h
    all_goals next op =>
      cases h
      exact ⟨op, rfl⟩

/-- The word of a command decodes to it on a variant that has it (R71). -/
theorem decode_encode {v : Variant} {i : Instr} (has : i.wf v = true) : decode v (encode i) = .ok i := by
  cases i
  case nop => exact Laws.RoundTrip.nop v has
  case cmix => exact Laws.RoundTrip.cmix v has
  case xmix => exact Laws.RoundTrip.xmix v has
  case cmix1 => exact Laws.RoundTrip.cmix1 v has
  case xmix1 => exact Laws.RoundTrip.xmix1 v has
  case pcmix2 => exact Laws.RoundTrip.pcmix2 v has
  case pxmix2 => exact Laws.RoundTrip.pxmix2 v has

/-- Settles O1: a word that decodes has the fields of a command's word and so is that word, which decodes to the command. -/
theorem decodeAgreesWithEncode : Obligations.DecodeAgreesWithEncode := by
  intro v w i
  constructor
  · intro h
    obtain ⟨rsvd, op, has⟩ := fields_of_decode h
    exact ⟨eq_encode_of_fields rsvd op, has⟩
  · rintro ⟨rfl, has⟩
    exact decode_encode has

/-- Settles O2: the seven words by the round trip, the words outside the map one by one. -/
theorem tableWordsDecode : Obligations.TableWordsDecode := by
  have wide (i : Instr) : decode .wide (encode i) = .ok i := decode_encode (by cases i <;> rfl)
  exact ⟨wide .nop, wide .cmix, wide .xmix, wide .cmix1, wide .xmix1, wide .pcmix2, wide .pxmix2, by decide, by decide,
    decode_encode (i := .xmix1) rfl, by decide, by decide⟩

/-! ### The latched command -/

/-- In `RUN` the engine's move is the latched command (R72, R162). -/
theorem engineTurn_of_decode {s : State} {i : Instr} (run : s.status.busy = true)
    (hd : decode s.cfg.variant s.latch.cmd = .ok i) : s.engineTurn = exec i s := by
  rw [State.engineTurn, if_pos run, hd]

/-- In `RUN` the engine moves when nothing outside says who does. -/
theorem ownTurn_of_run {s : State} (run : s.status.busy = true) : s.ownTurn = .engine := by
  rw [State.ownTurn, if_pos run]

/-- A word given whole is the word latched (R70: a command word has 32 bits). -/
theorem withFetchWord_toNat (s : State) (w : Word) : s.withFetchWord 32 w.toNat = s.inFlight w := by
  rw [State.withFetchWord, Nat.mod_eq_of_lt w.isLt, BitVec.ofNat_toNat, BitVec.setWidth_eq]

/-- The step after a word is put in flight is the engine's, on the state that latched it (R161). -/
theorem step_inFlight (s : State) (w : Word) : step (s.inFlight w) = (s.latchCommand w).engineTurn :=
  step_of_turns_cons (s := s.inFlight w) (m := .engine) (ts := s.turns) rfl

/-- Settles O43: in each case the move is the engine's, and its move is the latched command. -/
theorem stepRunsLatchedCommand : Obligations.StepRunsLatchedCommand := by
  refine ⟨fun s ts i run hd turns => ?listed, fun s i run hd turns => ?own, fun s i has => ?fetched⟩
  case listed =>
    calc step s = State.engineTurn { s with turns := ts } := step_of_turns_cons turns
      _ = exec i { s with turns := ts } := engineTurn_of_decode run hd
  case own =>
    calc step s = s.engineTurn := by rw [step_of_turns_nil turns, ownTurn_of_run run, State.move]
      _ = exec i s := engineTurn_of_decode run hd
  case fetched =>
    calc step (s.withFetchWord 32 (encode i).toNat)
        = (s.latchCommand (encode i)).engineTurn := by rw [withFetchWord_toNat, step_inFlight]
      _ = exec i (s.latchCommand (encode i)) := engineTurn_of_decode rfl (decode_encode has)

/-! ### Host accesses -/

/-- The value of a literal, or of a variable that is set (R74). -/
theorem eval_of_known {vars : List (Nat × Word)} {x : HostExpr} {a : Word}
    (h : x = .lit a ∨ ∃ n, x = .var n ∧ Assoc.find? vars n = some a) : x.eval vars = some a := by
  rcases h with rfl | ⟨n, rfl, value⟩
  · rfl
  · exact value

/-- `wr` writes the register (R20, R74). -/
theorem hostStmt_wr {s : State} {y : HostExpr} {v : Word} (legal : s.cfg.wf = true) (hy : y.eval s.host.vars = some v)
    (r : Reg) : s.hostStmt (.wr r y) = thenHostNext (s.writeReg r v) := by
  obtain ⟨store, -⟩ := portReachesRegisters.1 s r v legal
  simp only [State.hostStmt, hy, regAddr, store]

/-- `rd` reads the register into the variable (R20, R74). -/
theorem hostStmt_rd {s : State} (legal : s.cfg.wf = true) (r : Reg) (t : Nat) :
    s.hostStmt (.rd r t) = .next ((s.afterRead r).hostSet t (s.readReg r)) := by
  obtain ⟨-, load⟩ := portReachesRegisters.1 s r 0#32 legal
  simp only [State.hostStmt, State.hostLoadTo, regAddr, load]

/-- `st16` and `st32` store the value at the address (R74). -/
theorem hostStmt_st {s : State} {x y : HostExpr} {a v : Word} (hx : x.eval s.host.vars = some a)
    (hy : y.eval s.host.vars = some v) (w : Width) :
    s.hostStmt (.st w x y) = thenHostNext (s.busStore w a.toNat v) := by
  simp only [State.hostStmt, State.hostStore, hx, hy]

/-- `ld16` and `ld32` load from system memory at an address that answers (R52, R74). -/
theorem hostStmt_ld {s : State} {x : HostExpr} {a : Word} {w : Width} (hx : x.eval s.host.vars = some a)
    (window : inWindow s.cfg a.toNat w.bytes = false) (inside : a.toNat + w.bytes ≤ addressSpace)
    (ok : s.cfg.memOk a.toNat w.bytes = true) (t : Nat) :
    s.hostStmt (.ld w x t) = .next (State.hostSet { s with draws := s.draws + 1 } t (s.hostLoad w a.toNat)) := by
  have load : s.busLoad w a.toNat = .ok (s.hostLoad w a.toNat, { s with draws := s.draws + 1 }) := by
    simp [State.busLoad, window, not_lt.mpr inside, ok]
  simp only [State.hostStmt, State.hostLoadTo, hx, load]

/-- Settles O51: each statement by its equation, at the values its expressions have. -/
theorem hostAccessesAsNotated : Obligations.HostAccessesAsNotated := by
  intro s x y a v t legal hx hy
  have hx := eval_of_known hx
  have hy := eval_of_known hy
  exact ⟨fun r => ⟨hostStmt_wr legal hy r, hostStmt_rd legal r t⟩, hostStmt_st hx hy,
    fun window inside ok => hostStmt_ld (w := .half) hx window inside ok t,
    fun window inside ok => hostStmt_ld (w := .word) hx window inside ok t⟩

/-- Settles O58: the mnemonic stands for the store that the write of its word is, and that reaches `CMD`. -/
theorem mnemonicWritesCmd : Obligations.MnemonicWritesCmd := by
  intro s i legal
  have written : s.hostStmt (.command i) = s.hostStmt (.wr .cmd (.lit (encode i))) := rfl
  exact ⟨written, written.trans (hostStmt_wr legal rfl .cmd)⟩

/-! ### The wait loop -/

/-- A register read leaves the host's program and place alone (R59). -/
theorem afterRead_host (s : State) (r : Reg) :
    (s.afterRead r).host.prog = s.host.prog ∧ (s.afterRead r).host.pc = s.host.pc := by
  rcases afterRead_cases s r with h | ⟨-, -, h⟩ <;> rw [h]
  · exact ⟨rfl, rfl⟩
  · exact ⟨rfl, rfl⟩

theorem hostTurn_of_stmt {s : State} {st : HostStmt} (h : s.host.prog[s.host.pc]? = some st) :
    s.hostTurn = s.hostStmt st := by
  rw [State.hostTurn, h]

/-- A label that no statement before it has is where it stands (log entry 12). -/
theorem labelAt_append {before : List HostStmt} {l : Nat} (new : HostStmt.label l ∉ before) (after : List HostStmt) :
    labelAt (before ++ .label l :: after) l = some before.length := by
  have none_before : before.findIdx? (fun t => t == .label l) = none := by
    rw [List.findIdx?_eq_none_iff]
    intro t ht
    exact beq_false_of_ne fun h => new (h ▸ ht)
  rw [labelAt, List.findIdx?_append, none_before]
  simp [List.findIdx?_cons]

theorem hostGoto_of_label {s : State} {l n : Nat} (h : labelAt s.host.prog l = some n) :
    s.hostGoto l = .next (s.hostAt n) := by
  rw [State.hostGoto, h]

/-- `if t[i] = b goto L` goes to `L` exactly when the bit is `b` (R74). -/
theorem hostStmt_ifBit {s : State} {t l : Nat} {w : Word} (value : Assoc.find? s.host.vars t = some w) (i : Nat)
    (b : Bool) :
    s.hostStmt (.ifGoto (.bit (.var t) i b) l) = if w.getLsbD i = b then s.hostGoto l else .next s.hostNext := by
  have cond : HostCond.eval s.host.vars (.bit (.var t) i b) = some (w.getLsbD i == b) := by
    simp only [HostCond.eval, HostExpr.eval, value]
  rw [State.hostStmt, cond]
  by_cases h : w.getLsbD i = b
  · rw [if_pos h, beq_iff_eq.mpr h]
  · rw [if_neg h, beq_false_of_ne h]

/-- The state after the loop's read of `STATUS` into `t` (R75). -/
def State.polled (s : State) (t : Nat) : State := (s.afterRead .status).hostSet t s.status.toWord

theorem State.polled_prog (s : State) (t : Nat) : (s.polled t).host.prog = s.host.prog := by
  obtain ⟨prog, -⟩ := afterRead_host s .status
  rw [State.polled, State.hostSet_host, prog]

theorem State.polled_pc (s : State) (t : Nat) : (s.polled t).host.pc = s.host.pc + 1 := by
  obtain ⟨-, pc⟩ := afterRead_host s .status
  rw [State.polled, State.hostSet_host, pc]

theorem State.polled_var (s : State) (t : Nat) : Assoc.find? (s.polled t).host.vars t = some s.status.toWord :=
  Assoc.find?_put_same _ t _

/-- The loop's test, after its read, goes back exactly when `DONE` was 0 (R24, R75). -/
theorem polled_test (s : State) (l t : Nat) :
    (s.polled t).hostStmt (.ifGoto (.bit (.var t) 1 false) l) =
      if s.status.done = false then (s.polled t).hostGoto l else .next (s.polled t).hostNext := by
  obtain ⟨-, done, -⟩ := s.status.toWord_fields
  rw [hostStmt_ifBit (s.polled_var t), done]

/-- Settles O59: the first statement of the round is the read, the second the test of what it read, whose label is the loop's;
the other pseudo-instructions have no label before their loop. -/
theorem waitEndsOnDone : Obligations.WaitEndsOnDone := by
  constructor
  case left =>
    intro s before after l t legal prog new pc
    have poll : s.hostTurn = .next (s.polled t) :=
      calc s.hostTurn = s.hostStmt (.rd .status t) := hostTurn_of_stmt (by simp [prog, pc, pseudoWait])
        _ = .next (s.polled t) := hostStmt_rd legal .status t
    have atTest : (s.polled t).host.pc = before.length + 2 := by rw [s.polled_pc, pc]
    have test : (s.polled t).hostTurn =
        if s.status.done = false then (s.polled t).hostGoto l else .next (s.polled t).hostNext :=
      (hostTurn_of_stmt (by simp [s.polled_prog, prog, atTest, pseudoWait])).trans (polled_test s l t)
    cases done : s.status.done with
    | false =>
      have label : labelAt (s.polled t).host.prog l = some before.length := by
        rw [s.polled_prog, prog, List.append_assoc]
        exact labelAt_append new _
      rw [if_pos done, hostGoto_of_label label] at test
      exact ⟨_, _, poll, test, s.polled_var t, s.polled_prog t, nofun, fun _ => rfl⟩
    | true =>
      rw [if_neg (by simp [done])] at test
      exact ⟨_, _, poll, test, s.polled_var t, s.polled_prog t, fun _ => congrArg (· + 1) atTest, nofun⟩
  case right =>
    intro d s k i l t r
    exact ⟨⟨[.wr .dst d, .wr .src s, .command .cmix], by simp, rfl⟩,
      ⟨[.wr .dst d, .wr .src s, .wr .ctl k, .command .xmix], by simp, rfl⟩,
      ⟨[.command i], [.rd .res r], by simp, rfl⟩,
      ⟨[.wr .opa d, .wr .opb s, .command .cmix1], [.rd .res r], by simp, rfl⟩,
      ⟨[.wr .opa d, .wr .opb s, .wr .opc k, .command .xmix1], [.rd .res r], by simp, rfl⟩,
      ⟨[.wr .opa d, .wr .opb s, .command .pcmix2], [.rd .res r], by simp, rfl⟩,
      ⟨[.wr .opa d, .wr .opb s, .wr .opc k, .command .pxmix2], [.rd .res r], by simp, rfl⟩⟩

end Sys2Proof.Machine
end

section
/-!
PROOFS. The numeric core (`40_numeric_core.md`): rounding, products, partial results and the mix, on every legal build.
-/

namespace Sys2Proof.Machine

/-! ### The build's constants -/

theorem half_pos (c : Config) : (0 : Int) < 2 ^ (c.gainBits - 1) := by positivity

theorem gainBits_wide {c : Config} (h : c.variant = .wide) : c.gainBits = 16 := by rw [Config.gainBits, h]

theorem unity_wide {c : Config} (h : c.variant = .wide) : c.unity = 65536 := by
  rw [Config.unity, gainBits_wide h]
  norm_num

theorem unity_narrow {c : Config} (h : c.variant = .narrow) : c.unity = 2 ^ c.gNarrow := by
  rw [Config.unity, Config.gainBits, h]

/-- `G_NARROW` is at most 15, so `U` is at most 32768 on `NARROW` (R5). -/
theorem unity_narrow_le {c : Config} (legal : c.wf = true) (h : c.variant = .narrow) : c.unity ≤ 32768 := by
  simp only [Config.wf, Bool.and_eq_true, decide_eq_true_eq] at legal
  calc c.unity = 2 ^ c.gNarrow := unity_narrow h
    _ ≤ 2 ^ 15 := pow_le_pow_right₀ (by norm_num) (by omega)
    _ = 32768 := by norm_num

/-- `U` is a 16-bit coefficient on `NARROW` with `G` at most 14 only (R110). -/
theorem unity_isCoefficient_iff {c : Config} : c.unity ≤ 32767 ↔ c.variant = .narrow ∧ c.gNarrow ≤ 14 := by
  cases hv : c.variant with
  | wide => simp [unity_wide hv]
  | narrow =>
    calc c.unity ≤ 32767 ↔ (2 : Int) ^ c.gNarrow < 2 ^ 15 := by rw [unity_narrow hv]; omega
      _ ↔ c.gNarrow < 15 := pow_lt_pow_iff_right₀ (by norm_num)
      _ ↔ _ := by simp [Nat.lt_succ_iff]

/-! ### The scaling shift (R102) -/

theorem rshift_halfDown {c : Config} (mode : c.roundMode = .halfDown) (p : Int) :
    rshift c p = (p + 2 ^ (c.gainBits - 1) - 1) / c.unity := by rw [rshift_eq, mode]

theorem rshift_floor {c : Config} (mode : c.roundMode = .floor) (p : Int) : rshift c p = p / c.unity := by
  rw [rshift_eq, mode]

/-- `HALF_DOWN` gives the nearest integer, a tie going down. -/
theorem rshift_halfDown_iff {c : Config} (legal : c.wf = true) (mode : c.roundMode = .halfDown) {p r : Int} :
    rshift c p = r ↔ -c.unity < 2 * (p - r * c.unity) ∧ 2 * (p - r * c.unity) ≤ c.unity := by
  have double := unity_eq_double legal
  rw [rshift_halfDown mode, floor_iff (unity_pos c)]
  omega

theorem rshift_floor_iff {c : Config} (mode : c.roundMode = .floor) {p r : Int} :
    rshift c p = r ↔ 0 ≤ p - r * c.unity ∧ p - r * c.unity < c.unity := by
  rw [rshift_floor mode, floor_iff (unity_pos c)]

/-- Settles O3: each mode's formula, and its property read off the floor division. -/
theorem shiftRoundsAsNamed : Obligations.ShiftRoundsAsNamed := fun _ p _ legal =>
  ⟨fun mode => ⟨rshift_halfDown mode p, rshift_halfDown_iff legal mode⟩,
    fun mode => ⟨rshift_floor mode p, rshift_floor_iff mode⟩⟩

/-- A tie goes down in both modes. -/
theorem rshift_tie {c : Config} (legal : c.wf = true) (x : Int) :
    rshift c (x * c.unity + 2 ^ (c.gainBits - 1)) = x :=
  calc rshift c (x * c.unity + 2 ^ (c.gainBits - 1))
      = rshift c ((2 * x + 1) * 2 ^ (c.gainBits - 1)) := by rw [unity_eq_double legal]; ring_nf
    _ = (2 * x + 1) / 2 := rshift_mul_half legal _
    _ = x := by omega

/-- The products whose shift is a sample: up to the tie above the greatest one. -/
theorem rshift_range {c : Config} (legal : c.wf = true) {p : Int} (low : -32768 * c.unity ≤ p)
    (high : p ≤ 32767 * c.unity + 2 ^ (c.gainBits - 1)) : -32768 ≤ rshift c p ∧ rshift c p ≤ 32767 :=
  ⟨(rshift_mul_unity legal _).ge.trans (rshift_mono c low), (rshift_mono c high).trans (rshift_tie legal _).le⟩

/-! ### Products (R104) -/

/-- The product of a sample and a multiplier lies between the multiplier's products with the extreme samples. -/
theorem sample_mul_range {x : Int} (hx : -32768 ≤ x) (hx' : x ≤ 32767) (m : Int) :
    (0 ≤ m ∧ -32768 * m ≤ x * m ∧ x * m ≤ 32767 * m) ∨ (m ≤ 0 ∧ 32767 * m ≤ x * m ∧ x * m ≤ -32768 * m) :=
  (le_total 0 m).imp
    (fun h => ⟨h, Int.mul_le_mul_of_nonneg_right hx h, Int.mul_le_mul_of_nonneg_right hx' h⟩)
    (fun h => ⟨h, Int.mul_le_mul_of_nonpos_right hx' h, Int.mul_le_mul_of_nonpos_right hx h⟩)

/-- The range of the products with the multipliers of R106. -/
theorem product_range {u x m : Int} (hu : 0 < u) (hx : -32768 ≤ x) (hx' : x ≤ 32767) (hm : u - 32767 ≤ m)
    (hm' : m ≤ u + 32768) : -32768 * (u + 32768) ≤ x * m ∧ x * m ≤ 32767 * (u + 32768) := by
  rcases sample_mul_range hx hx' m with ⟨_, _, _⟩ | ⟨_, _, _⟩ <;> omega

/-- Settles O4: the range of the products in terms of `U`, which is at most 32768 on `NARROW` and 65536 on `WIDE`. -/
theorem productRanges : Obligations.ProductRanges := by
  intro c x m legal hx hx' hm hm'
  obtain ⟨low, high⟩ := product_range (unity_pos c) hx hx' hm hm'
  have double := unity_eq_double legal
  have half := half_pos c
  refine ⟨abs_le.mpr ⟨by omega, by omega⟩, fun wide => ?_, fun narrow => ?_, fun wide => ?_⟩
  · rw [unity_wide wide]
    norm_num
  · have := unity_narrow_le legal narrow
    omega
  · have := unity_wide wide
    omega

/-! ### Partial results (R103) -/

theorem sat16_eq_self_iff {x : Int} : sat16 x = x ↔ -32768 ≤ x ∧ x ≤ 32767 := by unfold sat16; omega

/-- Saturation brings no two values further apart. -/
theorem abs_sat16_sub_le (x y : Int) : |sat16 x - sat16 y| ≤ |x - y| := by
  unfold sat16
  rw [abs_le, abs_eq_max_neg]
  omega

/-- A partial result saturates for no multiplier above `-U` and up to `U` (R112). -/
theorem scale_eq_rshift {c : Config} (legal : c.wf = true) {x m : Int} (hx : -32768 ≤ x) (hx' : x ≤ 32767)
    (hm : -c.unity < m) (hm' : m ≤ c.unity) : scale c x m = rshift c (x * m) := by
  refine sat16_eq_self_iff.mpr ?_
  have double := unity_eq_double legal
  have small := unity_le legal
  have half := half_pos c
  rcases sample_mul_range hx hx' m with ⟨_, low, high⟩ | ⟨_, low, high⟩
  · exact rshift_range legal (by omega) (by omega)
  · exact rshift_range legal (by omega) (by omega)

/-- At the multiplier `U` a sample passes unchanged (R110). -/
theorem scale_unity {c : Config} (legal : c.wf = true) {x : Int} (hx : -32768 ≤ x) (hx' : x ≤ 32767) :
    scale c x c.unity = x := by
  rw [scale, rshift_mul_unity legal, sat16_of_range hx hx']

theorem scale_zero {c : Config} (legal : c.wf = true) (x : Int) : scale c x 0 = 0 := by
  have zero := rshift_mul_unity legal 0
  rw [Int.zero_mul] at zero
  rw [scale, Int.mul_zero, zero]
  rfl

/-- At the multiplier `U / 2` a sample is halved and floored (R109). -/
theorem scale_half {c : Config} (legal : c.wf = true) {x : Int} (hx : -32768 ≤ x) (hx' : x ≤ 32767) :
    scale c x (2 ^ (c.gainBits - 1)) = x / 2 := by
  rw [scale, rshift_mul_half legal, sat16_of_range (by omega) (by omega)]

/-- At the multiplier `-U` the sample -32768 alone saturates (log entry 15). -/
theorem scale_neg_unity_iff {c : Config} (legal : c.wf = true) {x : Int} (hx : -32768 ≤ x) (hx' : x ≤ 32767) :
    scale c x (-c.unity) = rshift c (x * -c.unity) ↔ x ≠ -32768 := by
  have negated : rshift c (x * -c.unity) = -x := by rw [Int.mul_neg, ← Int.neg_mul, rshift_mul_unity legal]
  rw [scale, negated, sat16_eq_self_iff]
  omega

/-! ### The mix (R105 to R110) -/

/-- ConstantMix gives both inputs the multiplier `U / 2` (R108). -/
theorem cmix_eq_halves {c : Config} (legal : c.wf = true) {a b : Int} (ha : -32768 ≤ a) (ha' : a ≤ 32767)
    (hb : -32768 ≤ b) (hb' : b ≤ 32767) : cmix c a b = a / 2 + b / 2 := by
  have rest : c.unity - 2 ^ (c.gainBits - 1) = 2 ^ (c.gainBits - 1) := by
    have := unity_eq_double legal
    omega
  rw [cmix, mix, rest, scale_half legal ha ha', scale_half legal hb hb', sadd16, sat16_of_range (by omega) (by omega)]

/-- Settles O5: each half is floored on every build, so the builds agree. -/
theorem constantMixIsSumOfFloors : Obligations.ConstantMixIsSumOfFloors := by
  intro c a b legal ha ha' hb hb'
  have halves {c : Config} (legal : c.wf = true) : cmix c a b = a / 2 + b / 2 := cmix_eq_halves legal ha ha' hb hb'
  refine ⟨halves legal, rshift_mul_half legal a, scale_half legal ha ha', scale_half legal hb hb', by omega, by omega,
    fun c' legal' => (halves legal').trans (halves legal).symm, ?_⟩
  rw [cmix_eq_halves legal] <;> decide

/-- Settles O6: one of the two multipliers is `U`, the other 0. -/
theorem crossfadeIdentities : Obligations.CrossfadeIdentities := by
  intro c a b legal ha ha' hb hb'
  refine ⟨?zero, ?unity, unity_isCoefficient_iff⟩
  case zero =>
    rw [mix, sub_zero, scale_unity legal ha ha', scale_zero legal, sadd16, add_zero, sat16_of_range ha ha']
  case unity =>
    rw [mix, sub_self, scale_zero legal, scale_unity legal hb hb', sadd16, zero_add, sat16_of_range hb hb']

/-! ### The error of the crossfade (R111) -/

/-- The exact quotient of a product by `U`, which the shift rounds (R111). -/
def quotient (c : Config) (p : Int) : ℚ := (p : ℚ) / (c.unity : ℚ)

theorem quotient_add (c : Config) (p q : Int) : quotient c (p + q) = quotient c p + quotient c q := by
  rw [quotient, Int.cast_add, add_div, quotient, quotient]

theorem unity_pos_rat (c : Config) : (0 : ℚ) < c.unity := Int.cast_pos.mpr (unity_pos c)

/-- The error of a rounded quotient is the remainder it leaves, in units of `U`. -/
theorem sub_quotient (c : Config) (r p : Int) : (r : ℚ) - quotient c p = -quotient c (p - r * c.unity) := by
  have := (unity_pos_rat c).ne'
  rw [quotient, quotient]
  push_cast
  field_simp
  ring

/-- `HALF_DOWN` leaves an error in `[-1/2, 1/2)`. -/
theorem rshift_error_halfDown {c : Config} (legal : c.wf = true) (mode : c.roundMode = .halfDown) (p : Int) :
    -1 / 2 ≤ (rshift c p : ℚ) - quotient c p ∧ (rshift c p : ℚ) - quotient c p < 1 / 2 := by
  obtain ⟨low, high⟩ := (rshift_halfDown_iff legal mode).mp (Eq.refl (rshift c p))
  rw [sub_quotient]
  generalize p - rshift c p * c.unity = d at low high ⊢
  qify at low high
  have above : -1 / 2 < quotient c d := (lt_div_iff₀ (unity_pos_rat c)).mpr (by linarith)
  have below : quotient c d ≤ 1 / 2 := (div_le_iff₀ (unity_pos_rat c)).mpr (by linarith)
  constructor <;> linarith

/-- `FLOOR` leaves an error in `(-1, 0]`. -/
theorem rshift_error_floor {c : Config} (mode : c.roundMode = .floor) (p : Int) :
    -1 < (rshift c p : ℚ) - quotient c p ∧ (rshift c p : ℚ) - quotient c p ≤ 0 := by
  obtain ⟨low, high⟩ := (rshift_floor_iff mode).mp (Eq.refl (rshift c p))
  rw [sub_quotient]
  generalize p - rshift c p * c.unity = d at low high ⊢
  have above : 0 ≤ quotient c d := div_nonneg (Int.cast_nonneg low) (unity_pos_rat c).le
  have below : quotient c d < 1 := (div_lt_one (unity_pos_rat c)).mpr (Int.cast_lt.mpr high)
  constructor <;> linarith

/-- Saturation moves an integer towards every number in the 16-bit range. -/
theorem sat16_towards {n : Int} {e : ℚ} (he : -32768 ≤ e) (he' : e ≤ 32767) :
    min (n : ℚ) e ≤ sat16 n ∧ (sat16 n : ℚ) ≤ max (n : ℚ) e := by
  rw [sat16]
  push_cast
  exact ⟨le_max_of_le_right (le_min (min_le_of_right_le he') (min_le_left _ _)),
    max_le (le_max_of_le_right he) (min_le_of_right_le (le_max_left _ _))⟩

/-- An integer in `[e - 1, e + 1)` is within 1 of every rounding of `e`. -/
theorem abs_sub_rounding_le {n r : Int} {e : ℚ} (low : e - 1 ≤ n) (high : n < e + 1) (hr : r = ⌊e⌋ ∨ r = ⌈e⌉) :
    |n - r| ≤ 1 := by
  have floor_le := Int.floor_le e
  have lt_floor := Int.lt_floor_add_one e
  have le_ceil := Int.le_ceil e
  have ceil_lt := Int.ceil_lt_add_one e
  rw [abs_le]
  rcases hr with rfl | rfl
  · have above : ⌊e⌋ - 1 ≤ n := by qify; linarith
    have below : n < ⌊e⌋ + 2 := by qify; linarith
    omega
  · have above : ⌈e⌉ - 2 < n := by qify; linarith
    have below : n < ⌈e⌉ + 1 := by qify; linarith
    omega

section Crossfade

variable {c : Config} {a b k : Int} (ha : -32768 ≤ a) (ha' : a ≤ 32767) (hb : -32768 ≤ b) (hb' : b ≤ 32767)
  (hk : 0 ≤ k) (hk' : k ≤ c.unity)
include ha ha' hb hb' hk hk'

/-- Under a coefficient between 0 and `U` the exact mix lies between the samples, so in their range. -/
theorem exactMix_range :
    -32768 ≤ quotient c (a * (c.unity - k) + b * k) ∧ quotient c (a * (c.unity - k) + b * k) ≤ 32767 := by
  have rest : 0 ≤ c.unity - k := by omega
  have low : -32768 * (c.unity - k) + -32768 * k ≤ a * (c.unity - k) + b * k := by gcongr
  have high : a * (c.unity - k) + b * k ≤ 32767 * (c.unity - k) + 32767 * k := by gcongr
  rw [← mul_add, sub_add_cancel] at low high
  exact ⟨(le_div_iff₀ (unity_pos_rat c)).mpr (by exact_mod_cast low),
    (div_le_iff₀ (unity_pos_rat c)).mpr (by exact_mod_cast high)⟩

variable (legal : c.wf = true)
include legal

theorem crossfade_partials_exact :
    scale c a (c.unity - k) = rshift c (a * (c.unity - k)) ∧ scale c b k = rshift c (b * k) := by
  have := unity_pos c
  exact ⟨scale_eq_rshift legal ha ha' (by omega) (by omega), scale_eq_rshift legal hb hb' (by omega) hk'⟩

/-- Under a coefficient between 0 and `U` only the sum can saturate (R112). -/
theorem mix_eq_sat16_sum : mix c a b k = sat16 (rshift c (a * (c.unity - k)) + rshift c (b * k)) := by
  obtain ⟨partA, partB⟩ := crossfade_partials_exact ha ha' hb hb' hk hk' legal
  rw [mix, partA, partB, sadd16]

/-- Under `HALF_DOWN` the two errors add up to one in `[-1, 1)`, which saturation does not widen. -/
theorem mix_error_halfDown (mode : c.roundMode = .halfDown) :
    |(mix c a b k : ℚ) - quotient c (a * (c.unity - k) + b * k)| ≤ 1 ∧
      ∀ r : Int, r = ⌊quotient c (a * (c.unity - k) + b * k)⌋ ∨ r = ⌈quotient c (a * (c.unity - k) + b * k)⌉ →
        |mix c a b k - sat16 r| ≤ 1 := by
  obtain ⟨low, high⟩ := exactMix_range ha ha' hb hb' hk hk'
  obtain ⟨lowA, highA⟩ := rshift_error_halfDown legal mode (a * (c.unity - k))
  obtain ⟨lowB, highB⟩ := rshift_error_halfDown legal mode (b * k)
  rw [mix_eq_sat16_sum ha ha' hb hb' hk hk' legal]
  have sum := quotient_add c (a * (c.unity - k)) (b * k)
  generalize quotient c (a * (c.unity - k) + b * k) = e at *
  have above : e - 1 ≤ ((rshift c (a * (c.unity - k)) + rshift c (b * k) : Int) : ℚ) := by push_cast; linarith
  have below : ((rshift c (a * (c.unity - k)) + rshift c (b * k) : Int) : ℚ) < e + 1 := by push_cast; linarith
  generalize rshift c (a * (c.unity - k)) + rshift c (b * k) = n at *
  refine ⟨?_, fun r hr => (abs_sat16_sub_le n r).trans (abs_sub_rounding_le above below hr)⟩
  obtain ⟨least, greatest⟩ := sat16_towards (n := n) low high
  rw [abs_le]
  constructor
  · linarith [le_min above (sub_le_self e zero_le_one)]
  · linarith [max_le below.le (le_add_of_nonneg_right zero_le_one)]

/-- Under `FLOOR` the two errors add up to one in `(-2, 0]`, which saturation does not widen. -/
theorem mix_error_floor (mode : c.roundMode = .floor) :
    quotient c (a * (c.unity - k) + b * k) - 2 < mix c a b k ∧
      (mix c a b k : ℚ) ≤ quotient c (a * (c.unity - k) + b * k) := by
  obtain ⟨low, high⟩ := exactMix_range ha ha' hb hb' hk hk'
  obtain ⟨lowA, highA⟩ := rshift_error_floor mode (a * (c.unity - k))
  obtain ⟨lowB, highB⟩ := rshift_error_floor mode (b * k)
  rw [mix_eq_sat16_sum ha ha' hb hb' hk hk' legal]
  have sum := quotient_add c (a * (c.unity - k)) (b * k)
  generalize quotient c (a * (c.unity - k) + b * k) = e at *
  obtain ⟨least, greatest⟩ := sat16_towards (n := rshift c (a * (c.unity - k)) + rshift c (b * k)) low high
  push_cast at least greatest
  exact ⟨(lt_min (by linarith) (by linarith)).trans_le least, greatest.trans (max_le (by linarith) le_rfl)⟩

end Crossfade

/-- Settles O7: the exact mix is in range, so the errors are those of the partial results and of their sum. -/
theorem crossfadeErrorBound : Obligations.CrossfadeErrorBound := by
  refine ⟨fun c a b k legal ha ha' hb hb' hk hk' => ?bounds, fun c narrow gain mode => ?worked⟩
  case bounds =>
    obtain ⟨partA, partB⟩ := crossfade_partials_exact ha ha' hb hb' hk hk' legal
    refine ⟨partA, partB, ?_⟩
    rintro e _ _ he rfl rfl
    obtain ⟨low, high⟩ : -32768 ≤ e ∧ e ≤ 32767 := he ▸ exactMix_range ha ha' hb hb' hk hk'
    rw [min_eq_right high, max_eq_right low, partA, partB, he]
    exact ⟨fun mode => ⟨rshift_error_halfDown legal mode _, rshift_error_halfDown legal mode _,
        mix_error_halfDown ha ha' hb hb' hk hk' legal mode⟩,
      fun mode => ⟨rshift_error_floor mode _, rshift_error_floor mode _,
        mix_error_floor ha ha' hb hb' hk hk' legal mode⟩⟩
  case worked =>
    have unity : c.unity = 256 := by rw [unity_narrow narrow, gain]; norm_num
    rw [mix, scale, scale, rshift_floor mode, rshift_floor mode, unity]
    decide

/-! ### Saturation (R112) -/

/-- On `WIDE` both modes shift 32767 times 1.5 to 49150 (R112). -/
theorem rshift_wide_above {c : Config} (wide : c.variant = .wide) : rshift c (32767 * (65536 + 32768)) = 49150 := by
  cases mode : c.roundMode with
  | halfDown => rw [rshift_halfDown mode, gainBits_wide wide, unity_wide wide]; norm_num
  | floor => rw [rshift_floor mode, unity_wide wide]; norm_num

/-- Settles O8: the multipliers by the lemmas on partial results, the worked cases by the shift of each mode. -/
theorem saturationPlaces : Obligations.SaturationPlaces := by
  refine ⟨fun _ _ _ legal hx hx' => scale_eq_rshift legal hx hx', fun _ _ legal hx hx' => scale_neg_unity_iff legal hx hx',
    fun c wide => ?above, fun c wide mode => ?below, fun _ _ _ _ => sat16_range _⟩
  case above =>
    rw [scale, rshift_wide_above wide]
    decide
  case below =>
    have shift (p : Int) : rshift c p = (p + 2 ^ 15 - 1) / 65536 := by
      rw [rshift_halfDown mode, gainBits_wide wide, unity_wide wide]
    rw [mix, scale, scale, unity_wide wide]
    simp only [shift]
    decide

end Sys2Proof.Machine
end

section
/-!
PROOFS. The block commands (`41_block_commands.md`): every sample of the destination is mixed, and nothing else changes.
-/

namespace Sys2Proof.Machine

/-! ### A sample inside its element (R51, R143) -/

/-- The element that holds sample `i` of a buffer: its own on `NARROW`, one of two samples on `WIDE` (R54, R143). -/
def sampleElement (c : Config) (i : Nat) : Nat := 2 * i / elementBytes c

/-- Where in its element sample `i` begins, in bytes. -/
def sampleOffset (c : Config) (i : Nat) : Nat := 2 * i % elementBytes c

/-- Sample `i` of a buffer, taken out of the word that holds its element. -/
def sampleOf (c : Config) (i : Nat) (v : Word) : Half := v.extractLsb' (8 * sampleOffset c i) 16

theorem sampleOffset_cases (c : Config) (i : Nat) :
    (c.variant = .narrow ∧ sampleOffset c i = 0) ∨ (c.variant = .wide ∧ sampleOffset c i = 0) ∨
      (c.variant = .wide ∧ sampleOffset c i = 2) := by
  unfold sampleOffset elementBytes
  cases c.variant <;> simp only [true_and, reduceCtorEq, false_and, or_false, false_or] <;> omega

/-- Both bytes of a sample lie in its element. -/
theorem sampleOffset_lt (c : Config) (i : Nat) : sampleOffset c i + 1 < elementBytes c := by
  unfold sampleOffset elementBytes
  split <;> omega

theorem sampleElement_lt {c : Config} (legal : c.wf = true) {i : Nat} (hi : i < c.blockN) :
    sampleElement c i < elementCount c := by
  have fill := elements_fill legal
  rw [blockBytes, Nat.mul_comm] at fill
  rw [sampleElement, Nat.div_lt_iff_lt_mul (elementBytes_pos c), fill]
  omega

theorem sample_address (c : Config) (b : Word) (i : Nat) :
    b.toNat + 2 * i = elementAddr c b (sampleElement c i) + sampleOffset c i := by
  rw [elementAddr, Nat.add_assoc, sampleElement, sampleOffset, Nat.div_add_mod]

/-- A sample of a word is the two bytes of the word that it lies on (R52). -/
theorem sampleOf_eq_bytes (c : Config) (i : Nat) (v : Word) :
    sampleOf c i v = v.extractLsb' (8 * (sampleOffset c i + 1)) 8 ++ v.extractLsb' (8 * sampleOffset c i) 8 :=
  (BitVec.extractLsb'_append_extractLsb'_eq_extractLsb' (Nat.mul_succ 8 _)).symm

/-- The bytes the engine's write of an element leaves in memory (R52). -/
theorem byte_writeElement (c : Config) (l : Latch) (m : Memory) (j : Nat) (v : Word) {k : Nat} (hk : k < elementBytes c) :
    (writeElement c l m j v).byte (elementAddr c l.dst j + k) = v.extractLsb' (8 * k) 8 := by
  unfold writeElement
  unfold elementBytes at hk
  cases hv : c.variant <;> simp only [hv] at hk ⊢
  · obtain rfl | rfl : k = 0 ∨ k = 1 := by omega
    all_goals simp [Memory.byte_write16]
  · obtain rfl | rfl | rfl | rfl : k = 0 ∨ k = 1 ∨ k = 2 ∨ k = 3 := by omega
    all_goals simp [Memory.byte_write32]

/-- The bytes the engine's read of an element gets (R52). -/
theorem byte_readElement (c : Config) (l : Latch) (u : Unseen) (m : Memory) (o : Operand) (j : Nat) {k : Nat}
    (hk : k < elementBytes c) :
    (readElement c l u m o j).extractLsb' (8 * k) 8 = engineByte m u o (elementAddr c (l.baseOf o) j + k) := by
  unfold readElement
  unfold elementBytes at hk
  cases hv : c.variant <;> simp only [hv] at hk ⊢
  · obtain rfl | rfl : k = 0 ∨ k = 1 := by omega
    all_goals simp [BitVec.extractLsb'_append_eq_ite (w := 8)]
  · obtain rfl | rfl | rfl | rfl : k = 0 ∨ k = 1 ∨ k = 2 ∨ k = 3 := by omega
    all_goals simp [BitVec.extractLsb'_append_eq_ite (w := 8)]

/-- The sample the engine's write of an element leaves in memory. -/
theorem read16_writeElement (c : Config) (l : Latch) (m : Memory) (i : Nat) (v : Word) :
    (writeElement c l m (sampleElement c i) v).read16 (l.dst.toNat + 2 * i) = sampleOf c i v := by
  have inside := sampleOffset_lt c i
  rw [sample_address c, Memory.read16, Nat.add_assoc, byte_writeElement c l m _ v inside,
    byte_writeElement c l m _ v (by omega), sampleOf_eq_bytes]

/-- The sample of an operand that the engine's read of its element gets. -/
theorem sampleOf_readElement (c : Config) (l : Latch) (u : Unseen) (m : Memory) (o : Operand) (i : Nat) :
    sampleOf c i (readElement c l u m o (sampleElement c i)) =
      engineByte m u o ((l.baseOf o).toNat + 2 * i + 1) ++ engineByte m u o ((l.baseOf o).toNat + 2 * i) := by
  have inside := sampleOffset_lt c i
  rw [sampleOf_eq_bytes, byte_readElement c l u m o _ inside, byte_readElement c l u m o _ (by omega), ← Nat.add_assoc,
    ← sample_address]

/-- Each sample of an element is mixed by itself, from the samples in its place (R120, R121, R144). -/
theorem sampleOf_mixElement (c : Config) (kind : BlockKind) (a b k : Word) (i : Nat) :
    sampleOf c i (mixElement c kind a b k) =
      trunc16 (mixSample c kind (sampleOf c i a).toInt (sampleOf c i b).toInt (sampleOf c i k).toInt) := by
  rcases sampleOffset_cases c i with ⟨hv, off⟩ | ⟨hv, off⟩ | ⟨hv, off⟩ <;> simp only [mixElement, sampleOf, hv, off]
  · exact BitVec.extractLsb'_append_eq_right
  · exact BitVec.extractLsb'_append_eq_right
  · exact BitVec.extractLsb'_append_eq_left

theorem toInt_sample (v : Half) : -32768 ≤ v.toInt ∧ v.toInt ≤ 32767 := by
  have low := v.le_toInt
  have high := v.toInt_lt
  omega

/-- No mix leaves the 16-bit range, so none is changed by its truncation to a sample (R105, R120). -/
theorem toInt_trunc16_mixSample (c : Config) (kind : BlockKind) (a b k : Int) :
    (trunc16 (mixSample c kind a b k)).toInt = mixSample c kind a b k := by
  have range : -32768 ≤ mixSample c kind a b k ∧ mixSample c kind a b k ≤ 32767 := by
    cases kind <;> exact sat16_range _
  exact BitVec.toInt_ofInt_eq_self (by decide) (by omega) (by omega)

/-! ### A clean block command from its start to its completion -/

theorem elementOk_of_answers {c : Config} {kind : BlockKind} {l : Latch} {j : Nat}
    (answers : ∀ o, usesOperand kind o = true → operandOk c l o j = true) : elementOk c kind l j = true := by
  unfold elementOk
  rw [answers .input1 rfl, answers .input0 rfl]
  cases kind with
  | constant => rfl
  | crossfade => exact answers .control rfl

/-- Memory with every element of the block mixed, from operands that are all read in the course of it. -/
def State.mixedMemory (s : State) (kind : BlockKind) : Memory :=
  (List.range (elementCount s.cfg)).foldl (finishElement s.cfg kind s.latch s.unseen Fetched.empty) s.mem

/-- A block command not yet begun that meets no bus error completes (R162). Neither `BUSY` nor the canonical form of memory
is needed for it. -/
theorem runBlock_of_fresh {s : State} {kind : BlockKind} (progress : s.progress = [])
    (fetched : s.fetched = Fetched.empty) (checks : blockChecks s.cfg kind s.latch = none)
    (answers : ∀ o j, usesOperand kind o = true → j < elementCount s.cfg → operandOk s.cfg s.latch o j = true) :
    s.runBlock kind =
      { s with
        mem := s.mixedMemory kind
        progress := List.range (elementCount s.cfg)
        status := { s.status with busy := false, done := true } } := by
  have remaining : s.remaining = List.range (elementCount s.cfg) := by simp [State.remaining, progress]
  rcases runBlock_cases s kind with ⟨e, he, -⟩ | ⟨-, ⟨j, hj, fails⟩, -⟩ | ⟨-, -, he⟩
  · rw [checks] at he; cases he
  · rw [elementOk_of_answers fun o ho => answers o j ho (mem_remaining.mp hj).1] at fails; cases fails
  · rw [he, remaining, fetched]
    rfl

/-- Every sample of the destination is the mix of the operands' samples in its place (R120, R121, R143). -/
theorem sampleAt_mixedMemory {s : State} {kind : BlockKind} (legal : s.cfg.wf = true)
    (checks : blockChecks s.cfg kind s.latch = none) {i : Nat} (hi : i < s.cfg.blockN) :
    sampleAt (s.mixedMemory kind) s.latch.dst i =
      mixSample s.cfg kind (s.operandSample .input0 i) (s.operandSample .input1 i) (s.operandSample .control i) := by
  have element : ∀ k, k < elementBytes s.cfg →
      (s.mixedMemory kind).byte (elementAddr s.cfg s.latch.dst (sampleElement s.cfg i) + k) =
        (finishElement s.cfg kind s.latch s.unseen Fetched.empty s.mem (sampleElement s.cfg i)).byte
          (elementAddr s.cfg s.latch.dst (sampleElement s.cfg i) + k) := fun k hk =>
    foldl_finishElement_element (blockChecks_apart checks) _ _ _ _ (fun _ => List.mem_range.mp) List.nodup_range
      (List.mem_range.mpr (sampleElement_lt legal hi)) hk
  have inside := sampleOffset_lt s.cfg i
  have stored : (s.mixedMemory kind).read16 (s.latch.dst.toNat + 2 * i) =
      (finishElement s.cfg kind s.latch s.unseen Fetched.empty s.mem (sampleElement s.cfg i)).read16
        (s.latch.dst.toNat + 2 * i) := by
    rw [sample_address s.cfg]
    exact Memory.read16_congr (element _ (by omega)) (element _ inside)
  rw [sampleAt, stored, finishElement, read16_writeElement, sampleOf_mixElement, toInt_trunc16_mixSample]
  simp only [operandOf_empty, sampleOf_readElement]
  rfl

theorem byte_mixedMemory_outside (s : State) (kind : BlockKind) {a : Nat}
    (ha : a < s.latch.dst.toNat ∨ s.latch.dst.toNat + 2 * s.cfg.blockN ≤ a) :
    (s.mixedMemory kind).byte a = s.mem.byte a := by
  refine foldl_finishElement_outside _ _ _ _ _ _ _ (fun _ => List.mem_range.mp) ?_
  rw [← Bool.not_eq_true, inBuffer_iff, blockBytes]
  omega

/-- With every host store completed before acceptance, the input samples are memory's (R62). -/
theorem operandSample_seen {s : State} (seen : s.unseen.ranges = []) (o : Operand) (i : Nat) :
    s.operandSample o i = sampleAt s.mem (s.latch.baseOf o) i := by
  rw [State.operandSample, engineByte_seen seen, engineByte_seen seen]
  rfl

/-- Settles O15: the mix of each sample under `U / 2` is the sum of the floors of the halves. -/
theorem cmixResult : Obligations.CmixResult := by
  intro s legal progress fetched clean
  obtain ⟨checks, answers⟩ := clean_runs (kind := .constant) legal (fun _ => clean) nofun
  refine ⟨s.mixedMemory .constant, ?next, fun i hi => ?sample, fun seen i => ?seen,
    fun _ => byte_mixedMemory_outside s .constant⟩
  case next => rw [exec_block rfl, runBlock_of_fresh progress fetched checks answers]
  case sample =>
    obtain ⟨low0, high0⟩ : -32768 ≤ s.operandSample .input0 i ∧ s.operandSample .input0 i ≤ 32767 := toInt_sample _
    obtain ⟨low1, high1⟩ : -32768 ≤ s.operandSample .input1 i ∧ s.operandSample .input1 i ≤ 32767 := toInt_sample _
    exact (sampleAt_mixedMemory legal checks hi).trans (cmix_eq_halves legal low0 high0 low1 high1)
  case seen => exact ⟨operandSample_seen seen .input0 i, operandSample_seen seen .input1 i⟩

/-- Settles O16: each sample is mixed by itself, whatever element holds it. -/
theorem xmixResult : Obligations.XmixResult := by
  intro s legal progress fetched clean
  obtain ⟨checks, answers⟩ := clean_runs (kind := .crossfade) legal nofun fun _ => clean
  refine ⟨s.mixedMemory .crossfade, ?next, fun i hi => sampleAt_mixedMemory legal checks hi, fun seen i => ?seen,
    fun _ => byte_mixedMemory_outside s .crossfade⟩
  case next => rw [exec_block rfl, runBlock_of_fresh progress fetched checks answers]
  case seen =>
    exact ⟨operandSample_seen seen .input0 i, operandSample_seen seen .input1 i, operandSample_seen seen .control i⟩

end Sys2Proof.Machine
end

section
/-!
PROOFS. The register commands (`42_register_commands.md`): each completes, and changes `RES` at most.
-/

namespace Sys2Proof.Machine

/-! ### What each register command does (R130 to R132) -/

theorem exec_nop (s : State) : exec .nop s = .next s.complete := rfl

theorem exec_cmix1 (s : State) :
    exec .cmix1 s = .next (s.completeWith (sext32Of (cmix s.cfg (lowSample s.latch.opa) (lowSample s.latch.opb)))) := rfl

theorem exec_xmix1 (s : State) :
    exec .xmix1 s = .next (s.completeWith
      (sext32Of (mix s.cfg (lowSample s.latch.opa) (lowSample s.latch.opb) (lowSample s.latch.opc)))) := rfl

theorem lowSample_range (w : Word) : -32768 ≤ lowSample w ∧ lowSample w ≤ 32767 := toInt_sample _

/-! ### The stages of the mix, as case distinctions (R101, R102) -/

theorem sat16_eq_ite (x : Int) : sat16 x = if x < -32768 then -32768 else if 32767 < x then 32767 else x := by
  unfold sat16
  omega

theorem rshift_eq_ite (c : Config) (p : Int) :
    rshift c p =
      if c.roundMode = .halfDown then (p + 2 ^ (c.gainBits - 1) - 1) / 2 ^ c.gainBits else p / 2 ^ c.gainBits := by
  cases mode : c.roundMode with
  | halfDown => exact rshift_halfDown mode p
  | floor => exact rshift_floor mode p

/-! ### The obligations -/

/-- Settles O9: `NOP` is a bare completion, which sets `BUSY` and `DONE` alone (R162). -/
theorem nopOnlyCompletes : Obligations.NopOnlyCompletes := exec_nop

/-- Settles O10: a low sample is in the 16-bit range, where ConstantMix is the sum of the floors of the halves (R109). -/
theorem cmix1Result : Obligations.Cmix1Result := by
  intro s legal
  obtain ⟨lowA, highA⟩ := lowSample_range s.latch.opa
  obtain ⟨lowB, highB⟩ := lowSample_range s.latch.opb
  rw [exec_cmix1, cmix_eq_halves legal lowA highA lowB highB]
  rfl

/-- Settles O11: the saturation and the shift written out are the model's, and with them the mix is the model's term. -/
theorem xmix1Result : Obligations.Xmix1Result := by
  rintro s sat sh _ _ _ _ rfl saturates shifts rfl rfl rfl
  obtain rfl : sat = sat16 := funext fun x => (saturates x).trans (sat16_eq_ite x).symm
  obtain rfl : sh = rshift s.cfg := funext fun p => (shifts p).trans (rshift_eq_ite s.cfg p).symm
  exact exec_xmix1 s

end Sys2Proof.Machine
end

section
/-!
PROOFS. The packed commands (`43_packed_commands.md`): two scalar mixes side by side on `WIDE`, illegal on `NARROW`.
-/

namespace Sys2Proof.Machine

/-! ### What each packed command does (R141, R142, R145) -/

theorem exec_pcmix2 (s : State) :
    exec .pcmix2 s = .next (s.runPacked
      (pack2 (cmix s.cfg (lane1 s.latch.opa) (lane1 s.latch.opb))
        (cmix s.cfg (lane0 s.latch.opa) (lane0 s.latch.opb)))) := rfl

theorem exec_pxmix2 (s : State) :
    exec .pxmix2 s = .next (s.runPacked
      (pack2 (mix s.cfg (lane1 s.latch.opa) (lane1 s.latch.opb) (lane1 s.latch.opc))
        (mix s.cfg (lane0 s.latch.opa) (lane0 s.latch.opb) (lane0 s.latch.opc)))) := rfl

theorem runPacked_wide {s : State} (wide : s.cfg.variant = .wide) (r : Word) : s.runPacked r = s.completeWith r := by
  simp only [State.runPacked, wide]

theorem runPacked_narrow {s : State} (narrow : s.cfg.variant = .narrow) (r : Word) :
    s.runPacked r = s.raise .illegal := by
  simp only [State.runPacked, narrow]

/-! ### The lanes of a word (R140) -/

/-- The upper lane, moved down, is the sample a scalar command takes from the word (R73, R140). -/
theorem lowSample_shift (w : Word) : lowSample (w >>> 16) = lane1 w := by
  have halves : (w >>> 16).extractLsb' 0 16 = w.extractLsb' 16 16 := by
    ext i hi
    simp
  rw [lowSample, lane1, halves]

/-- A packed result holds in each lane the low half of the scalar result there (R73, R140). -/
theorem pack2_eq_halves (r1 r0 : Int) :
    pack2 r1 r0 = (sext32Of r1).extractLsb' 0 16 ++ (sext32Of r0).extractLsb' 0 16 := by
  have half (r : Int) : (sext32Of r).extractLsb' 0 16 = trunc16 r := by
    apply BitVec.eq_of_toNat_eq
    simp only [sext32Of, trunc16, BitVec.extractLsb'_toNat, BitVec.toNat_ofInt]
    omega
  rw [pack2, half, half]

/-! ### ConstantMix on samples (R109) -/

/-- On samples, ConstantMix is the sum of the floors of the halves (R109). -/
theorem cmix_samples {c : Config} (legal : c.wf = true) (a b : Half) :
    cmix c (sext16 a) (sext16 b) = sext16 a / 2 + sext16 b / 2 :=
  cmix_eq_halves legal (toInt_sample a).1 (toInt_sample a).2 (toInt_sample b).1 (toInt_sample b).2

/-! ### The start check of a word that is no command -/

/-- A word that does not decode fails its start check as illegal (R152). -/
theorem startChecks_of_error {c : Config} {l : Latch} {e : DecodeError} (h : decode c.variant l.cmd = .error e) :
    startChecks c l = some .illegal := by
  simp only [startChecks, h]

/-! ### The obligations -/

/-- Settles O12: the upper lanes, moved down, are the samples the scalar command mixes, and packing takes the low half of each
scalar result. -/
theorem packedIsTwoScalars : Obligations.PackedIsTwoScalars := by
  rintro s _ _ wide rfl rfl
  constructor
  · refine ⟨_, _, exec_cmix1 _, exec_cmix1 _, ?_⟩
    rw [exec_pcmix2, runPacked_wide wide, pack2_eq_halves, ← lowSample_shift, ← lowSample_shift]
    rfl
  · refine ⟨_, _, exec_xmix1 _, exec_xmix1 _, ?_⟩
    rw [exec_pxmix2, runPacked_wide wide, pack2_eq_halves, ← lowSample_shift, ← lowSample_shift, ← lowSample_shift]
    rfl

/-- Settles O13: both commands complete with their lanes packed; each lane is in the 16-bit range, where ConstantMix is the sum
of the floors of the halves (R109). -/
theorem packedResult : Obligations.PackedResult := by
  intro s legal wide
  constructor
  · rw [exec_pcmix2, runPacked_wide wide, lane1, lane1, lane0, lane0, cmix_samples legal, cmix_samples legal]
    rfl
  · rw [exec_pxmix2, runPacked_wide wide]
    rfl

/-- Settles O14: run, a packed command raises `E_ILLEGAL` on `NARROW`; its word does not decode there, so that its start check
fails too. -/
theorem packedIllegalOnNarrow : Obligations.PackedIllegalOnNarrow := by
  intro s narrow
  have illegal (w : Word) (h : decode .narrow w = .error .packedOnNarrow) :
      startChecks s.cfg (s.latchOf w) = some .illegal :=
    startChecks_of_error (by rw [narrow]; exact h)
  refine ⟨?_, ?_, illegal _ rfl, illegal _ rfl⟩
  · rw [exec_pcmix2, runPacked_narrow narrow]
    rfl
  · rw [exec_pxmix2, runPacked_narrow narrow]
    rfl

end Sys2Proof.Machine
end

section
/-!
PROOFS. Exceptions (`60_exceptions.md`): acceptance and the start checks, how a command completes, the interrupt output, and
the engine's phase.
-/

namespace Sys2Proof.Machine

/-! ### A write to `CMD` (R158, R161) -/

theorem writeReg_cmd_of_run {s : State} (run : s.status.busy = true) (w : Word) :
    s.writeReg .cmd w = .next { s with status := s.status.overrun } := by
  rw [State.writeReg, State.writeCmd, if_pos run]

theorem writeReg_cmd_of_idle {s : State} (idle : s.status.busy = false) (w : Word) :
    s.writeReg .cmd w = .next (s.accept w) := by
  simp [State.writeReg, State.writeCmd, idle]

theorem accept_of_passed {s : State} {w : Word} (h : startChecks s.cfg (s.latchOf w) = none) :
    s.accept w = s.latchCommand w := by
  rw [State.accept, h]

theorem accept_of_failed {s : State} {w : Word} {e : CmdError} (h : startChecks s.cfg (s.latchOf w) = some e) :
    s.accept w = (s.latchCommand w).raise e := by
  rw [State.accept, h]

/-- Settles O31: a word written in `RUN` is dropped, and the overrun flag is all that is written (R158). -/
theorem overrunDropsWord : Obligations.OverrunDropsWord := fun _ w run => writeReg_cmd_of_run run w

/-- A word that is no block command's opens no window (R185). -/
theorem openWindow_of_no_block {c : Config} {l : Latch}
    (h : ∀ i kind, decode c.variant l.cmd = .ok i → blockKindOf i ≠ some kind) (ordered : Bool) (m : Memory)
    (ws : List Window) : openWindow c l ordered m ws = ws := by
  unfold openWindow
  cases hd : decode c.variant l.cmd with
  | error e => rfl
  | ok i =>
    cases hk : blockKindOf i with
    | none => simp [hk]
    | some kind => exact absurd hk (h i kind hd)

/-- The windows open after an acceptance: the new one first for a block command, else those open before (R185). -/
theorem openWindow_spec (c : Config) (l : Latch) (ordered : Bool) (m : Memory) (ws : List Window) :
    (∀ i kind, decode c.variant l.cmd = .ok i → blockKindOf i = some kind →
      openWindow c l ordered m ws = { kind := kind, latch := l, before := m, ordered := ordered } :: ws) ∧
    ((∀ i kind, decode c.variant l.cmd = .ok i → blockKindOf i ≠ some kind) → openWindow c l ordered m ws = ws) :=
  ⟨fun _ _ hd hk => openWindow_block hd hk ordered m ws, fun noBlock => openWindow_of_no_block noBlock ordered m ws⟩

/-- The latching of a word with no host store outstanding on its buffers draws nothing and hides nothing from its reads
(R62, R161). -/
theorem latchCommand_of_ordered {s : State} {w : Word} (h : s.unordered w = false) :
    s.latchCommand w =
      { s with
        latch := s.latchOf w
        cmd := w
        status := s.status.accepted
        progress := []
        fetched := Fetched.empty
        unseen := Unseen.nothing
        windows := openWindow s.cfg (s.latchOf w) true s.mem s.windows } := by
  obtain ⟨stray, unseen⟩ := unordered_false h
  rw [State.latchCommand, stray, unseen, h]
  rfl

/-- Settles O26: a word that passes its checks is latched, and the windows are those its decoding opens. -/
theorem acceptanceLatches : Obligations.AcceptanceLatches := by
  intro s w idle ordered (passed : startChecks s.cfg (s.latchOf w) = none)
  refine ⟨_, ?_, openWindow_spec s.cfg (s.latchOf w) true s.mem s.windows⟩
  rw [writeReg_cmd_of_idle idle, accept_of_passed passed, latchCommand_of_ordered ordered]
  rfl

/-- Settles O27: a word that fails its checks finds no store outstanding, is latched like any other, and completes with the
error. -/
theorem failedCheckCompletes : Obligations.FailedCheckCompletes := by
  intro s w e idle (failed : startChecks s.cfg (s.latchOf w) = some e)
  refine ⟨_, ?_, openWindow_spec s.cfg (s.latchOf w) true s.mem s.windows⟩
  rw [writeReg_cmd_of_idle idle, accept_of_failed failed, latchCommand_of_ordered (unordered_failed failed)]
  rfl

/-! ### The start checks and their priority (R151 to R155) -/

/-- A block command's destination shares a byte with a buffer it reads (R155). -/
def destinationOverlaps (c : Config) (kind : BlockKind) (l : Latch) : Bool :=
  overlaps c l.dst l.src || (kind == .crossfade && overlaps c l.dst l.ctl)

/-- A block command's checks, in their priority (R151). -/
theorem blockChecks_eq (c : Config) (kind : BlockKind) (l : Latch) :
    blockChecks c kind l =
      if ∃ b ∈ checkedBases kind l, b.toNat % elementBytes c ≠ 0 then some .align
      else if ∃ b ∈ checkedBases kind l, outOfRange c b = true then some .range
      else if destinationOverlaps c kind l = true then some .overlap else none := by
  simp [blockChecks, destinationOverlaps]

/-- Each outcome of a block command's checks, by its condition (R151, R153 to R155). -/
theorem blockChecks_iff {c : Config} (legal : c.wf = true) (kind : BlockKind) (l : Latch) :
    (blockChecks c kind l = some .align ↔ ∃ b ∈ checkedBases kind l, b.toNat % elementBytes c ≠ 0) ∧
    (blockChecks c kind l = some .range ↔
      (∀ b ∈ checkedBases kind l, b.toNat % elementBytes c = 0) ∧ ∃ b ∈ checkedBases kind l, outOfRange c b = true) ∧
    (blockChecks c kind l = some .overlap ↔
      (∀ b ∈ checkedBases kind l, goodBase c b) ∧ destinationOverlaps c kind l = true) ∧
    (blockChecks c kind l = none ↔
      (∀ b ∈ checkedBases kind l, goodBase c b) ∧ ¬ destinationOverlaps c kind l = true) := by
  have aligned : (∀ b ∈ checkedBases kind l, b.toNat % elementBytes c = 0) ↔
      ¬ ∃ b ∈ checkedBases kind l, b.toNat % elementBytes c ≠ 0 := by simp
  have good : (∀ b ∈ checkedBases kind l, goodBase c b) ↔
      (¬ ∃ b ∈ checkedBases kind l, b.toNat % elementBytes c ≠ 0) ∧
      ¬ ∃ b ∈ checkedBases kind l, outOfRange c b = true := by
    simp [goodBase_iff legal, forall_and]
  rw [blockChecks_eq, aligned, good]
  split_ifs with misaligned outside overlap
  · simp [misaligned]
  · simp [misaligned, outside]
  · simp [misaligned, outside, overlap]
  · simp [misaligned, outside, overlap]

/-- No check of a block command's operands reports `E_ILLEGAL` (R151, R152). -/
theorem blockChecks_ne_illegal (c : Config) (kind : BlockKind) (l : Latch) : blockChecks c kind l ≠ some .illegal := by
  rw [blockChecks_eq]
  split_ifs <;> nofun

/-- Some base is out of range: one is null, or the last byte of one's buffer lies past the address space (R154, R67). -/
theorem exists_outOfRange_iff (c : Config) (bases : List Word) :
    (∃ b ∈ bases, outOfRange c b = true) ↔
      0#32 ∈ bases ∨ ∃ b ∈ bases, b.toNat + 2 * c.blockN - 1 > 0xFFFFFFFF := by
  have null (b : Word) : b.toNat = 0 ↔ b = 0#32 := BitVec.toNat_inj (y := 0#32)
  simp only [outOfRange_iff, blockBytes, null, and_or_left, exists_or, exists_eq_right]

/-- In a legal build, buffers overlap exactly where they share a byte (R155). -/
theorem overlaps_iff_shared {c : Config} (legal : c.wf = true) (x y : Word) :
    overlaps c x y = true ↔
      ∃ a, x.toNat ≤ a ∧ a < x.toNat + 2 * c.blockN ∧ y.toNat ≤ a ∧ a < y.toNat + 2 * c.blockN := by
  have := blockN_pos legal
  rw [overlaps_iff, blockBytes]
  constructor
  · exact fun _ => ⟨max x.toNat y.toNat, by omega⟩
  · rintro ⟨a, _⟩
    omega

/-- Settles O29: `CMIX` checks `DST` and `SRC`, and its destination must not meet its source. -/
theorem cmixStartChecks : Obligations.CmixStartChecks := by
  rintro c l n legal cmd rfl
  have checks : startChecks c l = blockChecks c .constant l :=
    startChecks_block (by rw [cmd]; exact decode_encode_block (i := .cmix) rfl _) rfl
  have meets : destinationOverlaps c .constant l = overlaps c l.dst l.src := by simp [destinationOverlaps]
  obtain ⟨align, range, overlap, passed⟩ := blockChecks_iff legal .constant l
  rw [checks, align, range, overlap, passed, meets, overlaps_iff_shared legal, exists_outOfRange_iff]
  refine ⟨?align, ?range, ?overlap, ?passed, fun narrow => by rw [elementBytes, narrow],
    fun wide => by rw [elementBytes, wide]⟩
  case align => simp [checkedBases]
  case range => simp [checkedBases, eq_comm (a := 0#32), and_assoc, or_assoc]
  case overlap | passed => simp [checkedBases, and_assoc]

/-- Settles O30: `XMIX` checks `CTL` too, and its destination must meet neither buffer it reads. -/
theorem xmixStartChecks : Obligations.XmixStartChecks := by
  rintro c l n legal cmd rfl
  have checks : startChecks c l = blockChecks c .crossfade l :=
    startChecks_block (by rw [cmd]; exact decode_encode_block (i := .xmix) rfl _) rfl
  have meets : destinationOverlaps c .crossfade l = true ↔ overlaps c l.dst l.src = true ∨ overlaps c l.dst l.ctl = true := by
    simp [destinationOverlaps]
  obtain ⟨align, range, overlap, passed⟩ := blockChecks_iff legal .crossfade l
  rw [checks, align, range, overlap, passed, meets, exists_outOfRange_iff]
  refine ⟨?align, ?range, ?overlap, ?passed⟩
  case align => simp [checkedBases]
  case range => simp [checkedBases, eq_comm (a := 0#32), and_assoc, or_assoc]
  case overlap => simp [checkedBases, overlaps_iff_shared legal, and_or_left, exists_or, and_assoc]
  case passed => simp [checkedBases, apart_iff legal, and_assoc]

/-! ### Illegal words (R72, R152) -/

/-- The check that fails with `E_ILLEGAL` is the decoding of the word (R152). -/
theorem startChecks_illegal_iff (c : Config) (l : Latch) :
    startChecks c l = some .illegal ↔ ∀ i, decode c.variant l.cmd ≠ .ok i := by
  constructor
  · intro illegal i hd
    cases hk : blockKindOf i with
    | none => simp [startChecks, hd, hk] at illegal
    | some kind => exact blockChecks_ne_illegal c kind l (startChecks_block hd hk ▸ illegal)
  · intro noCommand
    cases hd : decode c.variant l.cmd with
    | ok i => exact absurd hd (noCommand i)
    | error e => exact startChecks_of_error hd

/-- Settles O28: a word decodes exactly if it is a command's word on a variant that has it; the completion of a failed check is
`FailedCheckCompletes`. -/
theorem illegalWordsReported : Obligations.IllegalWordsReported := by
  have illegal (c : Config) (l : Latch) :
      startChecks c l = some .illegal ↔ ∀ i : Instr, l.cmd = encode i → i.wf c.variant = false := by
    simp [startChecks_illegal_iff, decodeAgreesWithEncode _ _ _]
  refine ⟨illegal, fun s w idle noCommand => ?_⟩
  obtain ⟨ws, hw, -⟩ := failedCheckCompletes s w .illegal idle ((illegal s.cfg (s.latchOf w)).mpr noCommand)
  exact ⟨_, hw, rfl, rfl, rfl, rfl⟩

/-! ### Completion (R157, R162) -/

theorem runBlock_status (s : State) (kind : BlockKind) :
    (s.runBlock kind).status = s.status.completed ∨ ∃ e, (s.runBlock kind).status = s.status.failed e := by
  rcases runBlock_cases s kind with ⟨e, -, he⟩ | ⟨-, -, he⟩ | ⟨-, -, he⟩ <;> rw [he]
  · exact .inr ⟨e, rfl⟩
  · exact .inr ⟨.bus, rfl⟩
  · exact .inl rfl

/-- A command completes, with an error or without (R157, R162). -/
theorem exec_status {i : Instr} {s t : State} (h : exec i s = .next t) :
    t.status = s.status.completed ∨ ∃ e, t.status = s.status.failed e := by
  rcases exec_next h with rfl | ⟨r, rfl⟩ | rfl | ⟨kind, rfl⟩
  · exact .inl rfl
  · exact .inl rfl
  · exact .inr ⟨.illegal, rfl⟩
  · exact runBlock_status s kind

/-- Settles O21: a command answers a next state, and there its `STATUS` is that of a completion. -/
theorem everyCommandCompletes : Obligations.EveryCommandCompletes := by
  intro i s
  obtain ⟨t, ht, -⟩ := exec_cases i s
  refine ⟨t, ht, ?_⟩
  rcases exec_status ht with status | ⟨e, status⟩ <;> rw [status]
  · exact ⟨rfl, rfl, rfl, .inl rfl⟩
  · exact ⟨rfl, rfl, rfl, .inr rfl⟩

/-- A block command that passes its checks and has an element left whose accesses do not all answer ends in `E_BUS`
(R156). -/
theorem runBlock_of_bus_error {s : State} {kind : BlockKind} (passed : blockChecks s.cfg kind s.latch = none) {j : Nat}
    (left : j ∈ s.remaining) (fails : elementOk s.cfg kind s.latch j = false) : s.runBlock kind = s.busError := by
  rcases runBlock_cases s kind with ⟨e, failed, -⟩ | ⟨-, -, he⟩ | ⟨-, answers, -⟩
  · rw [passed] at failed; cases failed
  · exact he
  · rw [answers j left] at fails; cases fails

/-- Settles O20: the command ends in `E_BUS`, whose frame is `busError_frame`. -/
theorem busErrorCompletes : Obligations.BusErrorCompletes := by
  rintro s i kind hk passed ⟨j, hj, hn, fails⟩
  rw [exec_block hk, runBlock_of_bus_error passed (mem_remaining.mpr ⟨hj, hn⟩) fails]
  obtain ⟨m, hm, outside, inside⟩ := busError_frame s
  exact ⟨m, congrArg _ hm, outside, inside⟩

/-! ### The interrupt output (R159) -/

/-- Settles O39: each way `irq` falls clears `IE` or `DONE`, and a word that enters `RUN` is accepted with `DONE` clear. -/
theorem interruptFollowsDone : Obligations.InterruptFollowsDone := by
  intro s
  refine ⟨by simp [State.irq], fun v t h clear => ?status, fun v t h clear => ?ctrl, fun w t h idle run => ?accepted, rfl,
    fun _ _ => rfl⟩
  case status => cases h; simp only [State.irq, Status.writeOneToClear, clear, Bool.not_true, Bool.and_false]
  case ctrl => cases h; simp only [State.irq, clear, Bool.false_and]
  case accepted =>
    obtain ⟨st, he, hst⟩ := accept_eq s w
    rw [writeReg_cmd_of_idle idle, he] at h
    cases h
    simp [State.irq, (hst run).1]

/-! ### The engine's phase (R150) -/

/-- In `IDLE` the host's move may accept a word, which enters `RUN` only if it passes its checks; it moves the phase in no other
way. -/
theorem hostTurn_phase {s t : State} (h : s.hostTurn = .next t) :
    t.status.busy = s.status.busy ∨
    s.status.busy = false ∧
      (t.status.busy = true → startChecks t.cfg t.latch = none ∧ t.cmd = t.latch.cmd ∧ t.progress = []) := by
  obtain ⟨u, hu, hk⟩ := hostTurn_effect h
  rw [hk.busy, hk.cfg, hk.latch, hk.cmd, hk.progress]
  cases hu with
  | none => exact .inl rfl
  | accept w idle =>
    obtain ⟨st, he, hst⟩ := accept_eq s w
    rw [he]
    exact .inr ⟨idle, fun run => ⟨(hst run).2, rfl, rfl⟩⟩
  | store x a v _ _ => rcases storeMem_cases s x a v with he | he <;> rw [he] <;> exact .inl rfl
  | close _ => exact .inl rfl
  | drainAll => exact .inl rfl

/-- An access keeps `STATUS`, or completes the command with `E_BUS` (R156). -/
theorem runAccess_status (s : State) (a : Access) (j : Nat) :
    (s.runAccess a j).status = s.status ∨ (s.runAccess a j).status = s.status.failed .bus := by
  rcases runAccess_cases s a j with he | ⟨_, -, -, -, -, he⟩ | ⟨_, _, -, -, -, -, -, -, he⟩ | ⟨_, -, -, -, -, -, he⟩ <;>
    rw [he]
  · exact .inl rfl
  · exact .inr rfl
  · exact .inl rfl
  · exact .inl rfl

/-- In `RUN` the engine's move completes the command (R152, R162). -/
theorem engineTurn_done {s t : State} (h : s.engineTurn = .next t) (run : s.status.busy = true) :
    t.status.done = true := by
  rcases engineTurn_cases s with ⟨idle, -⟩ | ⟨-, i, -, hs⟩ | ⟨-, -, hs⟩
  · rw [run] at idle; cases idle
  · rcases exec_status (hs.symm.trans h) with status | ⟨e, status⟩ <;> rw [status] <;> rfl
  · cases hs.symm.trans h; rfl

theorem drainOne_status (s : State) : s.drainOne.status = s.status := by
  unfold State.drainOne
  split <;> rfl

/-- A move that is neither the host's nor the engine's is one from the list (log entry 5). -/
theorem listed_of_turn {s : State} {m : Turn} {ts : List Turn} (turn : s.turns = m :: ts ∨ s.turns = [] ∧ m = s.ownTurn)
    (host : m ≠ .host) (engine : m ≠ .engine) : ∃ ts, s.turns = m :: ts := by
  rcases turn with hs | ⟨-, rfl⟩
  · exact ⟨ts, hs⟩
  · cases phase : s.status.busy
    · exact absurd (ownTurn_of_idle phase) host
    · exact absurd (ownTurn_of_run phase) engine

/-- A step that keeps the phase neither enters `RUN` nor leaves it. -/
theorem phase_kept {a b : Bool} {p q : Prop} (same : b = a) :
    (a = false → b = true → p) ∧ (a = true → b = false → q) := by
  subst same
  cases b <;> simp

/-- Settles O45, move by move: the host's move can only enter `RUN`, the engine's and an access can only leave it, a store that
completes keeps the phase, and reset ends in `IDLE`. -/
theorem phaseChangesOnlyAsNamed : Obligations.PhaseChangesOnlyAsNamed := by
  intro s t hstep
  obtain ⟨m, ts, turn, hm⟩ := step_next hstep
  have moved : s.turns = [] ∨ ∃ ts, s.turns = m :: ts := turn.symm.imp And.left fun hs => ⟨ts, hs⟩
  cases m with
  | host =>
    rcases hostTurn_phase hm with same | ⟨idle, entered⟩
    · exact phase_kept same
    · refine ⟨fun _ run => ?_, fun run => absurd (run.symm.trans idle) nofun⟩
      obtain ⟨checks, cmd, progress⟩ := entered run
      exact ⟨checks, cmd, progress, moved⟩
  | access a j =>
    cases hm
    rcases runAccess_status { s with turns := ts } a j with status | status <;> rw [status]
    · exact phase_kept rfl
    · exact ⟨nofun, fun _ _ => .inr (.inl ⟨rfl, rfl, a, j, listed_of_turn turn nofun nofun⟩)⟩
  | engine =>
    exact ⟨fun _ run => absurd ((engineTurn_idle hm).symm.trans run) nofun,
      fun run _ => .inl ⟨engineTurn_done hm run, moved⟩⟩
  | drain =>
    cases hm
    exact phase_kept (congrArg Status.busy (drainOne_status _))
  | reset =>
    cases hm
    exact ⟨nofun, fun _ _ => .inr (.inr (listed_of_turn turn nofun nofun))⟩

end Sys2Proof.Machine
end

section
/-!
PROOFS. Reset and hazards (`70_reset_and_hazards.md`): what reset leaves, the registers a running command does not read, and
the host's stores and loads of held buffers.
-/

namespace Sys2Proof.Machine

/-! ### Reset (R180 to R183) -/

/-- Settles O40: every register but `ID` is a constant after reset, and `ID` is a function of the build, which reset keeps. -/
theorem resetValues : Obligations.ResetValues := by
  refine fun s => ⟨fun r hr => ?_, congrArg idWord s.assertReset_cfg, rfl, rfl, rfl, rfl, rfl⟩
  cases r
  case id => exact absurd rfl hr
  case ctrl => exact (by decide : ctrlWord false = 0#32)
  case status => exact (by decide : Status.zero.toWord = 0#32)
  all_goals rfl

/-- Settles O41: reset forgets the destination of the command it abandons and no other byte. -/
theorem resetKeepsMemory : Obligations.ResetKeepsMemory := by
  refine fun s => ⟨fun idle => ?_, fun kind running a => ?_⟩
  · rw [State.assertReset_mem, abandon_mem, idle]
  · rw [State.assertReset_mem, abandon_mem, running]
    exact s.mem.byte_forget s.draws s.latch.dst.toNat (blockBytes s.cfg) a

theorem State.Inv.resetOf {c : Config} (legal : c.wf = true) : (State.resetOf c).Inv where
  legal := legal
  memory := Memory.wf_nil
  snapshots := nofun
  progress := rfl
  fetched := rising_fetched_empty _
  stores := nofun
  vars := ⟨0, rfl⟩
  command := rfl
  running := nofun
  window := by simp [blockInFlight_idle (s := State.resetOf c) rfl]

/-- Settles O47: the reset state holds nothing that the invariant speaks of, and its engine is in `IDLE`. -/
theorem resetMeetsInvariant : Obligations.ResetMeetsInvariant :=
  fun _ legal => ⟨.resetOf legal, .of_idle rfl⟩

/-! ### The registers a running command does not read (R37, R188) -/

/-- `s` with the registers that the host writes and the engine only latches, `CTRL` and `DST` to `OPC`, as in `r`. -/
def State.withRegsOf (s r : State) : State :=
  { s with ie := r.ie, dst := r.dst, src := r.src, ctl := r.ctl, opa := r.opa, opb := r.opb, opc := r.opc }

/-- A host write to one of these registers is a write to them alone. -/
theorem writeReg_withRegsOf {s t : State} {r : Reg} {v : Word}
    (latched : r = .ctrl ∨ r = .dst ∨ r = .src ∨ r = .ctl ∨ r = .opa ∨ r = .opb ∨ r = .opc)
    (h : s.writeReg r v = .next t) (u : State) : (u.withRegsOf s).writeReg r v = .next (u.withRegsOf t) := by
  rcases latched with rfl | rfl | rfl | rfl | rfl | rfl | rfl <;> cases h <;> rfl

theorem runBlock_withRegsOf (s r : State) (kind : BlockKind) :
    (s.withRegsOf r).runBlock kind = (s.runBlock kind).withRegsOf r := by
  have remaining : (s.withRegsOf r).remaining = s.remaining := rfl
  rw [State.runBlock, State.runBlock, remaining]
  simp only [State.withRegsOf]
  cases blockChecks s.cfg kind s.latch with
  | some e => rfl
  | none => cases runElements s.cfg kind s.latch s.unseen s.fetched s.remaining s.mem <;> rfl

theorem runPacked_withRegsOf (s r : State) (v : Word) :
    (s.withRegsOf r).runPacked v = (s.runPacked v).withRegsOf r := by
  cases hv : s.cfg.variant with
  | narrow => rw [runPacked_narrow hv, runPacked_narrow (s := s.withRegsOf r) hv]; rfl
  | wide => rw [runPacked_wide hv, runPacked_wide (s := s.withRegsOf r) hv]; rfl

/-- A command computes from the latch, and carries these registers along (R37). -/
theorem exec_withRegsOf (i : Instr) (s : State) :
    ∃ u, exec i s = .next u ∧ ∀ r, exec i (s.withRegsOf r) = .next (u.withRegsOf r) := by
  obtain ⟨u, hu, -⟩ := exec_cases i s
  refine ⟨u, hu, fun r => ?_⟩
  cases i <;> cases hu
  case nop | cmix1 | xmix1 => rfl
  case cmix | xmix => exact congrArg _ (runBlock_withRegsOf s r _)
  case pcmix2 | pxmix2 => exact congrArg _ (runPacked_withRegsOf s r _)

/-- In `RUN` a word that is no command completes with `E_ILLEGAL` (R152). -/
theorem engineTurn_of_error {s : State} {e : DecodeError} (run : s.status.busy = true)
    (hd : decode s.cfg.variant s.latch.cmd = .error e) : s.engineTurn = .next (s.raise .illegal) := by
  rw [State.engineTurn, if_pos run, hd]

/-- The engine's move carries these registers along, whatever it runs (R37). -/
theorem engineTurn_withRegsOf (s : State) :
    ∃ u, s.engineTurn = .next u ∧ ∀ r, (s.withRegsOf r).engineTurn = .next (u.withRegsOf r) := by
  cases run : s.status.busy with
  | false => exact ⟨s, engineTurn_of_idle run, fun r => engineTurn_of_idle (s := s.withRegsOf r) run⟩
  | true =>
    cases hd : decode s.cfg.variant s.latch.cmd with
    | ok i =>
      obtain ⟨u, hu, carried⟩ := exec_withRegsOf i s
      exact ⟨u, (engineTurn_of_decode run hd).trans hu,
        fun r => (engineTurn_of_decode (s := s.withRegsOf r) run hd).trans (carried r)⟩
    | error e => exact ⟨_, engineTurn_of_error run hd, fun r => engineTurn_of_error (s := s.withRegsOf r) run hd⟩

/-- Settles O25: the engine carries the written registers along, so it does not matter whether they are written before or
after its move. -/
theorem runningCommandReadsOnlyLatch : Obligations.RunningCommandReadsOnlyLatch := by
  intro s t r v latched h
  obtain ⟨u, hu, carried⟩ := engineTurn_withRegsOf s
  have ht : s.withRegsOf t = t := Host.Outcome.next.inj ((writeReg_withRegsOf latched h s).symm.trans h)
  have own : u.withRegsOf s = u := Host.Outcome.next.inj ((carried s).symm.trans hu)
  refine ⟨u, hu, ?_⟩
  calc t.engineTurn = .next (u.withRegsOf t) := ht ▸ carried t
    _ = (u.withRegsOf s).writeReg r v := (writeReg_withRegsOf latched h u).symm
    _ = u.writeReg r v := by rw [own]

/-! ### Host stores into held buffers (R185) -/

/-- An access meets a buffer exactly if one of its bytes lies there (R51). -/
theorem meetsBuffer_iff_byte {c : Config} (legal : c.wf = true) (b : Word) (a : Nat) {n : Nat} (hn : 0 < n) :
    meetsBuffer c b a n = true ↔ ∃ x, (a ≤ x ∧ x < a + n) ∧ inBuffer c b x = true := by
  have := blockN_pos legal
  simp only [meetsBuffer_iff, inBuffer_iff, blockBytes]
  constructor
  · exact fun _ => ⟨max a b.toNat, by omega⟩
  · rintro ⟨x, _⟩
    omega

/-- An access meets a command's buffers exactly if the command holds one of its bytes (R185). -/
theorem meetsBuffers_iff_byte {c : Config} (legal : c.wf = true) (kind : BlockKind) (l : Latch) (a : Nat) {n : Nat}
    (hn : 0 < n) :
    meetsBuffers c kind l a n = true ↔ ∃ x, (a ≤ x ∧ x < a + n) ∧ holdsByte c kind l x := by
  simp only [holdsByte, and_or_left, exists_or, ← meetsBuffer_iff_byte legal _ a hn]
  cases kind with
  | constant => simp [meetsBuffers]
  | crossfade => simp [meetsBuffers, meetsBuffer_iff_byte legal l.ctl a hn, or_assoc]

theorem Width.bytes_pos (w : Width) : 0 < w.bytes := by cases w <;> decide

/-- A store is a hazard exactly if it touches a byte that a command with an open window holds (R185). -/
theorem hazard_iff {s : State} (legal : s.cfg.wf = true) (wd : Width) (a : Nat) :
    s.hazard a wd.bytes = true ↔
      ∃ w ∈ s.windows, ∃ x, (a ≤ x ∧ x < a + wd.bytes) ∧ holdsByte s.cfg w.kind w.latch x := by
  simp only [State.hazard, List.any_eq_true, meetsBuffers_iff_byte legal _ _ a wd.bytes_pos]

theorem busStore_held {s : State} {wd : Width} {a : Nat} (window : inWindow s.cfg a wd.bytes = false)
    (inside : a + wd.bytes ≤ addressSpace) (ok : s.cfg.memOk a wd.bytes = true) (held : s.hazard a wd.bytes = true)
    (v : Word) : s.busStore wd a v = .fault .bufferHazard := by
  simp [State.busStore, window, ok, held, Nat.not_lt.mpr inside]

/-- Settles O52: the store is a fault exactly if it is a hazard; under a `CMIX` alone the control buffer is held by no
window. -/
theorem hostStoreIntoHeldBufferFaults : Obligations.HostStoreIntoHeldBufferFaults := by
  intro s wd a v legal window inside ok
  have performed : (∀ w ∈ s.windows, ∀ x, a ≤ x → x < a + wd.bytes → ¬ holdsByte s.cfg w.kind w.latch x) →
      s.busStore wd a v = .next (s.storeMem wd a v) := fun free => by
    refine busStore_free window inside ok ?_ v
    rw [← Bool.not_eq_true, hazard_iff legal]
    rintro ⟨w, hw, x, ⟨low, high⟩, held⟩
    exact free w hw x low high held
  refine ⟨?held, fun free => performed fun w hw x low high => ?free, fun w only constant free => performed ?constant⟩
  case held =>
    rintro ⟨w, hw, x, low, high, held⟩
    exact busStore_held window inside ok ((hazard_iff legal wd a).mpr ⟨w, hw, x, ⟨low, high⟩, held⟩) v
  case free =>
    obtain ⟨dst, src, ctl⟩ := free w hw x low high
    rintro (held | held | ⟨crossfade, held⟩)
    · simp [dst] at held
    · simp [src] at held
    · simp [ctl crossfade] at held
  case constant =>
    rw [only]
    simp only [List.mem_singleton, forall_eq]
    intro x low high
    obtain ⟨-, dst, src⟩ := free x low high
    simp [holdsByte, dst, src, constant]

/-! ### Host loads of held buffers (R57, R157, R185) -/

/-- The final value of a byte of an element: what the running command writes there, or what memory holds. -/
theorem finalByte_element (c : Config) (running : Bool) (w : Window) (m : Memory) (j : Nat) {k : Nat}
    (hk : k < elementBytes c) :
    finalByte c running w m (elementAddr c w.latch.dst j + k) =
      if running then (elementStep c w.kind w.latch w.before j).byte (elementAddr c w.latch.dst j + k)
      else m.byte (elementAddr c w.latch.dst j + k) := by
  rw [finalByte, element_of_byte c w.latch.dst j hk]

/-- Settles O53: with one window, a load looks at its window and then at memory; the choice is made by the element's
address. -/
theorem hostLoadRacesPerElement : Obligations.HostLoadRacesPerElement := by
  intro s w only ordered pending stale
  have byte : ∀ a, s.hostByte a = raceByte s.cfg s.blockInFlight.isSome s.draws [w] s.mem a := fun a => by
    rw [hostByte_fresh pending (by simp [stale]), only]
  simp only [byte]
  refine ⟨fun a outside => ?outside, fun failed a => ?failed, fun passed j hj _ => ?element⟩
  case outside => rw [raceByte_outside outside, raceByte]
  case failed =>
    have notPassed : w.passed s.cfg = false := by simpa [Window.passed, Option.isSome_iff_ne_none] using failed
    rw [raceByte_failed notPassed, raceByte]
  case element =>
    have passed : w.passed s.cfg = true := by rw [Window.passed, passed]; rfl
    by_cases final : Config.raceTakesFinal s.draws ([] : List Window).length (elementAddr s.cfg w.latch.dst j) = true
    · refine .inr fun k hk => ?_
      rw [raceByte_element passed ordered _ _ _ _ hj hk, if_pos final, finalByte_element _ _ _ _ _ hk]
    · refine .inl fun k hk => ?_
      rw [raceByte_element passed ordered _ _ _ _ hj hk, if_neg final, raceByte]

end Sys2Proof.Machine
end
